-- ==== Sys2Proof/Word.lean ====
section
/-! DEFINITION. The words of the block: levels, patterns, and the operand types of its operations (00_scope.md R8; 10_state.md R22 to
R25, R32). Types only: what computes on them stands in Machine/. -/

namespace Sys2Proof

/-- A byte: an unsigned value in 0..255 (R8). -/
abbrev Byte := BitVec 8

/-- A nibble: an unsigned value in 0..15 (R8). -/
abbrev Nibble := BitVec 4

/-- A line level: true is 1, high (R8). -/
abbrev Bit := Bool

/-- `W`, the bus width (R5, R12). -/
inductive Width where
  | fourBit
  | eightBit
  deriving DecidableEq, Repr

/-- A value of `BitVec WL` (R20, R64): a nibble on DB7..DB4 or a byte on DB7..DB0. -/
inductive Pattern where
  | nibble (n : Nibble)
  | byte (b : Byte)
  deriving DecidableEq, Repr

/-- The width whose wired lines the pattern fills (R64, R92). -/
def Pattern.width : Pattern → Width
  | .nibble _ => .fourBit
  | .byte _ => .eightBit

/-- The three control lines (R22). -/
inductive CtrlLine where
  | e
  | rs
  | rw
  deriving DecidableEq, Repr

/-- The direction of all wired data lines together (R25). -/
inductive Dir where
  | output
  | inputWithPullup
  deriving DecidableEq, Repr

/-- `TransferKind` (R12): it fixes the Register-Select level of a transfer. -/
inductive Kind where
  | instruction
  | data
  deriving DecidableEq, Repr

/-- The number k in {1, 2, 3} of a blind attempt (R27, R163). -/
inductive Attempt where
  | first
  | second
  | third
  deriving DecidableEq, Repr

/-- `FallTag` (R32): the ghost tag of an Enable pulse. -/
inductive FallTag where
  | blind (k : Attempt)
  | modeSel
  | innerNibble
  | final (k : Kind) (b : Byte)
  | read
  deriving DecidableEq, Repr

/-- Which list of spec/opcode_table.json a word is read with (R80). The three lists use the same numbers for different things, so a word
alone does not say which it is; `initFrame` and `command` split the command bytes into those sent as one init frame (R163, R166) and
those sent as a transfer (R85, R89). DESIGN CHOICE: notes/assumptions/2.md. -/
inductive Level where
  | operation
  | busWord8
  | busWord4
  | initFrame
  | command
  deriving DecidableEq, Repr

/-- One call of the host application as bytes: the list it is read with, and its code with its operands. -/
structure Call where
  level : Level
  bytes : List Byte
  deriving DecidableEq, Repr

end Sys2Proof
end

