-- ==== Sys2Proof/Config.lean ====
section
/-! DEFINITION. What is fixed when an instance is constructed (00_scope.md R5 to R7), and the free values: the draws the spec leaves
open (93_implementation_defined.md S2, S3, S4), each an opaque constant. -/

namespace Sys2Proof

/-- `FONT` (R5). -/
inductive Font where
  | font5x8
  | font5x10
  deriving DecidableEq, Repr

/-- `STRATEGY`, the settle strategy (R5). -/
inductive Strategy where
  | fixedDelay
  | busyPoll
  deriving DecidableEq, Repr

/-- The logical signals of the pin space (R60, R64). -/
inductive Signal where
  | e
  | rs
  | rw
  | db (k : Fin 8)
  deriving DecidableEq, Repr

/-- The configuration of one controller: R5 (`width` to `pins`), R6 (the minimum times, in ns) and R7 (the two bytes), with their
defaults. `rows` is any number, so that the check of R212 can fail. `pins` lists the pin map. -/
structure Cfg where
  width : Width
  rows : Nat
  font : Font
  strategy : Strategy := .busyPoll
  pollBound : Option Nat := none
  pins : List (Signal × Nat)
  tPower : Nat := 15000000
  tBlind1 : Nat := 4100000
  tBlind2 : Nat := 100000
  tBlind3 : Nat := 41000
  tMode : Nat := 41000
  tPollHigh : Nat := 500
  tPollLow : Nat := 500
  tPwEn : Nat := 500
  tEnLow : Nat := 500
  tSetup : Nat := 0
  tSettleCmd : Nat := 50000
  tSettleLong : Nat := 2000000
  displayOffByte : Byte := 0x08
  entryModeByte : Byte := 0x06
  deriving DecidableEq, Repr

namespace Config

/-- The draw δ of a micro-step, or how far a wait overruns its argument: any number (R10, R117; 93 S3). -/
opaque freeDelay : Nat → Nat

/-- The levels the device drives on DB7..DB0 at a sample: any value (R116, R228; 93 S4). -/
opaque freeAnswer : Nat → Byte

/-- The data latch after a change of direction to Output: any value (R114, R215; 93 S2). -/
opaque freeLatch : Nat → Byte

/-- The configuration of the instance that stands in `State.reset`. R5 gives `W`, `ROWS`, `FONT` and `PINS` no default; these are the
model's. DESIGN CHOICE: notes/assumptions/1.md. -/
def resetCfg : Cfg where
  width := .eightBit
  rows := 2
  font := .font5x8
  pins := [(.e, 0), (.rs, 1), (.rw, 2), (.db 0, 3), (.db 1, 4), (.db 2, 5), (.db 3, 6), (.db 4, 7), (.db 5, 8), (.db 6, 9), (.db 7, 10)]

end Config

end Sys2Proof
end

