-- ==== Sys2Proof/Syntax.lean ====
section
/-! DEFINITION. The instructions: one constructor for each row of spec/opcode_table.json (30_encoding.md R80, R81 to R84, R89, R93). -/

namespace Sys2Proof

/-- The 20 operations of R93, the 8 bus-word classes of R84 and the 7 command bytes of R89. -/
inductive Instr where
  -- operations, codes 0x00 to 0x13
  | construct (cfg : Cfg)
  | configureLines
  | setControlLine (l : CtrlLine) (v : Bit)
  | setDataLines (p : Pattern)
  | setDataDirection (d : Dir)
  | pulseEnable (t : Nat) (tag : FallTag)
  | sample
  | wait (d : Nat)
  | encode (b : Byte)
  | decode (fs : List Pattern)
  | selectRegister (k : Kind)
  | writeFrame (p : Pattern) (tag : FallTag)
  | transfer (k : Kind) (b : Byte)
  | settle (k : Kind) (b : Byte)
  | sendInstruction (b : Byte)
  | sendData (b : Byte)
  | waitUntilReady
  | pollIteration
  | initialise
  | abort
  -- bus words of EightBit (WF8, RC8) and FourBit (WF4, RC4), by (RS, RW)
  | iw8 (b : Byte)
  | dw8 (b : Byte)
  | br8 (b : Byte)
  | rsv8 (b : Byte)
  | iw4 (n : Nibble)
  | dw4 (n : Nibble)
  | br4 (n : Nibble)
  | rsv4 (n : Nibble)
  -- command bytes; `x` holds the bits the class ignores
  | init8Bit
  | mode4Bit
  | functionSet (dl n f : Bit) (x : BitVec 2)
  | clear
  | returnHome (x : Bit)
  | displayOffByte
  | entryModeByte
  deriving DecidableEq, Repr

end Sys2Proof
end

