-- ==== Sys2Proof/WellFormed.lean ====
section
/-! DEFINITION. What the syntax asks of an instruction's operands beyond their types (30_encoding.md R92, R93; 00_scope.md R5). -/

namespace Sys2Proof

/-- All patterns have one width: `<frames>` is a list of `BitVec WL` (R93). -/
def oneWidth : List Pattern → Bool
  | [] => true
  | p :: ps => ps.all fun q => q.width == p.width

/-- The list is a map: no signal has two pins (R5, `PINS` is a map). -/
def isPinMap : List (Signal × Nat) → Bool
  | [] => true
  | (x, _) :: ps => (ps.all fun q => q.1 != x) && isPinMap ps

/-- Well-formedness of an instruction as syntax. -/
def wellFormed : Instr → Bool
  | .construct cfg => isPinMap cfg.pins
  | .decode fs => oneWidth fs
  | .configureLines | .setControlLine _ _ | .setDataLines _ | .setDataDirection _ | .pulseEnable _ _ | .sample | .wait _ => true
  | .encode _ | .selectRegister _ | .writeFrame _ _ | .transfer _ _ | .settle _ _ | .sendInstruction _ | .sendData _ => true
  | .waitUntilReady | .pollIteration | .initialise | .abort => true
  | .iw8 _ | .dw8 _ | .br8 _ | .rsv8 _ | .iw4 _ | .dw4 _ | .br4 _ | .rsv4 _ => true
  | .init8Bit | .mode4Bit | .functionSet _ _ _ _ | .clear | .returnHome _ | .displayOffByte | .entryModeByte => true

end Sys2Proof
end

