-- ==== Sys2Proof/Decode.lean ====
section
/-! DEFINITION. From bytes to instructions and back (30_encoding.md R80 to R85, R89, R92, R93). An operation is its code of R93 and then its
operands, as in the programs of 95_test_vectors.md ("0F 41"); a bus word or a command byte is the word itself. How an operand other than a
byte is laid out in bytes is the model's own. DESIGN CHOICE: notes/assumptions/3.md. -/

namespace Sys2Proof

/-- Why bytes are no instruction. -/
inductive DecodeError where
  /-- no byte stands where one is needed -/
  | truncated
  /-- a code above 0x13 (R93) -/
  | unknownOperation
  /-- an operand byte that names no value of its operand's type -/
  | badOperand
  /-- a nibble value above 15 (R92) -/
  | nibbleTooWide
  /-- a number with a leading zero digit -/
  | nonCanonicalNumber
  /-- a frame list of two widths (R92, R93) -/
  | mixedWidths
  /-- a signal that `PINS` maps twice (R5) -/
  | notAPinMap
  /-- bytes after the last operand -/
  | trailingBytes
  /-- a bit outside the word's format (R81 to R83) -/
  | strayBits
  /-- a byte that is sent as no init frame (R89) -/
  | notAnInitFrame
  /-- a byte that R89's table does not distinguish: opaque to the block (R90) -/
  | opaqueByte
  deriving DecidableEq, Repr

/-- A value read from the front of the bytes, with the bytes after it. -/
abbrev Taken (α : Type) := Except DecodeError (α × List Byte)

/-- Go on with the value and the bytes after it, or stop at the refusal. -/
def Taken.andThen {α β : Type} (x : Taken α) (f : α → List Byte → Taken β) : Taken β :=
  match x with
  | .error e => .error e
  | .ok (a, bs) => f a bs

/-! ### Operands: each encoder beside its decoder -/

def takeByte : List Byte → Taken Byte
  | [] => .error .truncated
  | b :: bs => .ok (b, bs)

/-- Base 128, least significant digit first, bit 7 set on all digits but the last. `fuel` bounds the digits. -/
def natDigits : Nat → Nat → List Byte
  | 0, n => [BitVec.ofNat 8 n]
  | fuel + 1, n =>
    if n < 128 then [BitVec.ofNat 8 n] else BitVec.ofNat 8 (n % 128 + 128) :: natDigits fuel (n / 128)

def putNat (n : Nat) : List Byte := natDigits n n

def takeNat : List Byte → Taken Nat
  | [] => .error .truncated
  | b :: bs =>
    if b.toNat < 128 then .ok (b.toNat, bs)
    else match takeNat bs with
      | .error e => .error e
      | .ok (n, rest) => if n = 0 then .error .nonCanonicalNumber else .ok (b.toNat - 128 + 128 * n, rest)

def putBit (v : Bit) : List Byte := [if v then 1#8 else 0#8]

def takeBit : List Byte → Taken Bit
  | [] => .error .truncated
  | b :: bs => if b = 0#8 then .ok (false, bs) else if b = 1#8 then .ok (true, bs) else .error .badOperand

def putWidth : Width → List Byte
  | .fourBit => [0#8]
  | .eightBit => [1#8]

def takeWidth : List Byte → Taken Width
  | [] => .error .truncated
  | b :: bs => if b = 0#8 then .ok (.fourBit, bs) else if b = 1#8 then .ok (.eightBit, bs) else .error .badOperand

def putFont : Font → List Byte
  | .font5x8 => [0#8]
  | .font5x10 => [1#8]

def takeFont : List Byte → Taken Font
  | [] => .error .truncated
  | b :: bs => if b = 0#8 then .ok (.font5x8, bs) else if b = 1#8 then .ok (.font5x10, bs) else .error .badOperand

def putStrategy : Strategy → List Byte
  | .busyPoll => [0#8]
  | .fixedDelay => [1#8]

def takeStrategy : List Byte → Taken Strategy
  | [] => .error .truncated
  | b :: bs => if b = 0#8 then .ok (.busyPoll, bs) else if b = 1#8 then .ok (.fixedDelay, bs) else .error .badOperand

def putKind : Kind → List Byte
  | .instruction => [0#8]
  | .data => [1#8]

def takeKind : List Byte → Taken Kind
  | [] => .error .truncated
  | b :: bs => if b = 0#8 then .ok (.instruction, bs) else if b = 1#8 then .ok (.data, bs) else .error .badOperand

def putDir : Dir → List Byte
  | .output => [0#8]
  | .inputWithPullup => [1#8]

def takeDir : List Byte → Taken Dir
  | [] => .error .truncated
  | b :: bs => if b = 0#8 then .ok (.output, bs) else if b = 1#8 then .ok (.inputWithPullup, bs) else .error .badOperand

def putLine : CtrlLine → List Byte
  | .e => [0#8]
  | .rs => [1#8]
  | .rw => [2#8]

def takeLine : List Byte → Taken CtrlLine
  | [] => .error .truncated
  | b :: bs =>
    if b = 0#8 then .ok (.e, bs) else if b = 1#8 then .ok (.rs, bs) else if b = 2#8 then .ok (.rw, bs) else .error .badOperand

/-- 0 and a nibble, or 1 and a byte. -/
def putPattern : Pattern → List Byte
  | .nibble n => [0#8, n.setWidth 8]
  | .byte b => [1#8, b]

def takePattern : List Byte → Taken Pattern
  | a :: b :: bs =>
    if a = 0#8 then if b.toNat < 16 then .ok (.nibble (b.setWidth 4), bs) else .error .nibbleTooWide
    else if a = 1#8 then .ok (.byte b, bs)
    else .error .badOperand
  | _ => .error .truncated

/-- 0 `InnerNibble`, 1 `ModeSel`, 2 to 4 `Blind(1)` to `Blind(3)`, 5 `Read`, 6 and 7 `Final` of an instruction or a data byte. -/
def putTag : FallTag → List Byte
  | .innerNibble => [0#8]
  | .modeSel => [1#8]
  | .blind .first => [2#8]
  | .blind .second => [3#8]
  | .blind .third => [4#8]
  | .read => [5#8]
  | .final .instruction b => [6#8, b]
  | .final .data b => [7#8, b]

def takeTag : List Byte → Taken FallTag
  | [] => .error .truncated
  | b :: bs =>
    if b = 0#8 then .ok (.innerNibble, bs)
    else if b = 1#8 then .ok (.modeSel, bs)
    else if b = 2#8 then .ok (.blind .first, bs)
    else if b = 3#8 then .ok (.blind .second, bs)
    else if b = 4#8 then .ok (.blind .third, bs)
    else if b = 5#8 then .ok (.read, bs)
    else match bs with
      | [] => .error .truncated
      | x :: rest =>
        if b = 6#8 then .ok (.final .instruction x, rest)
        else if b = 7#8 then .ok (.final .data x, rest)
        else .error .badOperand

/-- 0 to 7 the data lines, 8 `E`, 9 `RS`, 10 `RW`. -/
def putSignal : Signal → List Byte
  | .db k => [BitVec.ofNat 8 k.val]
  | .e => [8#8]
  | .rs => [9#8]
  | .rw => [10#8]

def takeSignal : List Byte → Taken Signal
  | [] => .error .truncated
  | b :: bs =>
    if h : b.toNat < 8 then .ok (.db ⟨b.toNat, h⟩, bs)
    else if b = 8#8 then .ok (.e, bs)
    else if b = 9#8 then .ok (.rs, bs)
    else if b = 10#8 then .ok (.rw, bs)
    else .error .badOperand

def putPin (q : Signal × Nat) : List Byte := putSignal q.1 ++ putNat q.2

def takePin (bs : List Byte) : Taken (Signal × Nat) :=
  (takeSignal bs).andThen fun x bs =>
  (takeNat bs).andThen fun n bs =>
  .ok ((x, n), bs)

/-- `POLL_BOUND`: 0 is none, n + 1 is some n. -/
def putBound : Option Nat → List Byte
  | none => putNat 0
  | some n => putNat (n + 1)

def takeBound (bs : List Byte) : Taken (Option Nat) :=
  (takeNat bs).andThen fun n bs =>
  .ok (match n with | 0 => none | k + 1 => some k, bs)

/-- A given number of items. -/
def takeMany {α : Type} (take : List Byte → Taken α) : Nat → List Byte → Taken (List α)
  | 0, bs => .ok ([], bs)
  | n + 1, bs =>
    (take bs).andThen fun x bs =>
    (takeMany take n bs).andThen fun xs bs =>
    .ok (x :: xs, bs)

/-- The number of items and then the items. -/
def putList {α : Type} (put : α → List Byte) (xs : List α) : List Byte := putNat xs.length ++ xs.flatMap put

def takeList {α : Type} (take : List Byte → Taken α) (bs : List Byte) : Taken (List α) :=
  (takeNat bs).andThen fun n bs =>
  takeMany take n bs

/-- The configuration record, its fields in the order of `Cfg`. -/
def putCfg (c : Cfg) : List Byte :=
  putWidth c.width ++ (putNat c.rows ++ (putFont c.font ++ (putStrategy c.strategy ++ (putBound c.pollBound ++ (putList putPin c.pins ++
  (putNat c.tPower ++ (putNat c.tBlind1 ++ (putNat c.tBlind2 ++ (putNat c.tBlind3 ++ (putNat c.tMode ++ (putNat c.tPollHigh ++
  (putNat c.tPollLow ++ (putNat c.tPwEn ++ (putNat c.tEnLow ++ (putNat c.tSetup ++ (putNat c.tSettleCmd ++ (putNat c.tSettleLong ++
  [c.displayOffByte, c.entryModeByte])))))))))))))))))

def takeCfg (bs : List Byte) : Taken Cfg :=
  (takeWidth bs).andThen fun width bs =>
  (takeNat bs).andThen fun rows bs =>
  (takeFont bs).andThen fun font bs =>
  (takeStrategy bs).andThen fun strategy bs =>
  (takeBound bs).andThen fun pollBound bs =>
  (takeList takePin bs).andThen fun pins bs =>
  (takeNat bs).andThen fun tPower bs =>
  (takeNat bs).andThen fun tBlind1 bs =>
  (takeNat bs).andThen fun tBlind2 bs =>
  (takeNat bs).andThen fun tBlind3 bs =>
  (takeNat bs).andThen fun tMode bs =>
  (takeNat bs).andThen fun tPollHigh bs =>
  (takeNat bs).andThen fun tPollLow bs =>
  (takeNat bs).andThen fun tPwEn bs =>
  (takeNat bs).andThen fun tEnLow bs =>
  (takeNat bs).andThen fun tSetup bs =>
  (takeNat bs).andThen fun tSettleCmd bs =>
  (takeNat bs).andThen fun tSettleLong bs =>
  (takeByte bs).andThen fun displayOffByte bs =>
  (takeByte bs).andThen fun entryModeByte bs =>
  if isPinMap pins then
    .ok (Cfg.mk width rows font strategy pollBound pins tPower tBlind1 tBlind2 tBlind3 tMode tPollHigh tPollLow tPwEn tEnLow tSetup
      tSettleCmd tSettleLong displayOffByte entryModeByte, bs)
  else .error .notAPinMap

/-! ### Operations: the codes of R93 -/

/-- The instruction an operation's code and operands stand for, with the bytes after it. -/
def takeOperation : List Byte → Taken Instr
  | [] => .error .truncated
  | op :: bs =>
    match op.toNat with
    | 0x00 => (takeCfg bs).andThen fun c bs => .ok (.construct c, bs)
    | 0x01 => .ok (.configureLines, bs)
    | 0x02 => (takeLine bs).andThen fun l bs => (takeBit bs).andThen fun v bs => .ok (.setControlLine l v, bs)
    | 0x03 => (takePattern bs).andThen fun p bs => .ok (.setDataLines p, bs)
    | 0x04 => (takeDir bs).andThen fun d bs => .ok (.setDataDirection d, bs)
    | 0x05 => (takeNat bs).andThen fun t bs => (takeTag bs).andThen fun g bs => .ok (.pulseEnable t g, bs)
    | 0x06 => .ok (.sample, bs)
    | 0x07 => (takeNat bs).andThen fun d bs => .ok (.wait d, bs)
    | 0x08 => (takeByte bs).andThen fun b bs => .ok (.encode b, bs)
    | 0x09 =>
      (takeList takePattern bs).andThen fun fs bs =>
      if oneWidth fs then .ok (.decode fs, bs) else .error .mixedWidths
    | 0x0A => (takeKind bs).andThen fun k bs => .ok (.selectRegister k, bs)
    | 0x0B => (takePattern bs).andThen fun p bs => (takeTag bs).andThen fun g bs => .ok (.writeFrame p g, bs)
    | 0x0C => (takeKind bs).andThen fun k bs => (takeByte bs).andThen fun b bs => .ok (.transfer k b, bs)
    | 0x0D => (takeKind bs).andThen fun k bs => (takeByte bs).andThen fun b bs => .ok (.settle k b, bs)
    | 0x0E => (takeByte bs).andThen fun b bs => .ok (.sendInstruction b, bs)
    | 0x0F => (takeByte bs).andThen fun b bs => .ok (.sendData b, bs)
    | 0x10 => .ok (.waitUntilReady, bs)
    | 0x11 => .ok (.pollIteration, bs)
    | 0x12 => .ok (.initialise, bs)
    | 0x13 => .ok (.abort, bs)
    | _ => .error .unknownOperation

/-! ### Bus words: R81 to R84 -/

/-- A 10-bit word: RS is bit 9, RW bit 8, the data bits 7..0 (R81, R83). R81 gives it no bytes; that a call holds it as two, the low byte
first, is the model's choice (DESIGN CHOICE, notes/assumptions/3.md). -/
def takeWord8 : List Byte → Taken Instr
  | lo :: hi :: bs =>
    match hi.toNat with
    | 0 => .ok (.iw8 lo, bs)
    | 1 => .ok (.br8 lo, bs)
    | 2 => .ok (.dw8 lo, bs)
    | 3 => .ok (.rsv8 lo, bs)
    | _ => .error .strayBits
  | _ => .error .truncated

/-- A 6-bit word as one byte: RS is bit 5, RW bit 4, the data bits 3..0 (R82, R83). -/
def takeWord4 : List Byte → Taken Instr
  | [] => .error .truncated
  | b :: bs =>
    match b.toNat / 16 with
    | 0 => .ok (.iw4 (b.setWidth 4), bs)
    | 1 => .ok (.br4 (b.setWidth 4), bs)
    | 2 => .ok (.dw4 (b.setWidth 4), bs)
    | 3 => .ok (.rsv4 (b.setWidth 4), bs)
    | _ => .error .strayBits

/-! ### Command bytes: R89 -/

def takeInitFrame : List Byte → Taken Instr
  | [] => .error .truncated
  | b :: bs => if b = 0x30#8 then .ok (.init8Bit, bs) else if b = 0x20#8 then .ok (.mode4Bit, bs) else .error .notAnInitFrame

def takeCommand : List Byte → Taken Instr
  | [] => .error .truncated
  | b :: bs =>
    if b.toNat / 32 = 1 then .ok (.functionSet (b.getLsbD 4) (b.getLsbD 3) (b.getLsbD 2) (b.setWidth 2), bs)
    else if b = 0x01#8 then .ok (.clear, bs)
    else if b.toNat / 2 = 1 then .ok (.returnHome (b.getLsbD 0), bs)
    else if b = 0x08#8 then .ok (.displayOffByte, bs)
    else if b = 0x06#8 then .ok (.entryModeByte, bs)
    else .error .opaqueByte

/-- The byte a function-set command stands for: `001D NFxx` (R89). -/
def functionSetByte (dl n f : Bit) (x : BitVec 2) : Byte :=
  BitVec.ofNat 8 (0x20 + (if dl then 0x10 else 0) + (if n then 0x08 else 0) + (if f then 0x04 else 0) + x.toNat)

/-- The byte a return-home command stands for: `0000 001x` (R89). -/
def returnHomeByte (x : Bit) : Byte := if x then 0x03#8 else 0x02#8

/-! ### Calls -/

def takeAt : Level → List Byte → Taken Instr
  | .operation => takeOperation
  | .busWord8 => takeWord8
  | .busWord4 => takeWord4
  | .initFrame => takeInitFrame
  | .command => takeCommand

/-- The decoder: total, each refusal by name; every byte of the call belongs to the instruction. -/
def decode (c : Call) : Except DecodeError Instr :=
  match takeAt c.level c.bytes with
  | .error e => .error e
  | .ok (i, []) => .ok i
  | .ok (_, _ :: _) => .error .trailingBytes

/-- The encoder: the call that stands for an instruction (R81 to R84, R89, R93). -/
def encode : Instr → Call
  | .construct c => ⟨.operation, 0x00#8 :: putCfg c⟩
  | .configureLines => ⟨.operation, [0x01#8]⟩
  | .setControlLine l v => ⟨.operation, 0x02#8 :: (putLine l ++ putBit v)⟩
  | .setDataLines p => ⟨.operation, 0x03#8 :: putPattern p⟩
  | .setDataDirection d => ⟨.operation, 0x04#8 :: putDir d⟩
  | .pulseEnable t g => ⟨.operation, 0x05#8 :: (putNat t ++ putTag g)⟩
  | .sample => ⟨.operation, [0x06#8]⟩
  | .wait d => ⟨.operation, 0x07#8 :: putNat d⟩
  | .encode b => ⟨.operation, [0x08#8, b]⟩
  | .decode fs => ⟨.operation, 0x09#8 :: putList putPattern fs⟩
  | .selectRegister k => ⟨.operation, 0x0A#8 :: putKind k⟩
  | .writeFrame p g => ⟨.operation, 0x0B#8 :: (putPattern p ++ putTag g)⟩
  | .transfer k b => ⟨.operation, 0x0C#8 :: (putKind k ++ [b])⟩
  | .settle k b => ⟨.operation, 0x0D#8 :: (putKind k ++ [b])⟩
  | .sendInstruction b => ⟨.operation, [0x0E#8, b]⟩
  | .sendData b => ⟨.operation, [0x0F#8, b]⟩
  | .waitUntilReady => ⟨.operation, [0x10#8]⟩
  | .pollIteration => ⟨.operation, [0x11#8]⟩
  | .initialise => ⟨.operation, [0x12#8]⟩
  | .abort => ⟨.operation, [0x13#8]⟩
  | .iw8 b => ⟨.busWord8, [b, 0#8]⟩
  | .br8 b => ⟨.busWord8, [b, 1#8]⟩
  | .dw8 b => ⟨.busWord8, [b, 2#8]⟩
  | .rsv8 b => ⟨.busWord8, [b, 3#8]⟩
  | .iw4 n => ⟨.busWord4, [0x0#4 ++ n]⟩
  | .br4 n => ⟨.busWord4, [0x1#4 ++ n]⟩
  | .dw4 n => ⟨.busWord4, [0x2#4 ++ n]⟩
  | .rsv4 n => ⟨.busWord4, [0x3#4 ++ n]⟩
  | .init8Bit => ⟨.initFrame, [0x30#8]⟩
  | .mode4Bit => ⟨.initFrame, [0x20#8]⟩
  | .functionSet dl n f x => ⟨.command, [functionSetByte dl n f x]⟩
  | .clear => ⟨.command, [0x01#8]⟩
  | .returnHome x => ⟨.command, [returnHomeByte x]⟩
  | .displayOffByte => ⟨.command, [0x08#8]⟩
  | .entryModeByte => ⟨.command, [0x06#8]⟩

/-! ### Words of the opcode table -/

/-- The list a word of the table is read with. The table's lists overlap in 8 bits, and the bits do not say which is meant: operations come
first, then the command bytes, then the 6-bit bus words; a longer word is a 10-bit bus word, a shorter one a 6-bit bus word.
DESIGN CHOICE: notes/assumptions/2.md. -/
def tableLevel (nbits w : Nat) : Level :=
  if nbits ≤ 6 then .busWord4
  else if 8 < nbits then .busWord8
  else if w < 0x14 then .operation
  else if w = 0x20 ∨ w = 0x30 then .initFrame
  else if 0x20 ≤ w ∧ w < 0x40 then .command
  else .busWord4

/-- The word's bytes, the first at the lowest address. A bit above the level's word spoils the last byte, so that no decoder takes it. -/
def tableBytes (nbits w : Nat) : List Byte :=
  if 8 < nbits then [BitVec.ofNat 8 w, BitVec.ofNat 8 (min (w / 256) 255)] else [BitVec.ofNat 8 (min w 255)]

/-- Operand bytes of zeros, more than the longest instruction made of them needs. -/
def zeroOperands : List Byte := List.replicate 32 0#8

/-- The call of a table word: its bytes, and as many operand bytes of zeros as its instruction takes. -/
def tableCall (nbits w : Nat) : Call :=
  let level := tableLevel nbits w
  let bytes := tableBytes nbits w ++ zeroOperands
  match takeAt level bytes with
  | .ok (_, rest) => ⟨level, bytes.take (bytes.length - rest.length)⟩
  | .error _ => ⟨level, tableBytes nbits w⟩

/-- What the decoder reads from a word of spec/opcode_table.json. -/
def decodeTableWord (nbits w : Nat) : Option Instr :=
  match decode (tableCall nbits w) with
  | .ok i => some i
  | .error _ => none

end Sys2Proof
end

