-- ==== Sys2Proof/Machine/State.lean ====
section
/-! DEFINITION. The state: the record `St` of 10_state.md R20 with its monitor, trace, faults and result; the instance that holds it with its
configuration; the driver's continuation; the inputs of the host and the device. Plain data. -/

namespace Sys2Proof.Machine

/-- The ids of a timing violation (R216, R258). -/
inductive TimingId where
  | power
  | blind (k : Attempt)
  | mode
  | pw
  | low
  | pollHigh
  | setup
  | settleTime
  | settleBusy
  deriving DecidableEq, Repr

/-- The line a `UnconfiguredLine` fault names (R217): a control line, or the data lines. -/
inductive LineName where
  | e
  | rs
  | rw
  | db
  deriving DecidableEq, Repr

/-- The model faults F1 to F14 (R217): records in `St.faults`, written by `raise` (R218). They are not outcomes of a step. -/
inductive ModelFault where
  | instanceDead
  | initializeTwice
  | notReady
  | pollBeforeModeSelect
  | widthChangeRefused
  | unconfiguredLine (s : LineName)
  | enableNotLowAtFrameStart
  | pulseInReadMode
  | lineChangeWhileEnableHigh
  | registerSelectMidByte
  | writeWhileInput
  | busContention
  | sampleOutsideReadCycle
  | timingViolation (id : TimingId)
  deriving DecidableEq, Repr

/-- The outcomes O0 to O3 of a public operation (R211). -/
inductive OpOutcome where
  | ok
  | configurationError
  | busyFlagTimeout
  | aborted
  deriving DecidableEq, Repr

/-- `Phase` (R27). -/
inductive Phase where
  | poweringUp
  | blindInit (k : Attempt)
  | modeSelecting
  | functionSetting
  | displayConfiguring
  | clearing
  | entryModeSetting
  | ready
  | failed (o : OpOutcome)
  | aborted
  deriving DecidableEq, Repr

/-- `CycleKind` (R32). -/
inductive CycleKind where
  | write
  | read
  deriving DecidableEq, Repr

/-- `SettleReq` (R32, R34). -/
inductive SettleReq where
  | noSettle
  | untilTime (t : Nat)
  | untilBusyClear
  deriving DecidableEq, Repr

/-- `Monitor` (R32). -/
structure Monitor where
  riseAt : Option Nat
  riseKind : Option CycleKind
  curTag : FallTag
  lastFall : Option (Nat × FallTag)
  lastChange : Nat
  settle : SettleReq
  anyRise : Bool
  deriving DecidableEq, Repr

/-- The events of the trace (R35). -/
inductive Event where
  | wFrame (rs : Bit) (bits : Pattern) (t : Nat)
  | rCycle (rs : Bit) (bits : Pattern) (t : Nat)
  | dirChange (d : Dir) (t : Nat)
  | outcome (o : OpOutcome) (t : Nat)
  deriving DecidableEq, Repr

/-- The record `St` of R20. -/
structure St where
  phase : Phase
  e : Option Bit
  rs : Option Bit
  rw : Option Bit
  data : Option Pattern
  dir : Option Dir
  halfByte : Bool
  pollIter : Nat
  lastBF : Option Bit
  now : Nat
  mon : Monitor
  trace : List Event
  faults : List ModelFault
  result : Option OpOutcome
  deriving DecidableEq, Repr

/-- The monitor after construction (R39). -/
def Monitor.init : Monitor where
  riseAt := none
  riseKind := none
  curTag := .read
  lastFall := none
  lastChange := 0
  settle := .noSettle
  anyRise := false

/-- The values after construction (R39). -/
def St.init : St where
  phase := .poweringUp
  e := none
  rs := none
  rw := none
  data := none
  dir := none
  halfByte := false
  pollIter := 0
  lastBF := none
  now := 0
  mon := Monitor.init
  trace := []
  faults := []
  result := none

/-- A controller instance: its configuration beside its `St`, not in it (R20, R21). -/
structure Instance where
  cfg : Cfg
  st : St
  deriving DecidableEq, Repr

/-- What the driver is still to do (R28: its continuation). An action is one micro-step (R9), a composite of R94 that expands in place, or a
control point that takes no time (R9: `raise`, `return`, `pc <-`; the ghost tag of R115). -/
inductive Act where
  /-- `setControlLine` (R112), a micro-step -/
  | line (l : CtrlLine) (v : Bit)
  /-- `setDataLines` (R113), a micro-step -/
  | data (p : Pattern)
  /-- `setDataDirection` (R114), a micro-step -/
  | direction (d : Dir)
  /-- `Wait` (R117), a micro-step -/
  | delay (d : Nat)
  /-- `sample` (R116), a micro-step: `device` is the answer where the bus word gives it (R83), `keep` says that the busy flag is taken
  from this sample (R193, R194) -/
  | read (device : Option Pattern) (keep : Bool)
  /-- the four micro-steps of `configureLines` (R111) -/
  | configE
  | configRS
  | configRW
  | configData
  /-- `mon.curTag <- tag` (R115) -/
  | tag (t : FallTag)
  /-- `pulseEnable` (R115) -/
  | pulse (t : Nat) (tag : FallTag)
  /-- `writeFrame` (R134) -/
  | frame (p : Pattern) (tag : FallTag)
  /-- `transfer` (R135) -/
  | transfer (k : Kind) (b : Byte)
  /-- `settle` (R136) -/
  | settle (k : Kind) (b : Byte)
  /-- `waitUntilReady` (R190) -/
  | poll
  /-- `pollIter <- 0` (R190) -/
  | pollReset
  /-- `pollIteration` (R193, R194) -/
  | pollIteration
  /-- the loop test of `waitUntilReady` (R190, R195, R196) -/
  | pollTest
  /-- `pollIteration` called by itself returns its bit; BF = 0 discharges the settle obligation (R254) -/
  | giveFlag
  /-- `pc <-` the next phase of R175 -/
  | advance
  /-- the end of an operation with an outcome (R211, R213) -/
  | finish (o : OpOutcome)
  /-- the lines of the abort path (R215) -/
  | abortEnable
  | abortReadWrite
  | abortDirection
  | abortFinish
  deriving DecidableEq, Repr

/-- Who called the operation in progress: the host, whose operation's outcome is recorded (R211); a user of an internal operation, to whom
the outcome is only returned (R211, R213); or the abort path runs (R215). -/
inductive Caller where
  | publicOp
  | internalOp
  | abortPath
  deriving DecidableEq, Repr

/-- What the last operation gave its caller (R116, R130, R131, R193, R211). -/
inductive Ret where
  | nothing
  | outcome (o : OpOutcome)
  | frames (fs : List Pattern)
  | byte (b : Byte)
  | pattern (p : Pattern)
  | bit (v : Bit)
  deriving DecidableEq, Repr

/-- The state. `inst`: the instance, none when none exists (R212). `cont`, `caller`, `ret`, `bf`: the driver's continuation, its caller, the
value it returned, and its local variable (R28, R193). `calls`, `abortIn`: what the host will do (R4, R215). `delays`, `answers`,
`latches`: the draws that are given (R10, R116, R114); `draws`: how many draws were made, the argument of the free values. -/
structure State where
  inst : Option Instance
  cont : List Act
  caller : Caller
  ret : Ret
  bf : Bit
  calls : List Call
  abortIn : Option Nat
  delays : List Nat
  answers : List Byte
  latches : List Byte
  draws : Nat
  deriving DecidableEq, Repr

/-- Why the machine stops. -/
inductive Fault where
  /-- Every operation but `encode`, `decode`, `construct` and an abort of a dead instance, and every driver action, once a model fault is
  recorded: "It stops the driver agent. No further micro-step of any operation runs" (R218). Safe: the run was outside the protocol. -/
  | driverStopped
  deriving DecidableEq, Repr

/-- Why an instruction has no transition. -/
inductive Refusal where
  /-- an instruction without a meaning in exec's arm; safe -/
  | notModelled (mnemonic : String)
  /-- an operation other than `construct` where no instance exists (R212); safe -/
  | noInstance
  /-- an operation called while another is in progress (R219); safe -/
  | reentrantCall
  /-- a pattern or bus word whose width is not the instance's (R92); safe -/
  | wrongWidth
  /-- `decode` of a list outside its domain (R131); safe -/
  | decodeDomain
  /-- a bus word of the class (RS, RW) = (1, 1), which the block never produces (R92; 93 S12); safe -/
  | reservedBusWord
  /-- bytes that are no instruction (R92, R93); raised by the fetch, safe -/
  | undecodable (e : DecodeError)
  deriving DecidableEq, Repr

/-- The machine right after reset. Construction is reset (R240): an instance with the values of R39, no operation in progress, nothing
asked by the host. Its configuration and the model's own fields: DESIGN CHOICE, notes/assumptions/1.md, 6.md, 8.md, 9.md, 11.md. -/
def State.reset : State where
  inst := some ⟨Config.resetCfg, St.init⟩
  cont := []
  caller := .publicOp
  ret := .nothing
  bf := false
  calls := []
  abortIn := none
  delays := []
  answers := []
  latches := []
  draws := 0

end Sys2Proof.Machine
end

