-- ==== Sys2Proof/Machine/Operands.lean ====
section
/-! DEFINITION. Operand forms: patterns and their lines (20_memory.md R61, R64), nibble packing, the function-set byte, the bytes the block
distinguishes (30_encoding.md R86, R87, R89, R91), the times a tag or a transfer asks for (41_instruction_codec.md R136; R164, R243). -/

namespace Sys2Proof.Machine

/-- `b[7:4]` -/
def upperNibble (b : Byte) : Nibble := b.extractLsb' 4 4

/-- `b[3:0]` -/
def lowerNibble (b : Byte) : Nibble := b.extractLsb' 0 4

/-- `h ++ l = (h << 4) | l` (R8) -/
def joinNibbles (h l : Nibble) : Byte := h ++ l

/-- `pack(b, W)` (R86): upper nibble first. -/
def pack (b : Byte) : Width → List Pattern
  | .eightBit => [.byte b]
  | .fourBit => [.nibble (upperNibble b), .nibble (lowerNibble b)]

/-- `unpack(fs, W)` (R86), none outside the range of `pack` (R131). -/
def unpack : List Pattern → Width → Option Byte
  | [.byte p], .eightBit => some p
  | [.nibble h, .nibble l], .fourBit => some (joinNibbles h l)
  | _, _ => none

/-- `initPattern(x)` (R163): the byte, or its upper nibble, in one frame. -/
def initPattern (w : Width) (x : Byte) : Pattern :=
  match w with
  | .eightBit => .byte x
  | .fourBit => .nibble (upperNibble x)

/-- `zext_WL(0)` (R111) -/
def zeroPattern : Width → Pattern
  | .eightBit => .byte 0#8
  | .fourBit => .nibble 0#4

/-- The pattern on the wired lines when DB7..DB0 have the levels of a byte (R64): all of it, or DB7..DB4. -/
def wiredPart (w : Width) (levels : Byte) : Pattern :=
  match w with
  | .eightBit => .byte levels
  | .fourBit => .nibble (upperNibble levels)

/-- `WiredLines(W)` (R64). -/
def wiredLines : Width → List (Fin 8)
  | .eightBit => [0, 1, 2, 3, 4, 5, 6, 7]
  | .fourBit => [4, 5, 6, 7]

/-- The signals of the pin space (R60): the domain of `PINS`, `3 + WL` of them (R5). -/
def signals (w : Width) : List Signal := [.e, .rs, .rw] ++ (wiredLines w).map .db

/-- The level a pattern puts on data line DB k, none where the line is not wired (R64). -/
def onLine (p : Pattern) (k : Fin 8) : Option Bit :=
  match p with
  | .byte b => some (b.getLsbD k.val)
  | .nibble n => if 4 ≤ k.val then some (n.getLsbD (k.val - 4)) else none

/-- The level the block drives on a signal: the latch of a control line (R22); the data latch, while the direction is Output (R24). -/
def St.drives (s : St) : Signal → Option Bit
  | .e => s.e
  | .rs => s.rs
  | .rw => s.rw
  | .db k => if s.dir = some .output then s.data.bind fun p => onLine p k else none

/-- The HAL pin of a signal (R71). -/
def pinOf (c : Cfg) (x : Signal) : Option Nat := (c.pins.find? fun q => q.1 == x).map (·.2)

/-- The level the block drives on a HAL pin (R71, R227), none on a pin that it does not drive. -/
def Instance.pinLevel (m : Instance) (pin : Nat) : Option Bit :=
  (m.cfg.pins.find? fun q => q.2 == pin).bind fun q => m.st.drives q.1

/-- The cells of the device register space (R61). -/
inductive DeviceCell where
  | ir
  | dr
  | busyFlag
  | notUsed
  deriving DecidableEq, Repr

/-- The cell that (RS, RW) select at an Enable pulse (R61). -/
def cellOf (rs rw : Bit) : DeviceCell :=
  match rs, rw with
  | false, false => .ir
  | true, false => .dr
  | false, true => .busyFlag
  | true, true => .notUsed

/-- The Register-Select level of a transfer kind (R23, R133). -/
def kindLevel : Kind → Bit
  | .instruction => false
  | .data => true

/-- `FS(W, ROWS, FONT)` (R87). Bits 3 and 2 are PRESUMED by the spec: notes/assumptions/20.md. -/
def fsByte (c : Cfg) : Byte :=
  0x20#8 ||| (if c.width = .eightBit then 0x10#8 else 0#8) ||| (if c.rows = 2 then 0x08#8 else 0#8)
    ||| (if c.font = .font5x10 then 0x04#8 else 0#8)

/-- `IsFunctionSet(b)` (R89). -/
def isFunctionSet (b : Byte) : Bool := b.extractLsb' 5 3 == 0b001#3

/-- `DL(b)` (R89). -/
def dlBit (b : Byte) : Bit := b.getLsbD 4

/-- `LongSet` (R91). -/
def inLongSet (b : Byte) : Bool := b == 0x01#8 || b == 0x02#8 || b == 0x03#8

/-- `T_SETTLE(k, b)` (R136). -/
def tSettle (c : Cfg) (k : Kind) (b : Byte) : Nat :=
  if k = .instruction ∧ inLongSet b = true then c.tSettleLong else c.tSettleCmd

/-- `T_BLIND(k)` (R164). -/
def tBlind (c : Cfg) : Attempt → Nat
  | .first => c.tBlind1
  | .second => c.tBlind2
  | .third => c.tBlind3

/-- The low time after a falling edge (R248). -/
def tLow (c : Cfg) (tag : FallTag) : Nat := if tag = .read then c.tPollLow else c.tEnLow

/-- `gap(tag)` (R243): the summary of the checks between a falling and the next rising edge. -/
def gap (c : Cfg) : FallTag → Nat
  | .blind k => max c.tEnLow (tBlind c k)
  | .modeSel => max c.tEnLow c.tMode
  | .innerNibble => c.tEnLow
  | .final _ _ => c.tEnLow
  | .read => c.tPollLow

/-- The checks of R212 on a configuration; those of the enumerated fields cannot fail. -/
def configOk (c : Cfg) : Bool :=
  (c.rows == 1 || c.rows == 2)
  && c.pollBound != some 0
  && (c.pins.length == (signals c.width).length && (signals c.width).all fun x => (c.pins.map (·.1)).contains x)
  && (c.pins.map (·.2)).Nodup

end Sys2Proof.Machine
end

