-- ==== Sys2Proof/Machine/Flags.lean ====
section
/-! DEFINITION. The flags: the busy flag of a poll iteration (30_encoding.md R88), the tests on the phase (10_state.md R27, R28), and the
guards of the public operations built of them (41_instruction_codec.md R137 to R139; R160; R190, R191). -/

namespace Sys2Proof.Machine

/-- The level of DB7 in a sample: bit 7 of a byte, bit 3 of a nibble (R64, R88). -/
def db7 : Pattern → Bit
  | .byte b => b.getLsbD 7
  | .nibble n => n.getLsbD 3

/-- `BF` of one poll iteration's samples (R88), none where the samples are not those of an iteration. -/
def busyFlag : List Pattern → Width → Option Bit
  | [.byte p], .eightBit => some (db7 (.byte p))
  | [.nibble h, .nibble _], .fourBit => some (db7 (.nibble h))
  | _, _ => none

/-- `phase ∈ {Failed(_), Aborted}` (R28). -/
def Phase.dead : Phase → Bool
  | .failed _ => true
  | .aborted => true
  | _ => false

/-- `PollUsable(phase)` (R28). -/
def Phase.pollUsable : Phase → Bool
  | .poweringUp => false
  | .blindInit _ => false
  | .modeSelecting => false
  | _ => true

/-- The phase a step of InitSequencer leads to (R175); the phases that no step leaves are their own. -/
def Phase.next : Phase → Phase
  | .poweringUp => .blindInit .first
  | .blindInit .first => .blindInit .second
  | .blindInit .second => .blindInit .third
  | .blindInit .third => .modeSelecting
  | .modeSelecting => .functionSetting
  | .functionSetting => .displayConfiguring
  | .displayConfiguring => .clearing
  | .clearing => .entryModeSetting
  | .entryModeSetting => .ready
  | .ready => .ready
  | .failed o => .failed o
  | .aborted => .aborted

/-- `pc <- p` for the two phases that end an instance: no rule moves the phase out of them (R28). -/
def Phase.endIn (p q : Phase) : Phase := if p.dead then p else q

/-- `PollUsable` and liveness as `waitUntilReady` checks them (R190, R191). -/
def pollFault (s : St) : Option ModelFault :=
  if s.phase.dead then some .instanceDead
  else if ¬ s.phase.pollUsable then some .pollBeforeModeSelect
  else none

/-- The guards of `initialize` (R160). -/
def initialiseFault (s : St) : Option ModelFault :=
  if s.phase.dead then some .instanceDead
  else if s.phase ≠ .poweringUp then some .initializeTwice
  else none

/-- The guards of `sendData` (R138). `halfByte` is not among them: notes/assumptions/31.md. -/
def sendDataFault (s : St) : Option ModelFault :=
  if s.phase.dead then some .instanceDead
  else if s.phase ≠ .ready then some .notReady
  else none

/-- The width guard (R139). -/
def widthChange (c : Cfg) (b : Byte) : Bool := isFunctionSet b && dlBit b != (c.width == .eightBit)

/-- The guards of `sendInstruction` (R137). `halfByte` is not among them: notes/assumptions/31.md. -/
def sendInstructionFault (c : Cfg) (b : Byte) (s : St) : Option ModelFault :=
  if s.phase.dead then some .instanceDead
  else if s.phase ≠ .ready then some .notReady
  else if widthChange c b then some .widthChangeRefused
  else none

end Sys2Proof.Machine
end

