-- ==== Sys2Proof/Machine/Monitor.lean ====
section
/-! DEFINITION. The timing monitor (70_reset_and_hazards.md R243 to R254): what each hook finds wrong, in the order of R243, and what it
writes. -/

namespace Sys2Proof.Machine

/-- `kind` of a rising edge: `rw` at the edge (R243). -/
def St.cycleKind (s : St) : CycleKind := if s.rw = some true then .read else .write

/-- R245: the attempt whose gap is not over. -/
def blindShort (c : Cfg) (s : St) : Option Attempt :=
  match s.mon.lastFall with
  | some (tf, .blind k) => if s.now - tf < tBlind c k then some k else none
  | _ => none

/-- R246 -/
def modeShort (c : Cfg) (s : St) : Bool :=
  match s.mon.lastFall with
  | some (tf, .modeSel) => decide (s.now - tf < c.tMode)
  | _ => false

/-- R248 -/
def lowShort (c : Cfg) (s : St) : Bool :=
  match s.mon.lastFall with
  | some (tf, tag) => decide (s.now - tf < tLow c tag)
  | none => false

/-- R251, R252: what a write rising edge finds of the settle obligation. -/
def settleFault (s : St) : Option ModelFault :=
  match s.mon.settle with
  | .untilTime t => if s.now < t then some (.timingViolation .settleTime) else none
  | .untilBusyClear => some (.timingViolation .settleBusy)
  | .noSettle => none

/-- `Monitor.onRise()`: its checks (R243). -/
def riseFault (c : Cfg) (s : St) : Option ModelFault :=
  if ¬ s.mon.anyRise ∧ s.now < c.tPower then some (.timingViolation .power)
  else match blindShort c s with
    | some k => some (.timingViolation (.blind k))
    | none =>
      if modeShort c s then some (.timingViolation .mode)
      else if lowShort c s then some (.timingViolation .low)
      else if s.now - s.mon.lastChange < c.tSetup then some (.timingViolation .setup)
      else if s.cycleKind = .write then settleFault s
      else none

/-- The obligation after a rising edge: a write edge resets it (R243, R251). -/
def St.settleAfterRise (s : St) : SettleReq := if s.cycleKind = .write then .noSettle else s.mon.settle

/-- `Monitor.onWriteFall()`: its check (R247). Where no rise is recorded there is no time to measure: notes/assumptions/13.md. -/
def writeFallFault (c : Cfg) (s : St) : Option ModelFault :=
  match s.mon.riseAt with
  | some tr => if s.now - tr < c.tPwEn then some (.timingViolation .pw) else none
  | none => none

/-- The obligation after a write falling edge (R253). -/
def St.settleAfterFall (c : Cfg) (s : St) : SettleReq :=
  match s.mon.curTag with
  | .final k b => if c.strategy = .fixedDelay then .untilTime (s.now + tSettle c k b) else .untilBusyClear
  | _ => s.mon.settle

/-- `Monitor.onSample()` (R249). -/
def sampleTimeFault (c : Cfg) (s : St) : Option ModelFault :=
  match s.mon.riseAt with
  | some tr => if s.now - tr < c.tPollHigh then some (.timingViolation .pollHigh) else none
  | none => none

/-- `Monitor.onBusyClear()` (R254). -/
def St.busyClear (s : St) : St := { s with mon := { s.mon with settle := .noSettle } }

end Sys2Proof.Machine
end

