-- ==== Sys2Proof/Machine/Ops.lean ====
section
/-! DEFINITION. The shared operations on the state: the draws and the passing of time (00_scope.md R9, R10), what `raise` does (60_exceptions.md
R218), the abort path and its start (R215), the end of an operation (R211, R213), and the ways an operation begins. -/

namespace Sys2Proof.Machine

/-- A step's result. -/
abbrev Res := Host.Outcome State Fault Refusal

/-! ### Draws -/

/-- The next draw of time: a given one, else a free value (R10; notes/assumptions/8.md). -/
def State.nextDelay (s : State) : Nat :=
  match s.delays with
  | x :: _ => x
  | [] => Config.freeDelay s.draws

/-- The device's next answer as levels of DB7..DB0 (R116): a given one, else a free value. -/
def State.nextAnswer (s : State) : Byte :=
  match s.answers with
  | x :: _ => x
  | [] => Config.freeAnswer s.draws

/-- The next draw of the data latch (R114), as levels of DB7..DB0: a given one, else a free value. -/
def State.nextLatch (s : State) : Byte :=
  match s.latches with
  | x :: _ => x
  | [] => Config.freeLatch s.draws

def State.answerUsed (s : State) : State := { s with answers := s.answers.tail, draws := s.draws + 1 }

def State.latchUsed (s : State) : State := { s with latches := s.latches.tail, draws := s.draws + 1 }

/-! ### Micro-steps -/

/-- Replace the instance's `St`. -/
def State.put (s : State) (m : Instance) (st : St) : State := { s with inst := some { m with st := st } }

/-- The end of a micro-step that leaves `st`: time advances by `d` and a draw (R10, R117). The body of a micro-step reads `now` before the
advance: notes/assumptions/7.md. -/
def State.commit (s : State) (m : Instance) (st : St) (d : Nat) : State :=
  { s with
    inst := some { m with st := { st with now := st.now + (d + s.nextDelay) } }
    delays := s.delays.tail
    draws := s.draws + 1 }

/-- `raise F` (R218): the fault is recorded, the driver has nothing left to do, nothing is returned, and every other field of `St` is as it
was. -/
def State.raise (s : State) (m : Instance) (f : ModelFault) : State :=
  { s with
    inst := some { m with st := { m.st with faults := m.st.faults ++ [f] } }
    cont := []
    ret := .nothing }

/-- One micro-step: its faults are checked before it changes anything (R220); else it has its effect and time advances. -/
def State.micro (s : State) (m : Instance) (fault : Option ModelFault) (effect : St) : Res :=
  match fault with
  | some f => .next (s.raise m f)
  | none => .next (s.commit m effect 0)

/-- A composite expands in place (R94). -/
def State.push (s : State) (steps : List Act) : State := { s with cont := steps ++ s.cont }

/-- A composite with guards: a fault, or its expansion. -/
def State.expand (s : State) (m : Instance) (fault : Option ModelFault) (steps : List Act) : Res :=
  match fault with
  | some f => .next (s.raise m f)
  | none => .next (s.push steps)

/-! ### How an operation begins -/

/-- An operation whose guards are checked before any micro-step and which then is the sequence `steps` (R94, R220). -/
def State.enter (s : State) (caller : Caller) (fault : Instance → Option ModelFault) (steps : Instance → List Act) : Res :=
  match s.inst with
  | none => .refused .noInstance
  | some m =>
    if s.cont ≠ [] then .refused .reentrantCall
    else if m.st.faults ≠ [] then .fault .driverStopped
    else match fault m with
      | some f => .next (s.raise m f)
      | none => .next { s with cont := steps m, caller := caller, ret := .nothing }

/-- An operation that is one micro-step: `body` on the instance, when the driver is free. -/
def State.once (s : State) (body : Instance → State → Res) : Res :=
  match s.inst with
  | none => .refused .noInstance
  | some m =>
    if s.cont ≠ [] then .refused .reentrantCall
    else if m.st.faults ≠ [] then .fault .driverStopped
    else body m { s with ret := .nothing }

/-- An operand pattern of another width than the instance's is refused (R92). -/
def State.fitting (s : State) (ps : List Pattern) (go : Res) : Res :=
  match s.inst with
  | none => .refused .noInstance
  | some m => if ps.all (fun p => p.width == m.cfg.width) then go else .refused .wrongWidth

/-! ### How an operation ends -/

/-- The end of an operation with an outcome. A public operation records it and emits its event, which is a micro-step (R9, R211), and a
`BusyFlagTimeout` enters Failed (R213); an internal one only returns it (R211). -/
def State.finish (s : State) (m : Instance) (o : OpOutcome) : State :=
  match s.caller with
  | .publicOp =>
    State.commit { s with ret := .outcome o } m
      { m.st with
        phase := if o = .busyFlagTimeout then m.st.phase.endIn (.failed o) else m.st.phase
        result := some o
        trace := m.st.trace ++ [.outcome o m.st.now] } 0
  | .internalOp => { s with ret := .outcome o }
  | .abortPath => { s with ret := .outcome o }

/-! ### The abort path (R215) -/

/-- The event of a write pulse that ends now: the levels held during it (R35). It needs both latches written: notes/assumptions/13.md. -/
def St.pulseEvent (s : St) : List Event :=
  match s.rs, s.data with
  | some r, some p => [.wFrame r p s.now]
  | _, _ => []

/-- `halfByte` after a write pulse with the current tag (R112, R215): set by an upper nibble, cleared by a final frame, under either width:
notes/assumptions/15.md. -/
def St.halfAfterPulse (s : St) : Bool :=
  match s.mon.curTag with
  | .innerNibble => true
  | .final _ _ => false
  | _ => s.halfByte

/-- Line 1: Enable low. A write pulse cut short still emits its frame; `onWriteFall` is not called. -/
def St.abortEnable (s : St) : St :=
  if s.e = some true then
    if s.mon.riseKind = some .write then
      { s with
        e := some false
        halfByte := s.halfAfterPulse
        trace := s.trace ++ s.pulseEvent
        mon := { s.mon with lastFall := some (s.now, s.mon.curTag), riseAt := none, riseKind := none } }
    else
      { s with
        e := some false
        mon := { s.mon with lastFall := some (s.now, .read), riseAt := none, riseKind := none } }
  else s

/-- Line 2: the device stops driving. -/
def St.abortReadWrite (s : St) : St := if s.rw = some true then { s with rw := some false } else s

/-- Line 3: the host drives again; the latch is the draw `x`. -/
def St.abortDirection (s : St) (x : Pattern) : St :=
  if s.dir = some .inputWithPullup then
    { s with data := some x, dir := some .output, trace := s.trace ++ [.dirChange .output s.now] }
  else s

/-- The end: `pc <- Aborted`, the result and its event; a pending settle obligation is dropped. -/
def St.abortFinish (s : St) : St :=
  { s with
    phase := s.phase.endIn .aborted
    result := some .aborted
    trace := s.trace ++ [.outcome .aborted s.now]
    mon := { s.mon with settle := .noSettle } }

/-- The abort path as driver actions. -/
def abortSteps : List Act := [.abortEnable, .abortReadWrite, .abortDirection, .abortFinish]

/-- The host's abort (R215): none on a dead instance or while the path already runs; else the path takes the place of whatever the driver was
doing, of an operation in progress or of nothing (R214). -/
def State.abort (s : State) : Res :=
  match s.inst with
  | none => .refused .noInstance
  | some m =>
    if m.st.phase.dead then .next s
    else if m.st.faults ≠ [] then .fault .driverStopped
    else if s.caller = .abortPath ∧ s.cont ≠ [] then .next s
    else .next { s with cont := abortSteps, caller := .abortPath, ret := .nothing }

end Sys2Proof.Machine
end

