-- ==== Sys2Proof/Machine/Transport.lean ====
section
/-! DEFINITION. BusTransport (40_bus_transport.md): for each micro-step, the fault it finds and the effect it has; and the operations 0x01 to
0x07. -/

namespace Sys2Proof.Machine

/-! ### setControlLine (R112) -/

/-- `Line(s)` (R9) -/
def St.line (s : St) : CtrlLine → Option Bit
  | .e => s.e
  | .rs => s.rs
  | .rw => s.rw

def lineName : CtrlLine → LineName
  | .e => .e
  | .rs => .rs
  | .rw => .rw

/-- What a write falling edge finds wrong: a latch that the frame's event reads is unwritten (R22; notes/assumptions/12.md), or the pulse is
too short (R247). -/
def fallFault (c : Cfg) (s : St) : Option ModelFault :=
  if s.mon.riseKind = some .write then
    if s.rs = none then some (.unconfiguredLine .rs)
    else if s.data = none then some (.unconfiguredLine .db)
    else writeFallFault c s
  else none

/-- The unwritten line that `setControlLine(l, v)` reads (R22; 92_eei_decisions.md D17: any use is F6): its own; at a rising edge RW, which
gives the cycle's kind, and in a write cycle the direction; on RW high the direction. Which lines count as read: notes/assumptions/12.md. -/
def unwrittenLine (l : CtrlLine) (v : Bit) (s : St) : Option LineName :=
  if s.line l = none then some (lineName l)
  else if v = false then none
  else match l with
    | .e =>
      if s.e = some true then none
      else if s.rw = none then some .rw
      else if s.rw = some false ∧ s.dir = none then some .db
      else none
    | .rs => none
    | .rw => if s.dir = none then some .db else none

/-- The checks of `setControlLine(l, v)`, in the order of R112. -/
def lineFault (c : Cfg) (l : CtrlLine) (v : Bit) (s : St) : Option ModelFault :=
  match unwrittenLine l v s with
  | some n => some (.unconfiguredLine n)
  | none =>
    if l ≠ .e ∧ s.e = some true then some .lineChangeWhileEnableHigh
    else if l = .rs ∧ s.halfByte = true ∧ s.rs ≠ some v then some .registerSelectMidByte
    else if l = .rw ∧ v = true ∧ s.dir = some .output then some .busContention
    else if l = .e ∧ s.e = some false ∧ v = true then
      if s.rw = some false ∧ s.dir = some .inputWithPullup then some .writeWhileInput else riseFault c s
    else if l = .e ∧ s.e = some true ∧ v = false then fallFault c s
    else none

/-- The rising edge of Enable. -/
def St.rise (s : St) : St :=
  { s with
    e := some true
    mon := { s.mon with riseAt := some s.now, riseKind := some s.cycleKind, anyRise := true, settle := s.settleAfterRise } }

/-- The falling edge of Enable: of a write cycle (the frame's event, `halfByte`, the settle obligation) or of a read cycle. -/
def St.fall (c : Cfg) (s : St) : St :=
  if s.mon.riseKind = some .write then
    { s with
      e := some false
      halfByte := s.halfAfterPulse
      trace := s.trace ++ s.pulseEvent
      mon := { s.mon with
        lastFall := some (s.now, s.mon.curTag), riseAt := none, riseKind := none, settle := s.settleAfterFall c } }
  else
    { s with
      e := some false
      mon := { s.mon with lastFall := some (s.now, .read), riseAt := none, riseKind := none } }

/-- The effect of `setControlLine(l, v)`. -/
def lineEffect (c : Cfg) (l : CtrlLine) (v : Bit) (s : St) : St :=
  match l with
  | .e =>
    if s.e = some false ∧ v = true then s.rise
    else if s.e = some true ∧ v = false then s.fall c
    else { s with e := some v }
  | .rs => { s with rs := some v, mon := { s.mon with lastChange := s.now } }
  | .rw => { s with rw := some v, mon := { s.mon with lastChange := s.now } }

/-! ### setDataLines (R113) -/

def dataFault (s : St) : Option ModelFault :=
  if s.dir = none then some (.unconfiguredLine .db)
  else if s.e = some true then some .lineChangeWhileEnableHigh
  else if s.dir = some .inputWithPullup then some .writeWhileInput
  else none

def dataEffect (p : Pattern) (s : St) : St := { s with data := some p, mon := { s.mon with lastChange := s.now } }

/-! ### setDataDirection (R114) -/

def directionFault (d : Dir) (s : St) : Option ModelFault :=
  if s.dir = none then some (.unconfiguredLine .db)
  else if s.e = some true then some .lineChangeWhileEnableHigh
  else if d = .output ∧ s.rw = some true then some .busContention
  else none

/-- The effect; `x` is the draw the latch takes on a change to Output. -/
def directionEffect (d : Dir) (x : Pattern) (s : St) : St :=
  if s.dir = some d then s
  else
    { s with
      data := if d = .output then some x else s.data
      dir := some d
      trace := s.trace ++ [.dirChange d s.now] }

/-- `setDataDirection` as a micro-step: the latch's draw is used on a change to Output only. -/
def State.direct (s : State) (m : Instance) (d : Dir) : Res :=
  (if directionFault d m.st = none ∧ d = .output ∧ m.st.dir ≠ some d then s.latchUsed else s).micro m
    (directionFault d m.st) (directionEffect d (wiredPart m.cfg.width s.nextLatch) m.st)

/-! ### pulseEnable (R115) -/

/-- The guards of `pulseEnable`. Which unwritten line F6 names is the first of R115's order: notes/assumptions/12.md. -/
def pulseFault (s : St) : Option ModelFault :=
  if s.e = none then some (.unconfiguredLine .e)
  else if s.rw = none then some (.unconfiguredLine .rw)
  else if s.dir = none then some (.unconfiguredLine .db)
  else if s.e = some true then some .enableNotLowAtFrameStart
  else if s.rw = some true then some .pulseInReadMode
  else none

/-- `pulseEnable(t, tag)` after its guards: the ghost tag, then three micro-steps. -/
def pulseSteps (t : Nat) (tag : FallTag) : List Act := [.tag tag, .line .e true, .delay t, .line .e false]

/-! ### sample (R116) -/

/-- The checks of `sample`. The event reads `rs` too (R22; notes/assumptions/12.md). A read cycle with RS = 1 has no fault in R116's list: DEDUCED,
notes/assumptions/32.md. -/
def sampleFault (c : Cfg) (s : St) : Option ModelFault :=
  if s.dir = none then some (.unconfiguredLine .db)
  else if s.rw = none then some (.unconfiguredLine .rw)
  else if s.e = none then some (.unconfiguredLine .e)
  else if s.rs = none then some (.unconfiguredLine .rs)
  else if ¬ (s.dir = some .inputWithPullup ∧ s.rw = some true ∧ s.e = some true) then some .sampleOutsideReadCycle
  else sampleTimeFault c s

/-- The event of a read cycle, with the RS held, also where it is 1 (R116; notes/assumptions/32.md). -/
def sampleEffect (p : Pattern) (s : St) : St :=
  { s with trace := s.trace ++ (match s.rs with | some r => [.rCycle r p s.now] | none => []) }

/-- `sample` as a micro-step: the value is the bus word's or the device's answer (R116, R228). It is what the operation returns, and with
`keep` its DB7 is the driver's `bf` (R193, R194). -/
def State.sampled (s : State) (m : Instance) (device : Option Pattern) (keep : Bool) : Res :=
  match sampleFault m.cfg m.st with
  | some f => .next (s.raise m f)
  | none =>
    match device with
    | some p =>
      .next (State.commit { s with ret := .pattern p, bf := if keep then db7 p else s.bf } m (sampleEffect p m.st) 0)
    | none =>
      let p := wiredPart m.cfg.width s.nextAnswer
      .next (State.commit { s.answerUsed with ret := .pattern p, bf := if keep then db7 p else s.bf } m (sampleEffect p m.st) 0)

/-! ### configureLines (R111) -/

/-- A line written while Enable is high is F9 (R119), also in `configureLines`. It is the only fault R111 gives: driving RS to 0 in the middle of
a byte is none, as R217 gives F10 to `setControlLine` alone (notes/assumptions/14.md). -/
def highFault (s : St) : Option ModelFault := if s.e = some true then some .lineChangeWhileEnableHigh else none

/-- The last micro-step would make the lines outputs: F9 (R119) and F12 (R118) guard it as every micro-step. In the sequence of R111 neither
can arise: notes/assumptions/14.md. -/
def configDataFault (s : St) : Option ModelFault :=
  if s.e = some true then some .lineChangeWhileEnableHigh
  else if s.rw = some true then some .busContention
  else none

def configDataEffect (w : Width) (s : St) : St :=
  { s with dir := some .output, data := some (zeroPattern w), mon := { s.mon with lastChange := s.now } }

def configureSteps : List Act := [.configE, .configRS, .configRW, .configData]

/-! ### The operations -/

/-- 0x01 (R111) -/
def execConfigureLines (s : State) : Res := s.enter .internalOp (fun m => highFault m.st) (fun _ => configureSteps)

/-- 0x02 (R112) -/
def execSetControlLine (l : CtrlLine) (v : Bit) (s : State) : Res :=
  s.once fun m t => t.micro m (lineFault m.cfg l v m.st) (lineEffect m.cfg l v m.st)

/-- 0x03 (R113) -/
def execSetDataLines (p : Pattern) (s : State) : Res :=
  s.fitting [p] (s.once fun m t => t.micro m (dataFault m.st) (dataEffect p m.st))

/-- 0x04 (R114) -/
def execSetDataDirection (d : Dir) (s : State) : Res := s.once fun m t => t.direct m d

/-- 0x05 (R115) -/
def execPulseEnable (t : Nat) (tag : FallTag) (s : State) : Res :=
  s.enter .internalOp (fun m => pulseFault m.st) (fun _ => pulseSteps t tag)

/-- 0x06 (R116) -/
def execSample (s : State) : Res := s.once fun m t => t.sampled m none false

/-- 0x07 (R117) -/
def execWait (d : Nat) (s : State) : Res := s.once fun m t => .next (t.commit m m.st d)

end Sys2Proof.Machine
end

