-- ==== Sys2Proof/Machine/Codec.lean ====
section
/-! DEFINITION. InstructionCodec and transfers (41_instruction_codec.md): the expansions of R94 and the operations 0x08 to 0x0F. -/

namespace Sys2Proof.Machine

/-! ### Expansions (R94) -/

/-- `writeFrame(p, tag)` (R134) -/
def frameSteps (c : Cfg) (p : Pattern) (tag : FallTag) : List Act :=
  [.data p, .delay c.tSetup, .pulse c.tPwEn tag, .delay c.tEnLow]

/-- The frames of a transfer (R135): one, or the upper nibble and then the lower. -/
def transferFrames (w : Width) (k : Kind) (b : Byte) : List Act :=
  match w with
  | .eightBit => [.frame (.byte b) (.final k b)]
  | .fourBit => [.frame (.nibble (upperNibble b)) .innerNibble, .frame (.nibble (lowerNibble b)) (.final k b)]

/-- `transfer(k, b)` (R135) -/
def transferSteps (c : Cfg) (k : Kind) (b : Byte) : List Act :=
  [.line .rs (kindLevel k), .line .rw false] ++ transferFrames c.width k b ++ [.settle k b]

/-- `settle(k, b)` (R136) -/
def settleSteps (c : Cfg) (k : Kind) (b : Byte) : List Act :=
  match c.strategy with
  | .fixedDelay => [.delay (tSettle c k b)]
  | .busyPoll => [.poll]

/-- The register a device write goes to names the transfer's kind: `MemWrite(IR, 1, v)` and `MemWrite(DR, 1, v)` (R62); the other cells
are not written. -/
def memWrite (cell : DeviceCell) (v : Byte) : Option Act :=
  match cell with
  | .ir => some (.transfer .instruction v)
  | .dr => some (.transfer .data v)
  | .busyFlag => none
  | .notUsed => none

/-! ### The operations -/

/-- 0x08 (R130): a pure function of the byte and the width; it needs an instance, and no free driver (notes/assumptions/23.md). -/
def execEncode (b : Byte) (s : State) : Res :=
  match s.inst with
  | none => .refused .noInstance
  | some m => .next { s with ret := .frames (pack b m.cfg.width) }

/-- 0x09 (R131): refused outside its domain. -/
def execDecode (fs : List Pattern) (s : State) : Res :=
  match s.inst with
  | none => .refused .noInstance
  | some m =>
    if fs.all (fun p => p.width == m.cfg.width) then
      match unpack fs m.cfg.width with
      | some b => .next { s with ret := .byte b }
      | none => .refused .decodeDomain
    else .refused .wrongWidth

/-- 0x0A (R133) -/
def execSelectRegister (k : Kind) (s : State) : Res :=
  s.once fun m t => t.micro m (lineFault m.cfg .rs (kindLevel k) m.st) (lineEffect m.cfg .rs (kindLevel k) m.st)

/-- 0x0B (R134) -/
def execWriteFrame (p : Pattern) (tag : FallTag) (s : State) : Res :=
  s.fitting [p] (s.enter .internalOp (fun _ => none) (fun m => frameSteps m.cfg p tag))

/-- 0x0C (R135): its outcome goes to its caller (R211). It has no guard of its own: called by itself on a dead instance it runs (DESIGN CHOICE,
notes/assumptions/30.md), and while `halfByte` is true it starts (DESIGN CHOICE, notes/assumptions/31.md). -/
def execTransfer (k : Kind) (b : Byte) (s : State) : Res :=
  s.enter .internalOp (fun _ => none) (fun m => transferSteps m.cfg k b ++ [.finish .ok])

/-- 0x0D (R136): its outcome goes to its caller (R211). -/
def execSettle (k : Kind) (b : Byte) (s : State) : Res :=
  s.enter .internalOp (fun _ => none) (fun m => settleSteps m.cfg k b ++ [.finish .ok])

/-- What `sendInstruction(b)` does after its guards (R137). -/
def sendSteps (k : Kind) (b : Byte) : List Act := [.transfer k b, .finish .ok]

/-- 0x0E (R137, R139). That it also starts while `halfByte` is true: DESIGN CHOICE, notes/assumptions/31.md. -/
def execSendInstruction (b : Byte) (s : State) : Res :=
  s.enter .publicOp (fun m => sendInstructionFault m.cfg b m.st) (fun _ => sendSteps .instruction b)

/-- 0x0F (R138). That it also starts while `halfByte` is true: DESIGN CHOICE, notes/assumptions/31.md. -/
def execSendData (b : Byte) (s : State) : Res :=
  s.enter .publicOp (fun m => sendDataFault m.st) (fun _ => sendSteps .data b)

end Sys2Proof.Machine
end

