-- ==== Sys2Proof/Machine/Poller.lean ====
section
/-! DEFINITION. BusyFlagPoller (43_busy_flag_poller.md): the entry, one iteration, the loop test and the exit; the operations 0x10 and
0x11. -/

namespace Sys2Proof.Machine

/-- One read cycle (R193): E high, the hold, the sample, E low, the hold. -/
def readCycle (c : Cfg) (device : Option Pattern) (keep : Bool) : List Act :=
  [.line .e true, .delay c.tPollHigh, .read device keep, .line .e false, .delay c.tPollLow]

/-- `pollIteration` (R193, R194): one read cycle, or two of which the first holds the flag. -/
def iterationSteps (c : Cfg) : List Act :=
  match c.width with
  | .eightBit => readCycle c none true
  | .fourBit => readCycle c none true ++ readCycle c none false

/-- `enterRead` (R192) -/
def enterReadSteps (c : Cfg) : List Act :=
  [.direction .inputWithPullup, .line .rs false, .line .rw true, .delay c.tSetup]

/-- `exitRead` (R197) -/
def exitReadSteps : List Act := [.line .rw false, .direction .output]

/-- `waitUntilReady` after its guards (R190): the entry, the counter, the first turn of the loop. -/
def pollSteps (c : Cfg) : List Act := enterReadSteps c ++ [.pollReset, .pollIteration, .pollTest]

/-- `POLL_BOUND = some n ∧ pollIter ≥ n` (R196) -/
def boundReached (c : Cfg) (iterations : Nat) : Bool :=
  match c.pollBound with
  | some n => decide (n ≤ iterations)
  | none => false

/-- The rest of the loop's body after an iteration (R190): `lastBF` is written; on BF = 0 the obligation is discharged (R254) and the exit
runs, then whatever follows the poll; on BF = 1 the counter grows and either the bound ends the poll, whose caller gets `BusyFlagTimeout` in
place of what would follow (R196, R213), or the next iteration starts. -/
def State.pollTest (s : State) (m : Instance) : State :=
  if s.bf = false then
    { (s.put m (St.busyClear { m.st with lastBF := some false })) with cont := exitReadSteps ++ s.cont }
  else
    { (s.put m { m.st with lastBF := some true, pollIter := m.st.pollIter + 1 }) with
      cont :=
        if boundReached m.cfg (m.st.pollIter + 1) then exitReadSteps ++ [.finish .busyFlagTimeout]
        else [.pollIteration, .pollTest] ++ s.cont }

/-- The end of an iteration called by itself: it returns the busy flag, and BF = 0 discharges the obligation (R254: "When a poll iteration reads
BF = 0"). `lastBF` stays: DESIGN CHOICE, notes/assumptions/29.md. -/
def State.giveFlag (s : State) (m : Instance) : State :=
  { (if s.bf = false then s.put m m.st.busyClear else s) with ret := .bit s.bf }

/-- `MemRead(BFAC, 1)` is one poll iteration (R63); no other cell is read. -/
def memRead (cell : DeviceCell) : Option Act :=
  match cell with
  | .busyFlag => some .pollIteration
  | .ir => none
  | .dr => none
  | .notUsed => none

/-- 0x10 (R190): called by the host it is a public operation (R211). -/
def execWaitUntilReady (s : State) : Res :=
  s.enter .publicOp (fun m => pollFault m.st) (fun m => pollSteps m.cfg ++ [.finish .ok])

/-- 0x11 (R193, R194): it returns the busy flag, and on BF = 0 discharges the settle obligation (R254). With RS = 1 it samples as with RS = 0:
DEDUCED, notes/assumptions/32.md. -/
def execPollIteration (s : State) : Res :=
  s.enter .internalOp (fun _ => none) (fun m => iterationSteps m.cfg ++ [.giveFlag])

end Sys2Proof.Machine
end

