-- ==== Sys2Proof/Machine/Init.lean ====
section
/-! DEFINITION. InitSequencer (42_init_sequencer.md): its steps and the operation 0x12; construction (70_reset_and_hazards.md R240) and the host's
abort (60_exceptions.md R215) as the operations 0x00 and 0x13. -/

namespace Sys2Proof.Machine

/-- `INIT_8BIT` (R89) -/
def init8BitByte : Byte := 0x30#8

/-- `MODE_4BIT` (R89) -/
def mode4BitByte : Byte := 0x20#8

/-- `CLEAR` (R89) -/
def clearByte : Byte := 0x01#8

/-- Step 1 (R162) -/
def powerSteps (c : Cfg) : List Act := [.delay c.tPower, .advance]

/-- Step 2 (R163): blind attempt k. -/
def blindSteps (c : Cfg) (k : Attempt) : List Act :=
  [.line .rs (kindLevel .instruction), .line .rw false, .frame (initPattern c.width init8BitByte) (.blind k), .delay (tBlind c k),
    .advance]

/-- Step 3 (R166, R167): the mode-select nibble under FourBit, nothing under EightBit. -/
def modeSteps (c : Cfg) : List Act :=
  match c.width with
  | .fourBit => [.frame (.nibble (upperNibble mode4BitByte)) .modeSel, .delay c.tMode, .advance]
  | .eightBit => [.advance]

/-- Steps 4 and 5 (R168 to R172): a settled instruction transfer, then the next phase. -/
def configSteps (b : Byte) : List Act := [.transfer .instruction b, .advance]

/-- `initialize` after its guards (R160). -/
def initialiseSteps (c : Cfg) : List Act :=
  configureSteps ++ powerSteps c
    ++ (blindSteps c .first ++ blindSteps c .second ++ blindSteps c .third)
    ++ modeSteps c
    ++ (configSteps (fsByte c) ++ configSteps c.displayOffByte ++ configSteps clearByte ++ configSteps c.entryModeByte)
    ++ [.finish .ok]

/-- 0x12 (R160) -/
def execInitialise (s : State) : Res :=
  s.enter .publicOp (fun m => initialiseFault m.st) (fun m => initialiseSteps m.cfg)

/-- 0x00 (R212, R240): a new instance, or `ConfigurationError` and no instance. The model holds one instance, which `construct` replaces:
notes/assumptions/5.md. -/
def execConstruct (cfg : Cfg) (s : State) : Res :=
  if s.cont ≠ [] then .refused .reentrantCall
  else if configOk cfg then .next { s with inst := some ⟨cfg, St.init⟩, ret := .outcome .ok }
  else .next { s with inst := none, ret := .outcome .configurationError }

/-- 0x13 (R215) -/
def execAbort (s : State) : Res := s.abort

end Sys2Proof.Machine
end

