-- ==== Sys2Proof/Machine/BusWords.lean ====
section
/-! DEFINITION. The bus-word classes (30_encoding.md R81 to R85, R92). As an instruction, a word is performed: one Enable pulse with the RS, RW
and data levels the word records (R81, R83). Which ghost tag a write word's pulse carries follows the position of R85.
DESIGN CHOICE: notes/assumptions/16.md, 17.md. -/

namespace Sys2Proof.Machine

/-- How many write frames the trace holds. -/
def writeCount (t : List Event) : Nat :=
  t.countP fun ev => match ev with | .wFrame _ _ _ => true | _ => false

/-- The nibble of the last write frame of the trace. -/
def lastNibble (t : List Event) : Option Nibble :=
  t.foldl (fun acc ev => match ev with | .wFrame _ (.nibble n) _ => some n | _ => acc) none

/-- The tag of an init frame by its position in the trace (R85, R163, R166): the first three write frames are the blind attempts, and under
FourBit the fourth is the mode select. -/
def initTag (w : Width) (position : Nat) : Option FallTag :=
  match position, w with
  | 0, _ => some (.blind .first)
  | 1, _ => some (.blind .second)
  | 2, _ => some (.blind .third)
  | 3, .fourBit => some .modeSel
  | _, _ => none

/-- The tag of a transfer's frame (R85, R135): under FourBit the frames pair up, upper nibble first. -/
def transferTag (s : St) (k : Kind) : Pattern → FallTag
  | .byte b => .final k b
  | .nibble n =>
    match s.halfByte, lastNibble s.trace with
    | true, some h => .final k (joinNibbles h n)
    | _, _ => .innerNibble

/-- The tag of a write word: an instruction word where an init frame stands is one; every other word belongs to a transfer. -/
def wordTag (m : Instance) (k : Kind) (p : Pattern) : FallTag :=
  match k, initTag m.cfg.width (writeCount m.st.trace) with
  | .instruction, some t => t
  | _, _ => transferTag m.st k p

/-- A write word: RS and RW at the word's levels, then the frame (R81, R82, R134). -/
def writeWordSteps (m : Instance) (k : Kind) (p : Pattern) : List Act :=
  [.line .rs (kindLevel k), .line .rw false, .frame p (wordTag m k p)]

/-- A read word: RS and RW at the word's levels, the setup, then the read cycle in which the device answers the word's data (R83, R192,
R193). A word that shows DB7 = 0 leaves `mon.settle` and `lastBF` as they were: DESIGN CHOICE, notes/assumptions/17.md. -/
def readWordSteps (c : Cfg) (p : Pattern) : List Act :=
  [.line .rs false, .line .rw true, .delay c.tSetup] ++ readCycle c (some p) false

/-- A write word as an operation. The spec gives it no guard (R67 allows no later transfer on an aborted instance): it is performed in every
phase, also on a dead instance. DESIGN CHOICE: notes/assumptions/16.md. -/
def State.writeWord (s : State) (k : Kind) (p : Pattern) : Res :=
  s.fitting [p] (s.enter .internalOp (fun _ => none) (fun m => writeWordSteps m k p))

/-- A read word as an operation, in every phase too. DESIGN CHOICE: notes/assumptions/17.md. -/
def State.readWord (s : State) (p : Pattern) : Res :=
  s.fitting [p] (s.enter .internalOp (fun _ => none) (fun m => readWordSteps m.cfg p))

def execIw8 (b : Byte) (s : State) : Res := s.writeWord .instruction (.byte b)
def execDw8 (b : Byte) (s : State) : Res := s.writeWord .data (.byte b)
def execBr8 (b : Byte) (s : State) : Res := s.readWord (.byte b)
def execIw4 (n : Nibble) (s : State) : Res := s.writeWord .instruction (.nibble n)
def execDw4 (n : Nibble) (s : State) : Res := s.writeWord .data (.nibble n)
def execBr4 (n : Nibble) (s : State) : Res := s.readWord (.nibble n)

/-- (RS, RW) = (1, 1): "This word is never produced" (R92); 93 S12 refuses it. -/
def execRsv8 (_ : Byte) (_ : State) : Res := .refused .reservedBusWord
def execRsv4 (_ : Nibble) (_ : State) : Res := .refused .reservedBusWord

/-! ### Reading a recorded trace (R81 to R85) -/

/-- The classes of a bus word (R84). -/
inductive WordClass where
  | iw
  | dw
  | br
  | reserved
  deriving DecidableEq, Repr

/-- The class of a word by its (RS, RW) bits, the top two (R84): total. -/
def classify (rs rw : Bit) : WordClass :=
  match rs, rw with
  | false, false => .iw
  | true, false => .dw
  | false, true => .br
  | true, true => .reserved

/-- A pattern with RS and RW as a bus word: WF8 and RC8 have RS in bit 9 and RW in bit 8, WF4 and RC4 in bits 5 and 4 (R81 to R83). -/
def busWord (rs rw : Bit) : Pattern → Nat
  | .byte b => (if rs then 0x200 else 0) + (if rw then 0x100 else 0) + b.toNat
  | .nibble n => (if rs then 0x20 else 0) + (if rw then 0x10 else 0) + n.toNat

/-- The bus word of a trace event, where it is one. -/
def Event.word : Event → Option Nat
  | .wFrame rs bits _ => some (busWord rs false bits)
  | .rCycle rs bits _ => some (busWord rs true bits)
  | .dirChange _ _ => none
  | .outcome _ _ => none

/-- The write frames of a trace, in order: RS and the pattern. -/
def writeFrames (t : List Event) : List (Bit × Pattern) :=
  t.filterMap fun ev => match ev with | .wFrame rs bits _ => some (rs, bits) | _ => none

/-- A FourBit trace after its init frames, as bytes: each pair is (upper, lower) of one byte (R85). A last unpaired nibble is given back, and
so is what is no nibble frame (R92). -/
def pairNibbles : List (Bit × Pattern) → List (Bit × Byte) × List (Bit × Pattern)
  | (r, .nibble h) :: (_, .nibble l) :: rest =>
    let (bytes, left) := pairNibbles rest
    ((r, joinNibbles h l) :: bytes, left)
  | rest => ([], rest)

/-- A FourBit trace as a decoder reads it (R85): the first four frames as single init frames, then pairs. -/
def readFourBitTrace (fs : List (Bit × Pattern)) : List (Bit × Pattern) × (List (Bit × Byte) × List (Bit × Pattern)) :=
  (fs.take 4, pairNibbles (fs.drop 4))

end Sys2Proof.Machine
end

