-- ==== Sys2Proof/Machine/Commands.lean ====
section
/-! DEFINITION. The command bytes the block distinguishes (30_encoding.md R89), as instructions: in the phase whose step of InitSequencer sends
the byte, that step (R163, R166, R169 to R172); in every other phase, `sendInstruction` of it with its guards (R137).
DESIGN CHOICE: notes/assumptions/18.md. -/

namespace Sys2Proof.Machine

/-- A command byte: the step `steps` where `here` holds, else `sendInstruction b`. -/
def State.command (s : State) (here : Instance → Bool) (steps : Instance → List Act) (b : Instance → Byte) : Res :=
  s.enter .publicOp
    (fun m => if here m then none else sendInstructionFault m.cfg (b m) m.st)
    (fun m => if here m then steps m else sendSteps .instruction (b m))

/-- The blind attempt a phase runs (R163). -/
def Phase.attempt : Phase → Option Attempt
  | .blindInit k => some k
  | _ => none

/-- 0x30: the blind attempt of the phase (R163). -/
def execInit8Bit (s : State) : Res :=
  s.command (fun m => m.st.phase.attempt.isSome)
    (fun m => match m.st.phase.attempt with | some k => blindSteps m.cfg k | none => [])
    (fun _ => init8BitByte)

/-- 0x20: the mode select under FourBit (R166). -/
def execMode4Bit (s : State) : Res :=
  s.command (fun m => m.st.phase == .modeSelecting && m.cfg.width == .fourBit) (fun m => modeSteps m.cfg) (fun _ => mode4BitByte)

/-- `001D NFxx`: the function set of the configuration (R169). -/
def execFunctionSet (dl n f : Bit) (x : BitVec 2) (s : State) : Res :=
  s.command (fun m => m.st.phase == .functionSetting && functionSetByte dl n f x == fsByte m.cfg)
    (fun m => configSteps (fsByte m.cfg)) (fun _ => functionSetByte dl n f x)

/-- 0x01: the clear step (R171). -/
def execClear (s : State) : Res :=
  s.command (fun m => m.st.phase == .clearing) (fun _ => configSteps clearByte) (fun _ => clearByte)

/-- `0000 001x`: no step of InitSequencer sends it (R89, R91). -/
def execReturnHome (x : Bit) (s : State) : Res :=
  s.command (fun _ => false) (fun _ => []) (fun _ => returnHomeByte x)

/-- `DISPLAY_OFF_BYTE`, the instance's parameter (R7, R170; notes/assumptions/19.md). -/
def execDisplayOffByte (s : State) : Res :=
  s.command (fun m => m.st.phase == .displayConfiguring) (fun m => configSteps m.cfg.displayOffByte) (fun m => m.cfg.displayOffByte)

/-- `ENTRY_MODE_BYTE`, the instance's parameter (R7, R172; notes/assumptions/19.md). -/
def execEntryModeByte (s : State) : Res :=
  s.command (fun m => m.st.phase == .entryModeSetting) (fun m => configSteps m.cfg.entryModeByte) (fun m => m.cfg.entryModeByte)

end Sys2Proof.Machine
end

