-- ==== Sys2Proof/Machine/Micro.lean ====
section
/-! DEFINITION. One action of the driver: the head of its continuation (00_scope.md R9; 10_state.md R28; 30_encoding.md R94). -/

namespace Sys2Proof.Machine

/-- One action; `s` has the rest of the continuation. -/
def act (a : Act) (m : Instance) (s : State) : Res :=
  match a with
  | .line l v => s.micro m (lineFault m.cfg l v m.st) (lineEffect m.cfg l v m.st)
  | .data p => s.micro m (dataFault m.st) (dataEffect p m.st)
  | .direction d => s.direct m d
  | .delay d => .next (s.commit m m.st d)
  | .read device keep => s.sampled m device keep
  | .configE => s.micro m (highFault m.st) { m.st with e := some false }
  | .configRS => s.micro m (highFault m.st) { m.st with rs := some false }
  | .configRW => s.micro m (highFault m.st) { m.st with rw := some false }
  | .configData => s.micro m (configDataFault m.st) (configDataEffect m.cfg.width m.st)
  | .tag t => .next (s.put m { m.st with mon := { m.st.mon with curTag := t } })
  | .pulse t tag => s.expand m (pulseFault m.st) (pulseSteps t tag)
  | .frame p tag => .next (s.push (frameSteps m.cfg p tag))
  | .transfer k b => .next (s.push (transferSteps m.cfg k b))
  | .settle k b => .next (s.push (settleSteps m.cfg k b))
  | .poll => s.expand m (pollFault m.st) (pollSteps m.cfg)
  | .pollReset => .next (s.put m { m.st with pollIter := 0 })
  | .pollIteration => .next (s.push (iterationSteps m.cfg))
  | .pollTest => .next (s.pollTest m)
  | .giveFlag => .next (s.giveFlag m)
  | .advance => .next (s.put m { m.st with phase := m.st.phase.next })
  | .finish o => .next (s.finish m o)
  | .abortEnable => .next (s.commit m m.st.abortEnable 0)
  | .abortReadWrite => .next (s.commit m m.st.abortReadWrite 0)
  | .abortDirection =>
    .next ((if m.st.dir = some .inputWithPullup then s.latchUsed else s).commit m
      (m.st.abortDirection (wiredPart m.cfg.width s.nextLatch)) 0)
  | .abortFinish => .next (State.commit { s with ret := .outcome .aborted } m m.st.abortFinish 0)

/-- The driver's next action: it needs an instance, and a driver that no model fault has stopped (R218). -/
def State.perform (s : State) (a : Act) : Res :=
  match s.inst with
  | none => .refused .noInstance
  | some m => if m.st.faults ≠ [] then .fault .driverStopped else act a m s

/-- The host comes one action nearer to its abort (R215; notes/assumptions/11.md). -/
def State.tick (s : State) : State := { s with abortIn := s.abortIn.map (· - 1) }

/-- Nothing to do: time passes (R233: the host may "wait any time between operations"); a stopped instance stays as it is (R218). -/
def State.idle (s : State) : State :=
  match s.inst with
  | none => s
  | some m => if m.st.faults = [] then s.commit m m.st 0 else s

end Sys2Proof.Machine
end

