-- ==== Sys2Proof/Machine/Fetch.lean ====
section
/-! DEFINITION. Where the next instruction comes from: the host's calls (00_scope.md R4; 20_memory.md R76). notes/assumptions/9.md. -/

namespace Sys2Proof.Machine

/-- The host's next call, as the decoder reads it, and the state in which it has been made. -/
def State.fetch (s : State) : Option (Except DecodeError Instr × State) :=
  match s.calls with
  | [] => none
  | c :: rest => some (decode c, { s with calls := rest })

/-- The driver's next action, and the state in which it is taken off the continuation (R28). -/
def State.nextAct (s : State) : Option (Act × State) :=
  match s.cont with
  | [] => none
  | a :: rest => some (a, { s.tick with cont := rest })

/-- Whether the host aborts now (R215), and the state in which it has done so. -/
def State.abortNow (s : State) : Option State :=
  if s.abortIn = some 0 then some { s with abortIn := none } else none

/-- A state that makes this call next: the driver is free, no abort is due, and the call is the host's first. -/
def State.withCall (s : State) (c : Call) : State :=
  { s with
    cont := []
    abortIn := if s.abortIn = some 0 then none else s.abortIn
    calls := c :: s.calls }

end Sys2Proof.Machine
end

