-- ==== Sys2Proof/Machine/Dispatch.lean ====
section
/-! DEFINITION. The meaning of every instruction of spec/opcode_table.json, one arm each. -/

namespace Sys2Proof.Machine

/-- An instruction's meaning: the operation's micro-step, or its guards and its expansion (30_encoding.md R94). -/
def exec (i : Instr) (s : State) : Host.Outcome State Fault Refusal :=
  match i with
  | .construct cfg => Sys2Proof.Machine.execConstruct cfg s
  | .configureLines => Sys2Proof.Machine.execConfigureLines s
  | .setControlLine l v => Sys2Proof.Machine.execSetControlLine l v s
  | .setDataLines p => Sys2Proof.Machine.execSetDataLines p s
  | .setDataDirection d => Sys2Proof.Machine.execSetDataDirection d s
  | .pulseEnable t tag => Sys2Proof.Machine.execPulseEnable t tag s
  | .sample => Sys2Proof.Machine.execSample s
  | .wait d => Sys2Proof.Machine.execWait d s
  | .encode b => Sys2Proof.Machine.execEncode b s
  | .decode fs => Sys2Proof.Machine.execDecode fs s
  | .selectRegister k => Sys2Proof.Machine.execSelectRegister k s
  | .writeFrame p tag => Sys2Proof.Machine.execWriteFrame p tag s
  | .transfer k b => Sys2Proof.Machine.execTransfer k b s
  | .settle k b => Sys2Proof.Machine.execSettle k b s
  | .sendInstruction b => Sys2Proof.Machine.execSendInstruction b s
  | .sendData b => Sys2Proof.Machine.execSendData b s
  | .waitUntilReady => Sys2Proof.Machine.execWaitUntilReady s
  | .pollIteration => Sys2Proof.Machine.execPollIteration s
  | .initialise => Sys2Proof.Machine.execInitialise s
  | .abort => Sys2Proof.Machine.execAbort s
  | .iw8 b => Sys2Proof.Machine.execIw8 b s
  | .dw8 b => Sys2Proof.Machine.execDw8 b s
  | .br8 b => Sys2Proof.Machine.execBr8 b s
  | .rsv8 b => Sys2Proof.Machine.execRsv8 b s
  | .iw4 n => Sys2Proof.Machine.execIw4 n s
  | .dw4 n => Sys2Proof.Machine.execDw4 n s
  | .br4 n => Sys2Proof.Machine.execBr4 n s
  | .rsv4 n => Sys2Proof.Machine.execRsv4 n s
  | .init8Bit => Sys2Proof.Machine.execInit8Bit s
  | .mode4Bit => Sys2Proof.Machine.execMode4Bit s
  | .functionSet dl n f x => Sys2Proof.Machine.execFunctionSet dl n f x s
  | .clear => Sys2Proof.Machine.execClear s
  | .returnHome x => Sys2Proof.Machine.execReturnHome x s
  | .displayOffByte => Sys2Proof.Machine.execDisplayOffByte s
  | .entryModeByte => Sys2Proof.Machine.execEntryModeByte s

end Sys2Proof.Machine
end

