-- ==== Sys2Proof/Machine/Step.lean ====
section
/-! DEFINITION. One step of the machine: a due abort of the host (60_exceptions.md R215), else one action of the driver (00_scope.md R9), else the
host's next call (R4), else time passes (R233). -/

namespace Sys2Proof.Machine

/-- One step. -/
def step (s : State) : Host.Outcome State Fault Refusal :=
  match s.abortNow with
  | some t => exec .abort t
  | none =>
    match s.nextAct with
    | some (a, t) => t.perform a
    | none =>
      match s.fetch with
      | some (.ok i, t) => exec i t
      | some (.error e, _) => .refused (.undecodable e)
      | none => .next s.idle

/-- The state whose next step runs a word of spec/opcode_table.json. The block does not fetch (R76): the word stands for a call of the host,
put first of the calls it has yet to make (notes/assumptions/9.md). -/
def State.withFetchWord (s : State) (nbits w : Nat) : State := s.withCall (tableCall nbits w)

end Sys2Proof.Machine
end

