-- ==== Sys2Proof/Safety.lean ====
section
/-! DEFINITION. What counts as a safe run, in the terms the claims use: contention (40_bus_transport.md R118), good states (60_exceptions.md R218),
the invariant of every step, runs of the machine, and what the claims say of a trace. -/

namespace Sys2Proof.Machine

/-! ### One state -/

/-- `Contention(St)` (R118). -/
def Contention (s : St) : Prop := s.dir = some .output ∧ s.rw = some true

/-- The driver is free on a good instance: it exists, nothing is in progress, no model fault is recorded (R218, R219). -/
def Idle (s : State) (m : Instance) : Prop := s.inst = some m ∧ s.cont = [] ∧ m.st.faults = []

/-- The lines as the block leaves them between operations (R173): Enable low, a write selected, the host driving. -/
def Resting (s : St) : Prop := s.e = some false ∧ s.rw = some false ∧ s.dir = some .output ∧ s.halfByte = false

/-- Every minimum time before the next rising edge of Enable is over but the setup and the settle (R243 to R248). -/
def GapOver (c : Cfg) (s : St) : Prop :=
  (s.mon.anyRise = true ∨ c.tPower ≤ s.now) ∧ ∀ tf tag, s.mon.lastFall = some (tf, tag) → gap c tag ≤ s.now - tf

/-- A write rising edge meets the settle obligation from now on (R251, R252). -/
def Settled (s : St) : Prop :=
  match s.mon.settle with
  | .noSettle => True
  | .untilTime t => t ≤ s.now
  | .untilBusyClear => False

/-! ### The invariant of every step -/

/-- The patterns in the latch and the trace have the instance's width (R20, R35). -/
def Event.fits (w : Width) : Event → Bool
  | .wFrame _ p _ => p.width == w
  | .rCycle _ p _ => p.width == w
  | .dirChange _ _ => true
  | .outcome _ _ => true

def WidthKept (w : Width) (s : St) : Prop :=
  (∀ p, s.data = some p → p.width = w) ∧ ∀ ev ∈ s.trace, ev.fits w = true

/-- The monitor holds a rising edge exactly while Enable is high (R32). -/
def EdgeKept (s : St) : Prop :=
  (s.e = some true ↔ s.mon.riseAt.isSome = true) ∧ (s.e = some true ↔ s.mon.riseKind.isSome = true)

/-- The time of a trace event (R35). -/
def Event.time : Event → Nat
  | .wFrame _ _ t => t
  | .rCycle _ _ t => t
  | .dirChange _ t => t
  | .outcome _ t => t

/-- Nothing recorded lies in the future (R10, R32, R35). -/
def ClockKept (s : St) : Prop :=
  (∀ t, s.mon.riseAt = some t → t ≤ s.now) ∧ (∀ t tag, s.mon.lastFall = some (t, tag) → t ≤ s.now)
    ∧ s.mon.lastChange ≤ s.now ∧ ∀ ev ∈ s.trace, ev.time ≤ s.now

/-- The only outcome an instance fails with (R27). -/
def PhaseLegal (s : St) : Prop := ∀ o, s.phase = .failed o → o = .busyFlagTimeout

/-- An action of the abort path. -/
def Act.ofAbort : Act → Bool
  | .abortEnable => true
  | .abortReadWrite => true
  | .abortDirection => true
  | .abortFinish => true
  | _ => false

/-- An action whose pattern operand has the instance's width (R92). -/
def Act.fits (w : Width) : Act → Bool
  | .data p => p.width == w
  | .frame p _ => p.width == w
  | .read (some p) _ => p.width == w
  | _ => true

/-- An action that only a poll in progress leaves to do, and that may end it in Failed (R196, R213). -/
def Act.ofPoll : Act → Bool
  | .pollTest => true
  | .finish .busyFlagTimeout => true
  | _ => false

/-- An action that tags a write frame as an upper nibble (R115, R134). -/
def Act.tagsInner : Act → Bool
  | .tag .innerNibble => true
  | .pulse _ .innerNibble => true
  | .frame _ .innerNibble => true
  | _ => false

/-- A poll runs only where the phase allows it (R28, R191). -/
def PollKept (cont : List Act) (s : St) : Prop := ∀ a ∈ cont, a.ofPoll = true → s.phase.pollUsable = true

/-- The abort path runs whole and by itself (R215): what is left of it is its end; Enable is low when its second line comes, and RW too when
its third does (R118, R119). -/
def AbortInOrder (cont : List Act) (s : St) : Prop :=
  (cont <:+ abortSteps ∨ ∀ a ∈ cont, a.ofAbort = false)
    ∧ (cont = [.abortReadWrite, .abortDirection, .abortFinish] → s.e ≠ some true)
    ∧ (cont = [.abortDirection, .abortFinish] → s.e ≠ some true ∧ s.rw ≠ some true)

/-- The invariant: what every state of a run satisfies, and every step keeps from every state that does. -/
def Inv (s : State) : Prop :=
  ∀ m, s.inst = some m →
    ¬ Contention m.st ∧ WidthKept m.cfg.width m.st ∧ EdgeKept m.st ∧ ClockKept m.st ∧ PhaseLegal m.st
      ∧ AbortInOrder s.cont m.st ∧ PollKept s.cont m.st ∧ ∀ a ∈ s.cont, a.fits m.cfg.width = true

/-- Under EightBit no byte is half sent (R29), and nothing is about to send half of one. -/
def NeverHalf (s : State) : Prop :=
  ∀ m, s.inst = some m → m.cfg.width = .eightBit →
    m.st.halfByte = false ∧ m.st.mon.curTag ≠ .innerNibble ∧ ∀ a ∈ s.cont, a.tagsInner = false

/-- An internal operation called with the ghost tag of an upper nibble, which the block itself sends under FourBit only (R115, R134, R135). -/
def sendsInner : Instr → Bool
  | .pulseEnable _ .innerNibble => true
  | .writeFrame _ .innerNibble => true
  | _ => false

/-! ### Runs -/

/-- Some number of steps leads from one state to the other. -/
def Runs (s t : State) : Prop := ∃ n, Host.Core.run core n s = .next t

/-- `construct` may run in the next step: the host's next call is one and nothing comes before it. -/
def ConstructsNext (s : State) : Prop :=
  s.abortIn ≠ some 0 ∧ s.cont = [] ∧ ∃ c t, s.fetch = some (.ok (.construct c), t)

/-- The host's next call, if nothing comes before it, is an operation that `sendsInner` names. -/
def SendsInnerNext (s : State) : Prop :=
  s.abortIn ≠ some 0 ∧ s.cont = [] ∧ ∃ i t, s.fetch = some (.ok i, t) ∧ sendsInner i = true

/-- A public operation has ended in `BusyFlagTimeout` after `n` busy iterations (R196, R213): the outcome recorded and returned, the instance
Failed, the lines restored, the driver free, no fault. -/
def TimedOut (t : State) (m : Instance) (n : Nat) : Prop :=
  Idle t m ∧ t.ret = .outcome .busyFlagTimeout ∧ m.st.phase = .failed .busyFlagTimeout ∧ m.st.result = some .busyFlagTimeout
    ∧ m.st.pollIter = n ∧ m.st.lastBF = some true ∧ Resting m.st ∧ m.st.rs = some false

/-! ### Traces -/

/-- `l` is the device's answers to one poll iteration that reads the busy flag `bf`: one sample under EightBit, two under FourBit; DB7 of the
first is the flag, and every other level is any (R88, R193, R194, R228). -/
def IterationAnswers (w : Width) (bf : Bit) (l : List Byte) : Prop :=
  match w with
  | .eightBit => ∃ x : Byte, l = [x] ∧ x.getLsbD 7 = bf
  | .fourBit => ∃ x y : Byte, l = [x, y] ∧ x.getLsbD 7 = bf

/-- `l` is the answers of any device that is busy for k iterations. -/
def BusyAnswers (w : Width) : Nat → List Byte → Prop
  | 0, l => l = []
  | k + 1, l => ∃ a b, IterationAnswers w true a ∧ BusyAnswers w k b ∧ l = a ++ b

/-- `l` is the answers of any device that is busy for k iterations and then ready (R190). -/
def BusyThenReady (w : Width) (k : Nat) (l : List Byte) : Prop :=
  ∃ a b, BusyAnswers w k a ∧ IterationAnswers w false b ∧ l = a ++ b

/-- The write frames that `initialize` sends (R176). -/
def initFrames (c : Cfg) : List (Bit × Pattern) :=
  (List.replicate 3 (initPattern c.width init8BitByte)
    ++ (match c.width with | .fourBit => [.nibble (upperNibble mode4BitByte)] | .eightBit => [])
    ++ (pack (fsByte c) c.width ++ pack c.displayOffByte c.width ++ pack clearByte c.width ++ pack c.entryModeByte c.width)).map
    fun p => (false, p)

/-- The read cycles of a trace, in order. -/
def readCycles (t : List Event) : List Pattern :=
  t.filterMap fun ev => match ev with | .rCycle _ bits _ => some bits | _ => none

end Sys2Proof.Machine
end

