-- ==== Sys2Proof/Certificates/Slice0/Obligations.lean ====
section
/-! DEFINITION. The statements for the provers. Each docstring names the rules of spec/ it formalises. A statement about an operation that is a
sequence (30_encoding.md R94) says what `exec` answers and what the run that follows it ends in. -/

open Sys2Proof Sys2Proof.Machine

/-! ### Encoding -/

/-- Every well-formed instruction is read back from the call that encodes it, with every operand. The layout of the operands in bytes is the
model's (notes/assumptions/3.md). -/
def Obligations.DecodeReadsBackEncode : Prop :=
  ∀ i : Instr, wellFormed i = true → decode (encode i) = .ok i

/-- Every call the decoder takes is the encoding of what it reads, and that is well-formed: no two calls mean one instruction. -/
def Obligations.DecodedCallIsItsEncoding : Prop :=
  ∀ (c : Call) (i : Instr), decode c = .ok i → encode i = c ∧ wellFormed i = true

/-- Words written out from R81 to R83, R89 and R93 decode to what they stand for. The level beside a word is notes/assumptions/2.md, the bytes of a
10-bit word (low byte first) and of the operands 3.md, and N and the class mask of 0x28 20.md. -/
def Obligations.WordsOfTheSpecDecode : Prop :=
  decode ⟨.operation, [0x0F#8, 0x41#8]⟩ = .ok (.sendData 0x41#8)
    ∧ decode ⟨.operation, [0x12#8]⟩ = .ok .initialise
    ∧ decode ⟨.busWord8, [0x41#8, 0x02#8]⟩ = .ok (.dw8 0x41#8)
    ∧ decode ⟨.busWord4, [0x18#8]⟩ = .ok (.br4 0x8#4)
    ∧ decode ⟨.command, [0x28#8]⟩ = .ok (.functionSet false true false 0#2)
    ∧ decodeTableWord 8 0x13 = some .abort
    ∧ decodeTableWord 16 0x300 = some (.rsv8 0x00#8)

/-- R81 to R84: a bus word holds RS, RW and the data in the bits the formats give, and its top two bits are its class. -/
def Obligations.BusWordHoldsItsFields : Prop :=
  ∀ (rs rw : Bit),
    (∀ b : Byte, (busWord rs rw (.byte b)) / 0x200 = rs.toNat ∧ (busWord rs rw (.byte b)) / 0x100 % 2 = rw.toNat
      ∧ busWord rs rw (.byte b) % 0x100 = b.toNat)
    ∧ (∀ n : Nibble, (busWord rs rw (.nibble n)) / 0x20 = rs.toNat ∧ (busWord rs rw (.nibble n)) / 0x10 % 2 = rw.toNat
      ∧ busWord rs rw (.nibble n) % 0x10 = n.toNat)
    ∧ (classify rs rw = .iw ↔ rs = false ∧ rw = false) ∧ (classify rs rw = .dw ↔ rs = true ∧ rw = false)
    ∧ (classify rs rw = .br ↔ rs = false ∧ rw = true) ∧ (classify rs rw = .reserved ↔ rs = true ∧ rw = true)

/-- R85: a decoder that reads the first four FourBit frames as init frames and pairs the rest gets back the bytes of the transfers. -/
def Obligations.FourBitTraceReadsBackItsBytes : Prop :=
  ∀ (init : List (Bit × Pattern)) (bytes : List (Bit × Byte)), init.length = 4 →
    readFourBitTrace (init ++ bytes.flatMap fun q => (pack q.2 .fourBit).map fun p => (q.1, p)) = (init, (bytes, []))

/-- R132, with R130 and R131: decoding what `encode` returned gives the byte back, and encoding what `decode` returned gives the frames back, under
both widths. That they answer in every state, also while an operation is in progress and after a fault, is the model's reading
(notes/assumptions/23.md). -/
def Obligations.CodecRoundTrip : Prop :=
  ∀ (s : State) (m : Instance), s.inst = some m →
    (∀ b : Byte, ∃ fs t u, exec (.encode b) s = .next t ∧ t.ret = .frames fs ∧ exec (.decode fs) t = .next u ∧ u.ret = .byte b)
    ∧ ∀ (fs : List Pattern) (t : State), exec (.decode fs) s = .next t →
        ∃ b u, t.ret = .byte b ∧ exec (.encode b) t = .next u ∧ u.ret = .frames fs

/-- R130, R131, R86: the codec's results: one byte frame, or the upper nibble and then the lower; nothing else of the state changes. That they
answer in every state is the model's reading (notes/assumptions/23.md). -/
def Obligations.CodecResults : Prop :=
  ∀ (s : State) (m : Instance), s.inst = some m →
    (∀ b : Byte, exec (.encode b) s = .next { s with
      ret := .frames (match m.cfg.width with
        | .eightBit => [.byte b]
        | .fourBit => [.nibble (b.extractLsb' 4 4), .nibble (b.extractLsb' 0 4)]) })
    ∧ (∀ p : Byte, m.cfg.width = .eightBit → exec (.decode [.byte p]) s = .next { s with ret := .byte p })
    ∧ (∀ h l : Nibble, m.cfg.width = .fourBit → exec (.decode [.nibble h, .nibble l]) s = .next { s with ret := .byte (h ++ l) })

/-- R131: a list of the wrong length is refused: no value, and no next state. -/
def Obligations.DecodeRefusedOutsideItsDomain : Prop :=
  ∀ (s : State) (m : Instance) (fs : List Pattern), s.inst = some m → (∀ p ∈ fs, p.width = m.cfg.width) →
    fs.length ≠ (match m.cfg.width with | .eightBit => 1 | .fourBit => 2) → exec (.decode fs) s = .refused .decodeDomain

/-- R87: the eight values of the function-set byte. -/
def Obligations.FunctionSetByteTable : Prop :=
  ∀ c : Cfg, c.rows = 1 ∨ c.rows = 2 →
    fsByte c = (match c.width, decide (c.rows = 2), c.font with
      | .fourBit, false, .font5x8 => 0x20#8
      | .fourBit, false, .font5x10 => 0x24#8
      | .fourBit, true, .font5x8 => 0x28#8
      | .fourBit, true, .font5x10 => 0x2C#8
      | .eightBit, false, .font5x8 => 0x30#8
      | .eightBit, false, .font5x10 => 0x34#8
      | .eightBit, true, .font5x8 => 0x38#8
      | .eightBit, true, .font5x10 => 0x3C#8)

/-- R64: pattern bit j is on the j-th wired line, and a line that is not wired has no level. -/
def Obligations.PatternBitsOnWiredLines : Prop :=
  (∀ (b : Byte) (j : Fin 8), (wiredLines .eightBit)[j.val]? = some j ∧ onLine (.byte b) j = some (b.getLsbD j.val))
    ∧ (∀ (n : Nibble) (j : Fin 4), ∃ k, (wiredLines .fourBit)[j.val]? = some k ∧ onLine (.nibble n) k = some (n.getLsbD j.val))
    ∧ (∀ (n : Nibble) (k : Fin 8), k ∉ wiredLines .fourBit → onLine (.nibble n) k = none)
    ∧ ∀ p : Pattern, onLine p 7 = some (db7 p)

/-! ### Construction (R39, R212, R240) -/

/-- R212, R240, R39: a configuration that passes the checks gives an instance whose `St` has the values of R39, `Ok`, and no event. That an
instance that exists is replaced is the model's choice (notes/assumptions/5.md). -/
def Obligations.ConstructLeavesResetValues : Prop :=
  ∀ (s : State) (cfg : Cfg), s.cont = [] → isPinMap cfg.pins = true →
    (cfg.rows = 1 ∨ cfg.rows = 2) → cfg.pollBound ≠ some 0 →
    (∀ x, x ∈ cfg.pins.map (·.1) ↔ x ∈ [Signal.e, .rs, .rw] ++ (wiredLines cfg.width).map .db) →
    (cfg.pins.map (·.2)).Nodup →
    ∃ st : St, exec (.construct cfg) s = .next { s with inst := some ⟨cfg, st⟩, ret := .outcome .ok }
      ∧ st.phase = .poweringUp ∧ st.e = none ∧ st.rs = none ∧ st.rw = none ∧ st.data = none ∧ st.dir = none
      ∧ st.halfByte = false ∧ st.pollIter = 0 ∧ st.lastBF = none ∧ st.now = 0
      ∧ st.mon.riseAt = none ∧ st.mon.riseKind = none ∧ st.mon.lastFall = none ∧ st.mon.curTag = .read ∧ st.mon.lastChange = 0
      ∧ st.mon.settle = .noSettle ∧ st.mon.anyRise = false ∧ st.trace = [] ∧ st.faults = [] ∧ st.result = none

/-- R212: a configuration that fails a check gives `ConfigurationError`, and no instance exists. -/
def Obligations.ConstructRejectsBadConfiguration : Prop :=
  ∀ (s : State) (cfg : Cfg), s.cont = [] →
    ((cfg.rows ≠ 1 ∧ cfg.rows ≠ 2) ∨ cfg.pollBound = some 0
      ∨ (∃ x, x ∈ [Signal.e, .rs, .rw] ++ (wiredLines cfg.width).map .db ∧ x ∉ cfg.pins.map (·.1))
      ∨ (isPinMap cfg.pins = true ∧ ∃ x, x ∈ cfg.pins.map (·.1) ∧ x ∉ [Signal.e, .rs, .rw] ++ (wiredLines cfg.width).map .db)
      ∨ ¬ (cfg.pins.map (·.2)).Nodup) →
    exec (.construct cfg) s = .next { s with inst := none, ret := .outcome .configurationError }

/-! ### BusTransport (R111 to R119) -/

/-- R112, R133: driving RS or RW, and `selectRegister`: the line gets its level, `lastChange` the time before the micro-step's draw
(notes/assumptions/7.md); nothing else of `St` changes but the time, which grows by that draw; `selectRegister` is `setControlLine` of RS,
faults included. -/
def Obligations.ControlLineGetsItsLevel : Prop :=
  ∀ (s : State) (m : Instance) (v : Bit), Idle s m → m.st.e ≠ some true →
    (∀ i, i = .setControlLine .rs v ∨ (v = true ∧ i = .selectRegister .data) ∨ (v = false ∧ i = .selectRegister .instruction) →
      m.st.rs ≠ none → (m.st.halfByte = true → m.st.rs = some v) →
      exec i s = .next { s with
        inst := some { m with st := { m.st with
          rs := some v, now := m.st.now + s.nextDelay, mon := { m.st.mon with lastChange := m.st.now } } }
        ret := .nothing, delays := s.delays.tail, draws := s.draws + 1 })
    ∧ (m.st.rw ≠ none → (v = true → m.st.dir = some .inputWithPullup) →
      exec (.setControlLine .rw v) s = .next { s with
        inst := some { m with st := { m.st with
          rw := some v, now := m.st.now + s.nextDelay, mon := { m.st.mon with lastChange := m.st.now } } }
        ret := .nothing, delays := s.delays.tail, draws := s.draws + 1 })
    ∧ ∀ k, exec (.selectRegister k) s = exec (.setControlLine .rs (match k with | .data => true | .instruction => false)) s

/-- R112 ("Writing a line with the level it already has causes no edge and no fault"), for Enable: only time passes. -/
def Obligations.EnableAtItsLevelHasNoEdge : Prop :=
  ∀ (s : State) (m : Instance) (v : Bit), Idle s m → m.st.e = some v →
    exec (.setControlLine .e v) s = .next { s with
      inst := some { m with st := { m.st with now := m.st.now + s.nextDelay } }
      ret := .nothing, delays := s.delays.tail, draws := s.draws + 1 }

/-- R112, R243, R251: a rising edge that meets every minimum time records itself, at the time before the micro-step's draw
(notes/assumptions/7.md); one of a write cycle resets the settle obligation; no other field of `St` changes but the time. With RW or, in a
write cycle, the direction unwritten it is F6: `ControlLineFaults`. -/
def Obligations.EnableRises : Prop :=
  ∀ (s : State) (m : Instance), Idle s m → m.st.e = some false → GapOver m.cfg m.st → m.cfg.tSetup ≤ m.st.now - m.st.mon.lastChange →
    ((m.st.rw = some true →
      exec (.setControlLine .e true) s = .next { s with
        inst := some { m with st := { m.st with
          e := some true, now := m.st.now + s.nextDelay
          mon := { m.st.mon with riseAt := some m.st.now, riseKind := some .read, anyRise := true } } }
        ret := .nothing, delays := s.delays.tail, draws := s.draws + 1 })
    ∧ (m.st.rw = some false → m.st.dir = some .output → Settled m.st →
      exec (.setControlLine .e true) s = .next { s with
        inst := some { m with st := { m.st with
          e := some true, now := m.st.now + s.nextDelay
          mon := { m.st.mon with riseAt := some m.st.now, riseKind := some .write, anyRise := true, settle := .noSettle } } }
        ret := .nothing, delays := s.delays.tail, draws := s.draws + 1 }))

/-- R112, R247, R253: the falling edge of a long enough write pulse emits the frame with the levels held, at the time before the micro-step's
draw (notes/assumptions/7.md), sets or clears `halfByte` by the tag, under either width (15.md), and a final frame sets the settle obligation
(LongSet's 0x02 and 0x03: 20.md). -/
def Obligations.WritePulseFallEmitsItsFrame : Prop :=
  ∀ (s : State) (m : Instance) (r : Bit) (p : Pattern) (tr : Nat), Idle s m → m.st.e = some true → m.st.mon.riseKind = some .write →
    m.st.rs = some r → m.st.data = some p → m.st.mon.riseAt = some tr → m.cfg.tPwEn ≤ m.st.now - tr →
    exec (.setControlLine .e false) s = .next { s with
      inst := some { m with st := { m.st with
        e := some false, now := m.st.now + s.nextDelay, trace := m.st.trace ++ [.wFrame r p m.st.now]
        halfByte := (match m.st.mon.curTag with
          | .innerNibble => true
          | .final _ _ => false
          | _ => m.st.halfByte)
        mon := { m.st.mon with
          riseAt := none, riseKind := none, lastFall := some (m.st.now, m.st.mon.curTag)
          settle := (match m.st.mon.curTag, m.cfg.strategy with
            | .final k b, .fixedDelay => .untilTime (m.st.now +
                (if k = .instruction ∧ (b = 0x01#8 ∨ b = 0x02#8 ∨ b = 0x03#8) then m.cfg.tSettleLong else m.cfg.tSettleCmd))
            | .final _ _, .busyPoll => .untilBusyClear
            | _, _ => m.st.mon.settle) } } }
      ret := .nothing, delays := s.delays.tail, draws := s.draws + 1 }

/-- R112: the falling edge of a read cycle emits no event; it is recorded with the tag `Read`, at the time before the micro-step's draw
(notes/assumptions/7.md). -/
def Obligations.ReadPulseFallIsRecorded : Prop :=
  ∀ (s : State) (m : Instance), Idle s m → m.st.e = some true → m.st.mon.riseKind = some .read →
    exec (.setControlLine .e false) s = .next { s with
      inst := some { m with st := { m.st with
        e := some false, now := m.st.now + s.nextDelay
        mon := { m.st.mon with riseAt := none, riseKind := none, lastFall := some (m.st.now, .read) } } }
      ret := .nothing, delays := s.delays.tail, draws := s.draws + 1 }

/-- R112, R22, R218, R220: the faults F6, F9, F10, F12 and F11 of `setControlLine`, each where no earlier one applies: the fault is recorded,
the driver stops, no other field of `St` changes and no draw is taken. F6 also where the micro-step reads another line than its own: a rise
of Enable reads RW and in a write cycle the direction, RW high reads the direction, and the fall of a write pulse, whose event holds them, reads
RS and the data latch (the model's reading, notes/assumptions/12.md). -/
def Obligations.ControlLineFaults : Prop :=
  ∀ (s : State) (m : Instance) (v : Bit), Idle s m →
    (m.st.e = none → exec (.setControlLine .e v) s = .next (s.raise m (.unconfiguredLine .e)))
    ∧ (m.st.rs = none → exec (.setControlLine .rs v) s = .next (s.raise m (.unconfiguredLine .rs)))
    ∧ (m.st.rw = none → exec (.setControlLine .rw v) s = .next (s.raise m (.unconfiguredLine .rw)))
    ∧ (m.st.rs ≠ none → m.st.e = some true → exec (.setControlLine .rs v) s = .next (s.raise m .lineChangeWhileEnableHigh))
    ∧ (m.st.rw ≠ none → (v = true → m.st.dir ≠ none) → m.st.e = some true →
        exec (.setControlLine .rw v) s = .next (s.raise m .lineChangeWhileEnableHigh))
    ∧ (m.st.rs = some (!v) → m.st.e ≠ some true → m.st.halfByte = true →
        exec (.setControlLine .rs v) s = .next (s.raise m .registerSelectMidByte))
    ∧ (m.st.rw ≠ none → m.st.e ≠ some true → m.st.dir = some .output →
        exec (.setControlLine .rw true) s = .next (s.raise m .busContention))
    ∧ (m.st.e = some false → m.st.rw = some false → m.st.dir = some .inputWithPullup →
        exec (.setControlLine .e true) s = .next (s.raise m .writeWhileInput))
    ∧ (m.st.e = some false → m.st.rw = none → exec (.setControlLine .e true) s = .next (s.raise m (.unconfiguredLine .rw)))
    ∧ (m.st.e = some false → m.st.rw = some false → m.st.dir = none →
        exec (.setControlLine .e true) s = .next (s.raise m (.unconfiguredLine .db)))
    ∧ (m.st.rw ≠ none → m.st.dir = none → exec (.setControlLine .rw true) s = .next (s.raise m (.unconfiguredLine .db)))
    ∧ (m.st.e = some true → m.st.mon.riseKind = some .write → m.st.rs = none →
        exec (.setControlLine .e false) s = .next (s.raise m (.unconfiguredLine .rs)))
    ∧ (m.st.e = some true → m.st.mon.riseKind = some .write → m.st.rs ≠ none → m.st.data = none →
        exec (.setControlLine .e false) s = .next (s.raise m (.unconfiguredLine .db)))

/-- R218: what `raise` does: it appends the fault and stops the driver, which returns nothing and runs no operation and no abort path after
it; every other field of `St` keeps its value. The stop as the fault `driverStopped`, and what still answers after it (`construct`, `encode`,
`decode`, an abort of a dead instance), is the model's reading (notes/assumptions/10.md, 23.md). -/
def Obligations.RaiseRecordsAndStops : Prop :=
  ∀ (s : State) (m : Instance) (f : ModelFault), s.inst = some m →
    ∃ t, t = s.raise m f ∧ t.inst = some { m with st := { m.st with faults := m.st.faults ++ [f] } } ∧ t.cont = []
      ∧ t.ret = .nothing ∧ t.caller = s.caller ∧ t.bf = s.bf ∧ t.calls = s.calls ∧ t.abortIn = s.abortIn ∧ t.delays = s.delays
      ∧ t.answers = s.answers ∧ t.latches = s.latches ∧ t.draws = s.draws
      ∧ (m.st.phase.dead = false → exec .abort t = .fault .driverStopped)
      ∧ ∀ i : Instr, (∀ c, i ≠ .construct c) → (∀ b, i ≠ .encode b) → (∀ fs, i ≠ .decode fs) → i ≠ .abort →
          ∀ u, exec i t ≠ .next u

/-- R113: `setDataLines` writes the latch, and `lastChange` with the time before the micro-step's draw (notes/assumptions/7.md); its faults F6,
F9 and F11 come in that order. -/
def Obligations.DataLinesGetTheirPattern : Prop :=
  ∀ (s : State) (m : Instance) (p : Pattern), Idle s m → p.width = m.cfg.width →
    (m.st.dir = some .output → m.st.e ≠ some true →
      exec (.setDataLines p) s = .next { s with
        inst := some { m with st := { m.st with
          data := some p, now := m.st.now + s.nextDelay, mon := { m.st.mon with lastChange := m.st.now } } }
        ret := .nothing, delays := s.delays.tail, draws := s.draws + 1 })
    ∧ (m.st.dir = none → exec (.setDataLines p) s = .next (s.raise m (.unconfiguredLine .db)))
    ∧ (m.st.dir ≠ none → m.st.e = some true → exec (.setDataLines p) s = .next (s.raise m .lineChangeWhileEnableHigh))
    ∧ (m.st.dir = some .inputWithPullup → m.st.e ≠ some true → exec (.setDataLines p) s = .next (s.raise m .writeWhileInput))

/-- R114: a change of direction writes `dir` and emits its event, at the time before the micro-step's draw (notes/assumptions/7.md); a change to
Output gives the latch a draw, any value; the direction it has already is a no-op; the faults F6, F9 and F12 come in that order. -/
def Obligations.DataDirectionChanges : Prop :=
  ∀ (s : State) (m : Instance) (d : Dir), Idle s m →
    (m.st.dir ≠ none → m.st.e ≠ some true → (d = .output → m.st.rw ≠ some true) →
      ((m.st.dir = some d →
        exec (.setDataDirection d) s = .next { s with
          inst := some { m with st := { m.st with now := m.st.now + s.nextDelay } }
          ret := .nothing, delays := s.delays.tail, draws := s.draws + 1 })
      ∧ (m.st.dir ≠ some d → d = .inputWithPullup →
        exec (.setDataDirection d) s = .next { s with
          inst := some { m with st := { m.st with
            dir := some d, now := m.st.now + s.nextDelay, trace := m.st.trace ++ [.dirChange d m.st.now] } }
          ret := .nothing, delays := s.delays.tail, draws := s.draws + 1 })
      ∧ (m.st.dir ≠ some d → d = .output →
        ∃ t x δ, exec (.setDataDirection d) s = .next t ∧ x.width = m.cfg.width
          ∧ t.inst = some { m with st := { m.st with
              dir := some d, data := some x, now := m.st.now + δ, trace := m.st.trace ++ [.dirChange d m.st.now] } }
          ∧ t.cont = [] ∧ t.ret = .nothing ∧ t.calls = s.calls ∧ t.answers = s.answers ∧ t.bf = s.bf ∧ t.caller = s.caller
          ∧ t.abortIn = s.abortIn)))
    ∧ (m.st.dir = none → exec (.setDataDirection d) s = .next (s.raise m (.unconfiguredLine .db)))
    ∧ (m.st.dir ≠ none → m.st.e = some true → exec (.setDataDirection d) s = .next (s.raise m .lineChangeWhileEnableHigh))
    ∧ (m.st.dir ≠ none → m.st.e ≠ some true → m.st.rw = some true →
        exec (.setDataDirection .output) s = .next (s.raise m .busContention))

/-- R116, R249: in a read cycle held long enough, `sample` returns the device's answer on the wired lines and emits it; it writes no line.
On an unconfigured line it is F6, outside a read cycle F13, and too early TC-POLLHIGH. The model's own: a given answer is eight levels of
which the wired ones are taken (notes/assumptions/8.md, 26.md), the event has the time before the draw (7.md), F6 names a line and counts RS
(12.md), and RS = 1 is no fault (32.md). -/
def Obligations.SampleReadsTheDevice : Prop :=
  ∀ (s : State) (m : Instance), Idle s m →
    (∀ r tr, m.st.dir = some .inputWithPullup → m.st.rw = some true → m.st.e = some true → m.st.rs = some r →
      m.st.mon.riseAt = some tr →
      (m.cfg.tPollHigh ≤ m.st.now - tr →
        ∃ t p δ, exec .sample s = .next t ∧ p.width = m.cfg.width ∧ t.ret = .pattern p
          ∧ t.inst = some { m with st := { m.st with now := m.st.now + δ, trace := m.st.trace ++ [.rCycle r p m.st.now] } }
          ∧ t.cont = [] ∧ t.bf = s.bf ∧ t.calls = s.calls ∧ t.latches = s.latches
          ∧ ∀ x rest, s.answers = x :: rest → t.answers = rest ∧
              p = (match m.cfg.width with | .eightBit => .byte x | .fourBit => .nibble (x.extractLsb' 4 4)))
      ∧ (m.st.now - tr < m.cfg.tPollHigh → exec .sample s = .next (s.raise m (.timingViolation .pollHigh))))
    ∧ (m.st.dir = none ∨ m.st.rw = none ∨ m.st.e = none ∨ m.st.rs = none → ∃ l, exec .sample s = .next (s.raise m (.unconfiguredLine l)))
    ∧ (m.st.dir ≠ none → m.st.rs ≠ none → m.st.rw ≠ none → m.st.e ≠ none →
        ¬ (m.st.dir = some .inputWithPullup ∧ m.st.rw = some true ∧ m.st.e = some true) →
        exec .sample s = .next (s.raise m .sampleOutsideReadCycle))

/-- R117: `wait(d)` advances the time by at least d and changes nothing else of `St`. Where a draw is given, it is exactly d and that draw, which
is how the model gives draws (notes/assumptions/8.md). -/
def Obligations.WaitLastsAtLeastItsArgument : Prop :=
  ∀ (s : State) (m : Instance) (d : Nat), Idle s m →
    ∃ t δ, exec (.wait d) s = .next t ∧ d ≤ δ ∧ t.inst = some { m with st := { m.st with now := m.st.now + δ } }
      ∧ t.cont = [] ∧ t.ret = .nothing ∧ t.calls = s.calls ∧ t.answers = s.answers ∧ t.latches = s.latches
      ∧ ∀ x rest, s.delays = x :: rest → δ = d + x ∧ t.delays = rest

/-- R111: `configureLines` runs to the end and leaves every line an output at 0, without an edge or an event; with Enable high it is F9. It is
legal in the middle of a byte too (R111, R217 against R29: notes/assumptions/14.md). -/
def Obligations.ConfigureLinesDrivesAllLow : Prop :=
  ∀ (s : State) (m : Instance), Idle s m → s.abortIn = none →
    (m.st.e ≠ some true →
      ∃ u t now' lc, exec .configureLines s = .next u ∧ Runs u t ∧ t.cont = [] ∧ m.st.now ≤ lc ∧ lc ≤ now'
      ∧ t.inst = some { m with st := { m.st with
          e := some false, rs := some false, rw := some false, dir := some .output, now := now'
          data := some (match m.cfg.width with | .eightBit => .byte 0#8 | .fourBit => .nibble 0#4)
          mon := { m.st.mon with lastChange := lc } } })
    ∧ (m.st.e = some true → exec .configureLines s = .next (s.raise m .lineChangeWhileEnableHigh))

/-- R115: the guards F6, F7 and F8 of `pulseEnable`, and where none applies its expansion. Which line F6 names is the model's choice
(notes/assumptions/12.md). -/
def Obligations.PulseEnableGuards : Prop :=
  ∀ (s : State) (m : Instance) (t : Nat) (tag : FallTag), Idle s m →
    ((m.st.e = none ∨ m.st.rw = none ∨ m.st.dir = none) → ∃ l, exec (.pulseEnable t tag) s = .next (s.raise m (.unconfiguredLine l)))
    ∧ (m.st.e = some true → m.st.rw ≠ none → m.st.dir ≠ none →
        exec (.pulseEnable t tag) s = .next (s.raise m .enableNotLowAtFrameStart))
    ∧ (m.st.e = some false → m.st.rw = some true → m.st.dir ≠ none → exec (.pulseEnable t tag) s = .next (s.raise m .pulseInReadMode))
    ∧ (m.st.e = some false → m.st.rw = some false → m.st.dir ≠ none →
        exec (.pulseEnable t tag) s = .next { s with
          cont := [.tag tag, .line .e true, .delay t, .line .e false], caller := .internalOp, ret := .nothing })

/-- R115: a pulse at least `T_PW_EN` long with Enable low, a write selected and the host driving, also in the middle of a byte, emits the frame
with the levels held and returns with Enable low; `halfByte` follows the tag (R112; under EightBit notes/assumptions/15.md). -/
def Obligations.PulseEnableReturnsEnableLow : Prop :=
  ∀ (s : State) (m : Instance) (d : Nat) (tag : FallTag) (r : Bit) (p : Pattern), Idle s m → s.abortIn = none → m.st.e = some false →
    m.st.rw = some false → m.st.dir = some .output → m.st.rs = some r → m.st.data = some p → GapOver m.cfg m.st →
    m.cfg.tSetup ≤ m.st.now - m.st.mon.lastChange → Settled m.st → m.cfg.tPwEn ≤ d →
    ∃ u t m' τ, exec (.pulseEnable d tag) s = .next u ∧ Runs u t ∧ t.cont = [] ∧ t.inst = some m' ∧ m'.st.e = some false
      ∧ m'.st.faults = [] ∧ m'.st.trace = m.st.trace ++ [.wFrame r p τ] ∧ m.st.now + d ≤ τ ∧ τ ≤ m'.st.now
      ∧ m'.st.rs = m.st.rs ∧ m'.st.rw = m.st.rw ∧ m'.st.data = m.st.data ∧ m'.st.dir = m.st.dir ∧ m'.st.phase = m.st.phase
      ∧ m'.st.halfByte = (match tag with | .innerNibble => true | .final _ _ => false | _ => m.st.halfByte)

/-- R134: `writeFrame` puts one pattern on the bus and strobes it: one frame, after the setup and the pulse width, then the low time; it does so in
the middle of a byte too, and `halfByte` follows the tag (R112; under EightBit notes/assumptions/15.md). -/
def Obligations.WriteFrameStrobesItsPattern : Prop :=
  ∀ (s : State) (m : Instance) (p : Pattern) (tag : FallTag) (r : Bit), Idle s m → s.abortIn = none → p.width = m.cfg.width →
    m.st.e = some false → m.st.rw = some false → m.st.dir = some .output → m.st.rs = some r → GapOver m.cfg m.st → Settled m.st →
    ∃ u t m' τ, exec (.writeFrame p tag) s = .next u ∧ Runs u t ∧ t.cont = [] ∧ t.inst = some m'
      ∧ m'.st.trace = m.st.trace ++ [.wFrame r p τ] ∧ m.st.now + m.cfg.tSetup + m.cfg.tPwEn ≤ τ ∧ τ + m.cfg.tEnLow ≤ m'.st.now
      ∧ m'.st.data = some p ∧ m'.st.e = some false ∧ m'.st.rs = m.st.rs ∧ m'.st.rw = m.st.rw ∧ m'.st.dir = m.st.dir
      ∧ m'.st.phase = m.st.phase ∧ m'.st.pollIter = m.st.pollIter ∧ m'.st.lastBF = m.st.lastBF ∧ m'.st.result = m.st.result
      ∧ m'.st.halfByte = (match tag with | .innerNibble => true | .final _ _ => false | _ => m.st.halfByte)
      ∧ m'.st.faults = [] ∧ m'.st.mon.lastFall = some (τ, tag) ∧ m'.cfg = m.cfg ∧ t.calls = s.calls ∧ t.answers = s.answers

/-! ### Transfers and the public entry points (R135 to R139) -/

/-- R94, R135, R136, R91: `transfer` and `settle` expand as the rules give, and wait for the settle the strategy asks for (LongSet's 0x02 and 0x03:
notes/assumptions/20.md). That a lone `transfer` has no guard, on a dead instance and while `halfByte` is true, is the model's choice (30.md,
31.md). -/
def Obligations.TransferAndSettleExpand : Prop :=
  ∀ (s : State) (m : Instance) (k : Kind) (b : Byte), Idle s m →
    exec (.transfer k b) s = .next { s with
      cont := [.line .rs (match k with | .data => true | .instruction => false), .line .rw false]
        ++ (match m.cfg.width with
          | .eightBit => [.frame (.byte b) (.final k b)]
          | .fourBit => [.frame (.nibble (b.extractLsb' 4 4)) .innerNibble, .frame (.nibble (b.extractLsb' 0 4)) (.final k b)])
        ++ [.settle k b, .finish .ok]
      caller := .internalOp, ret := .nothing }
    ∧ exec (.settle k b) s = .next { s with
      cont := (match m.cfg.strategy with
        | .fixedDelay => [.delay (if k = .instruction ∧ (b = 0x01#8 ∨ b = 0x02#8 ∨ b = 0x03#8) then m.cfg.tSettleLong else m.cfg.tSettleCmd)]
        | .busyPoll => [.poll]) ++ [.finish .ok]
      caller := .internalOp, ret := .nothing }

/-- R137, R138, R139: in Ready the public transfers start, but a function set of the other width; every other call is the fault of the guards,
in the order F1, F3, F5. The class mask of a function set: notes/assumptions/20.md. That `halfByte` is no guard is the model's choice (31.md). -/
def Obligations.PublicTransferGuards : Prop :=
  ∀ (s : State) (m : Instance) (b : Byte), Idle s m →
    (m.st.phase = .ready →
      exec (.sendData b) s = .next { s with cont := [.transfer .data b, .finish .ok], caller := .publicOp, ret := .nothing }
      ∧ (b.extractLsb' 5 3 = 0b001#3 ∧ b.getLsbD 4 ≠ decide (m.cfg.width = .eightBit) →
          exec (.sendInstruction b) s = .next (s.raise m .widthChangeRefused))
      ∧ (¬ (b.extractLsb' 5 3 = 0b001#3 ∧ b.getLsbD 4 ≠ decide (m.cfg.width = .eightBit)) →
          exec (.sendInstruction b) s = .next { s with
            cont := [.transfer .instruction b, .finish .ok], caller := .publicOp, ret := .nothing }))
    ∧ ((∃ o, m.st.phase = .failed o) ∨ m.st.phase = .aborted →
        exec (.sendData b) s = .next (s.raise m .instanceDead) ∧ exec (.sendInstruction b) s = .next (s.raise m .instanceDead))
    ∧ ((∀ o, m.st.phase ≠ .failed o) → m.st.phase ≠ .aborted → m.st.phase ≠ .ready →
        exec (.sendData b) s = .next (s.raise m .notReady) ∧ exec (.sendInstruction b) s = .next (s.raise m .notReady))

/-- R135 to R138: under FixedDelay a public transfer from resting lines always ends: it sends the frames of its byte, in order and with its
RS, then waits the settle, records `Ok` and emits it, and raises no fault, whatever the draws. The class mask and LongSet:
notes/assumptions/20.md. -/
def Obligations.FixedDelayTransferSendsItsByte : Prop :=
  ∀ (s : State) (m : Instance) (k : Kind) (b : Byte), Idle s m → s.abortIn = none → m.st.phase = .ready →
    m.cfg.strategy = .fixedDelay → Resting m.st → m.st.rs ≠ none → GapOver m.cfg m.st → Settled m.st →
    (k = .instruction → ¬ (b.extractLsb' 5 3 = 0b001#3 ∧ b.getLsbD 4 ≠ decide (m.cfg.width = .eightBit))) →
    ∃ u t m' w τ, exec (match k with | .instruction => .sendInstruction b | .data => .sendData b) s = .next u ∧ Runs u t ∧ t.cont = []
      ∧ t.inst = some m' ∧ t.ret = .outcome .ok ∧ m'.cfg = m.cfg ∧ t.calls = s.calls ∧ t.answers = s.answers
      ∧ m'.st.trace = m.st.trace ++ w ++ [.outcome .ok τ]
      ∧ w.length = (match m.cfg.width with | .eightBit => 1 | .fourBit => 2)
      ∧ writeFrames w = (match m.cfg.width with
          | .eightBit => [(k == .data, .byte b)]
          | .fourBit => [(k == .data, .nibble (b.extractLsb' 4 4)), (k == .data, .nibble (b.extractLsb' 0 4))])
      ∧ m'.st.result = some .ok ∧ m'.st.faults = [] ∧ m'.st.phase = .ready ∧ Resting m'.st ∧ m'.st.rs = some (k == .data)
      ∧ GapOver m.cfg m'.st ∧ Settled m'.st ∧ m'.st.pollIter = m.st.pollIter ∧ m'.st.lastBF = m.st.lastBF
      ∧ m.st.now + (if k = .instruction ∧ (b = 0x01#8 ∨ b = 0x02#8 ∨ b = 0x03#8) then m.cfg.tSettleLong else m.cfg.tSettleCmd) ≤ m'.st.now

/-- R135, R136, R190, R195: under BusyPoll a public transfer from resting lines sends the frames of its byte and then polls; with any device that
is busy for j iterations and then ready it ends with `Ok` and the bus back at rest, for every j the bound allows and all draws. The class mask:
notes/assumptions/20.md; how answers are given: 8.md, 26.md. -/
def Obligations.BusyPollTransferSendsItsByte : Prop :=
  ∀ (j : Nat) (s : State) (m : Instance) (k : Kind) (b : Byte) (l rest : List Byte), Idle s m → s.abortIn = none → m.st.phase = .ready →
    m.cfg.strategy = .busyPoll → Resting m.st → m.st.rs ≠ none → GapOver m.cfg m.st → Settled m.st →
    (k = .instruction → ¬ (b.extractLsb' 5 3 = 0b001#3 ∧ b.getLsbD 4 ≠ decide (m.cfg.width = .eightBit))) →
    (∀ n, m.cfg.pollBound = some n → j < n) → BusyThenReady m.cfg.width j l → s.answers = l ++ rest →
    ∃ u t m', exec (match k with | .instruction => .sendInstruction b | .data => .sendData b) s = .next u ∧ Runs u t ∧ t.cont = []
      ∧ t.inst = some m' ∧ t.ret = .outcome .ok ∧ m'.cfg = m.cfg ∧ t.answers = rest
      ∧ writeFrames m'.st.trace = writeFrames m.st.trace ++ (match m.cfg.width with
          | .eightBit => [(k == .data, .byte b)]
          | .fourBit => [(k == .data, .nibble (b.extractLsb' 4 4)), (k == .data, .nibble (b.extractLsb' 0 4))])
      ∧ m'.st.result = some .ok ∧ m'.st.faults = [] ∧ m'.st.phase = .ready ∧ Resting m'.st ∧ m'.st.rs = some false
      ∧ m'.st.pollIter = j ∧ m'.st.lastBF = some false ∧ m'.st.mon.settle = .noSettle ∧ GapOver m.cfg m'.st

/-! ### BusyFlagPoller (R190 to R199) -/

/-- R190, R191: the guards of `waitUntilReady` and its start. -/
def Obligations.PollGuards : Prop :=
  ∀ (s : State) (m : Instance), Idle s m →
    ((∃ o, m.st.phase = .failed o) ∨ m.st.phase = .aborted → exec .waitUntilReady s = .next (s.raise m .instanceDead))
    ∧ (m.st.phase = .poweringUp ∨ (∃ k, m.st.phase = .blindInit k) ∨ m.st.phase = .modeSelecting →
        exec .waitUntilReady s = .next (s.raise m .pollBeforeModeSelect))
    ∧ (m.st.phase = .functionSetting ∨ m.st.phase = .displayConfiguring ∨ m.st.phase = .clearing ∨ m.st.phase = .entryModeSetting
        ∨ m.st.phase = .ready →
        exec .waitUntilReady s = .next { s with
          cont := [.direction .inputWithPullup, .line .rs false, .line .rw true, .delay m.cfg.tSetup, .pollReset, .pollIteration,
            .pollTest, .finish .ok]
          caller := .publicOp, ret := .nothing })

/-- R88, R193, R194: one poll iteration in a read cycle returns DB7 of its first sample, after one read cycle under EightBit and two under
FourBit. How answers are given, and which levels FourBit samples: notes/assumptions/8.md, 26.md. R254: BF = 0 discharges the settle
obligation, BF = 1 leaves it. Called by itself it leaves `lastBF` (the model's choice, 29.md); RS = 1 is no fault (32.md). -/
def Obligations.PollIterationReturnsTheBusyFlag : Prop :=
  ∀ (s : State) (m : Instance) (r : Bit) (x y : Byte) (rest : List Byte), Idle s m → s.abortIn = none → m.st.e = some false →
    m.st.rw = some true → m.st.dir = some .inputWithPullup → m.st.rs = some r → GapOver m.cfg m.st →
    m.cfg.tSetup ≤ m.st.now - m.st.mon.lastChange → s.answers = x :: y :: rest →
    ∃ u t m', exec .pollIteration s = .next u ∧ Runs u t ∧ t.cont = [] ∧ t.inst = some m' ∧ t.ret = .bit (x.getLsbD 7)
      ∧ readCycles m'.st.trace = readCycles m.st.trace ++ (match m.cfg.width with
          | .eightBit => [.byte x]
          | .fourBit => [.nibble (x.extractLsb' 4 4), .nibble (y.extractLsb' 4 4)])
      ∧ t.answers = (match m.cfg.width with | .eightBit => y :: rest | .fourBit => rest)
      ∧ writeFrames m'.st.trace = writeFrames m.st.trace ∧ m'.st.faults = [] ∧ m'.st.e = some false ∧ m'.st.rw = m.st.rw
      ∧ m'.st.rs = m.st.rs ∧ m'.st.dir = m.st.dir ∧ m'.st.lastBF = m.st.lastBF
      ∧ m'.st.mon.settle = (if x.getLsbD 7 = false then .noSettle else m.st.mon.settle) ∧ m'.st.phase = m.st.phase

/-- R190, R195, R197 (95_test_vectors.md E5), R88: with any device that is busy for k iterations and then ready, for every k the bound allows, the
call returns `Ok` after k + 1 iterations with `pollIter = k`, the obligation discharged, and the bus back in output direction. How answers
are given: notes/assumptions/8.md, 26.md. -/
def Obligations.PollEndsAfterTheBusyIterations : Prop :=
  ∀ (k : Nat) (s : State) (m : Instance) (l rest : List Byte), Idle s m → s.abortIn = none → m.st.phase.pollUsable = true →
    m.st.phase.dead = false → Resting m.st → m.st.rs ≠ none → GapOver m.cfg m.st → (∀ n, m.cfg.pollBound = some n → k < n) →
    BusyThenReady m.cfg.width k l → s.answers = l ++ rest →
    ∃ u t m', exec .waitUntilReady s = .next u ∧ Runs u t ∧ t.cont = [] ∧ t.inst = some m' ∧ t.ret = .outcome .ok ∧ t.answers = rest
      ∧ m'.st.pollIter = k ∧ m'.st.lastBF = some false ∧ m'.st.result = some .ok ∧ m'.st.faults = [] ∧ m'.st.phase = m.st.phase
      ∧ m'.st.mon.settle = .noSettle ∧ Resting m'.st ∧ m'.st.rs = some false ∧ writeFrames m'.st.trace = writeFrames m.st.trace
      ∧ (readCycles m'.st.trace).length
          = (readCycles m.st.trace).length + (k + 1) * (match m.cfg.width with | .eightBit => 1 | .fourBit => 2)

/-- R196, R213, R197: with `POLL_BOUND = some n`, n busy iterations of any device end the call with `BusyFlagTimeout`, the bus restored and the
instance Failed; after that every public operation raises F1. So for `waitUntilReady`; for `sendInstruction` and `sendData`, after the frames of
their byte; and for `initialize`, at any of its four transfers, after the frames up to it. How answers are given: notes/assumptions/8.md,
26.md; the class mask and FS: 20.md. -/
def Obligations.BoundedPollTimesOut : Prop :=
  ∀ (n : Nat) (s : State) (m : Instance) (l rest : List Byte), Idle s m → s.abortIn = none → m.cfg.pollBound = some n → 0 < n →
    BusyAnswers m.cfg.width n l →
    (m.st.phase.pollUsable = true → m.st.phase.dead = false → Resting m.st → m.st.rs ≠ none → GapOver m.cfg m.st →
      s.answers = l ++ rest →
      ∃ u t m' τ, exec .waitUntilReady s = .next u ∧ Runs u t ∧ TimedOut t m' n ∧ t.answers = rest
        ∧ m'.st.trace.getLast? = some (.outcome .busyFlagTimeout τ) ∧ writeFrames m'.st.trace = writeFrames m.st.trace)
    ∧ (∀ (k : Kind) (b : Byte), m.st.phase = .ready → m.cfg.strategy = .busyPoll → Resting m.st → m.st.rs ≠ none → GapOver m.cfg m.st →
      Settled m.st → (k = .instruction → ¬ (b.extractLsb' 5 3 = 0b001#3 ∧ b.getLsbD 4 ≠ decide (m.cfg.width = .eightBit))) →
      s.answers = l ++ rest →
      ∃ u t m' τ, exec (match k with | .instruction => .sendInstruction b | .data => .sendData b) s = .next u ∧ Runs u t
        ∧ TimedOut t m' n ∧ t.answers = rest ∧ m'.st.trace.getLast? = some (.outcome .busyFlagTimeout τ)
        ∧ writeFrames m'.st.trace = writeFrames m.st.trace ++ (match m.cfg.width with
          | .eightBit => [(k == .data, .byte b)]
          | .fourBit => [(k == .data, .nibble (b.extractLsb' 4 4)), (k == .data, .nibble (b.extractLsb' 0 4))]))
    ∧ (∀ (t0 : Nat) (ks : List Nat) (ls : List (List Byte)), m.st = { St.init with now := t0 } → m.cfg.strategy = .busyPoll →
      ks.length < 4 → (∀ k ∈ ks, k < n) →
      List.Forall₂ (BusyThenReady m.cfg.width) ks ls → s.answers = ls.flatten ++ l ++ rest →
      ∃ u t m' τ, exec .initialise s = .next u ∧ Runs u t ∧ TimedOut t m' n ∧ t.answers = rest
        ∧ m'.st.trace.getLast? = some (.outcome .busyFlagTimeout τ)
        ∧ writeFrames m'.st.trace = (initFrames m.cfg).take (match m.cfg.width with
          | .eightBit => 4 + ks.length
          | .fourBit => 6 + 2 * ks.length))
    ∧ ∀ (t : State) (m' : Instance), TimedOut t m' n → ∀ b,
      exec (.sendData b) t = .next (t.raise m' .instanceDead) ∧ exec (.sendInstruction b) t = .next (t.raise m' .instanceDead)
        ∧ exec .waitUntilReady t = .next (t.raise m' .instanceDead) ∧ exec .initialise t = .next (t.raise m' .instanceDead)

/-- R199: with no bound and any device that answers busy, the call does not return: after any number k of busy iterations it is still polling. How
answers are given: notes/assumptions/8.md, 26.md. -/
def Obligations.UnboundedPollKeepsPolling : Prop :=
  ∀ (k : Nat) (s : State) (m : Instance) (l rest : List Byte), Idle s m → s.abortIn = none → m.st.phase.pollUsable = true →
    m.st.phase.dead = false → Resting m.st → m.st.rs ≠ none → GapOver m.cfg m.st → m.cfg.pollBound = none →
    BusyAnswers m.cfg.width k l → s.answers = l ++ rest →
    ∃ u t m', exec .waitUntilReady s = .next u ∧ Runs u t ∧ t.inst = some m' ∧ t.cont = [.pollIteration, .pollTest, .finish .ok]
      ∧ t.answers = rest ∧ m'.st.pollIter = k ∧ (0 < k → m'.st.lastBF = some true) ∧ m'.st.phase = m.st.phase
      ∧ m'.st.result = m.st.result ∧ m'.st.faults = []
      ∧ m.st.now + k * (m.cfg.tPollHigh + m.cfg.tPollLow) * (match m.cfg.width with | .eightBit => 1 | .fourBit => 2) ≤ m'.st.now

/-! ### InitSequencer (R160 to R176) -/

/-- R160 to R172, R94: the guards of `initialize`, in the order F1, F2, and its start: the driver's continuation is the whole sequence. FS is that
of `FunctionSetByteTable`. -/
def Obligations.InitialiseGuards : Prop :=
  ∀ (s : State) (m : Instance), Idle s m →
    ((∃ o, m.st.phase = .failed o) ∨ m.st.phase = .aborted → exec .initialise s = .next (s.raise m .instanceDead))
    ∧ ((∀ o, m.st.phase ≠ .failed o) → m.st.phase ≠ .aborted → m.st.phase ≠ .poweringUp →
        exec .initialise s = .next (s.raise m .initializeTwice))
    ∧ (m.st.phase = .poweringUp →
        exec .initialise s = .next { s with
          cont := [.configE, .configRS, .configRW, .configData, .delay m.cfg.tPower, .advance]
            ++ ([(.first, m.cfg.tBlind1), (.second, m.cfg.tBlind2), (.third, m.cfg.tBlind3)].flatMap fun q =>
              [.line .rs false, .line .rw false,
                .frame (match m.cfg.width with | .eightBit => .byte 0x30#8 | .fourBit => .nibble 0x3#4) (.blind q.1), .delay q.2, .advance])
            ++ (match m.cfg.width with
              | .fourBit => [.frame (.nibble 0x2#4) .modeSel, .delay m.cfg.tMode, .advance]
              | .eightBit => [.advance])
            ++ [.transfer .instruction (fsByte m.cfg), .advance, .transfer .instruction m.cfg.displayOffByte, .advance,
              .transfer .instruction 0x01#8, .advance, .transfer .instruction m.cfg.entryModeByte, .advance, .finish .ok]
          caller := .publicOp, ret := .nothing })

/-- R160 to R174, R176, R257: `initialize` on a new instance, for every configuration and all draws: it sends exactly the init frames with RS = 0,
ends in Ready with `Ok` and resting lines, and records no fault. Under FixedDelay it always completes, and the trace has no other bus event.
Under BusyPoll, the default, it completes with any device that is, in each of the four transfers, busy for any number of iterations the bound
allows and then ready; the read cycles are those of the iterations. N and F of FS: notes/assumptions/20.md; how answers are given: 8.md,
26.md. -/
def Obligations.InitialiseCompletes : Prop :=
  ∀ (s : State) (m : Instance) (t0 : Nat), Idle s m → s.abortIn = none → m.st = { St.init with now := t0 } →
    (m.cfg.strategy = .fixedDelay →
      ∃ u t m' w τ, exec .initialise s = .next u ∧ Runs u t ∧ t.cont = [] ∧ t.inst = some m' ∧ t.ret = .outcome .ok ∧ m'.cfg = m.cfg
        ∧ t.calls = s.calls ∧ t.answers = s.answers ∧ m'.st.phase = .ready ∧ m'.st.result = some .ok ∧ m'.st.faults = []
        ∧ m'.st.trace = w ++ [.outcome .ok τ] ∧ writeFrames w = initFrames m.cfg
        ∧ w.length = (match m.cfg.width with | .fourBit => 12 | .eightBit => 7)
        ∧ Resting m'.st ∧ m'.st.rs = some false ∧ GapOver m.cfg m'.st ∧ Settled m'.st
        ∧ t0 + m.cfg.tPower + m.cfg.tBlind1 + m.cfg.tBlind2 + m.cfg.tBlind3 ≤ m'.st.now)
    ∧ (m.cfg.strategy = .busyPoll → ∀ (k1 k2 k3 k4 : Nat) (ls : List (List Byte)) (rest : List Byte),
      (∀ n, m.cfg.pollBound = some n → k1 < n ∧ k2 < n ∧ k3 < n ∧ k4 < n) →
      List.Forall₂ (BusyThenReady m.cfg.width) [k1, k2, k3, k4] ls → s.answers = ls.flatten ++ rest →
      ∃ u t m' w τ, exec .initialise s = .next u ∧ Runs u t ∧ t.cont = [] ∧ t.inst = some m' ∧ t.ret = .outcome .ok ∧ m'.cfg = m.cfg
        ∧ t.answers = rest ∧ m'.st.phase = .ready ∧ m'.st.result = some .ok ∧ m'.st.faults = []
        ∧ m'.st.trace = w ++ [.outcome .ok τ] ∧ writeFrames w = initFrames m.cfg
        ∧ (readCycles w).length = (k1 + k2 + k3 + k4 + 4) * (match m.cfg.width with | .eightBit => 1 | .fourBit => 2)
        ∧ Resting m'.st ∧ m'.st.rs = some false ∧ GapOver m.cfg m'.st ∧ m'.st.mon.settle = .noSettle
        ∧ m'.st.pollIter = k4 ∧ m'.st.lastBF = some false
        ∧ t0 + m.cfg.tPower + m.cfg.tBlind1 + m.cfg.tBlind2 + m.cfg.tBlind3 ≤ m'.st.now)

/-! ### Abort (R214, R215) -/

/-- R215, R214: an abort of a dead instance has no effect; on any other whose driver runs, the abort path takes the place of whatever was going
on, but of an abort path. That this holds in an internal operation called by itself too is the model's choice (notes/assumptions/11.md); an
instance with a fault is left to `RaiseRecordsAndStops`. -/
def Obligations.AbortStartsItsPath : Prop :=
  ∀ (s : State) (m : Instance), s.inst = some m →
    ((∃ o, m.st.phase = .failed o) ∨ m.st.phase = .aborted → exec .abort s = .next s)
    ∧ ((∀ o, m.st.phase ≠ .failed o) → m.st.phase ≠ .aborted → m.st.faults = [] →
        (s.caller ≠ .abortPath ∨ s.cont = [] → exec .abort s = .next { s with
          cont := [.abortEnable, .abortReadWrite, .abortDirection, .abortFinish], caller := .abortPath, ret := .nothing })
        ∧ (s.caller = .abortPath → s.cont ≠ [] → exec .abort s = .next s))

/-- R215, R214, R198: an abort that lands anywhere, in the middle of any operation or between operations, ends with Enable low, RW low, the
data lines outputs (a line never configured stays so), the phase Aborted, and the outcome recorded and returned; RS stays and the settle
obligation is dropped; a write pulse cut short still emits its frame and sets or clears `halfByte` by its tag, and a pulse cut short is
recorded as a fall; the trace grows by that frame, by DIR Output where the lines were inputs (the latch is then a draw), and by RET Aborted.
The count `abortIn` and the internal operations it may land in are notes/assumptions/11.md, no frame where RS or the latch is unwritten 13.md,
the events' times before the draw 7.md, `halfByte` under EightBit 15.md. -/
def Obligations.AbortRestoresTheBus : Prop :=
  ∀ (s : State) (m : Instance), s.inst = some m → s.abortIn = some 0 → m.st.faults = [] → m.st.phase.dead = false →
    (s.caller = .abortPath → s.cont = []) →
    ∃ t m', Runs s t ∧ t.cont = [] ∧ t.inst = some m' ∧ t.ret = .outcome .aborted ∧ t.calls = s.calls ∧ m'.cfg = m.cfg
      ∧ m'.st.e = m.st.e.map (fun _ => false) ∧ m'.st.rw = m.st.rw.map (fun _ => false) ∧ m'.st.dir = m.st.dir.map (fun _ => .output)
      ∧ m'.st.rs = m.st.rs ∧ (m.st.dir ≠ some .inputWithPullup → m'.st.data = m.st.data)
      ∧ m'.st.phase = .aborted ∧ m'.st.result = some .aborted ∧ m'.st.faults = [] ∧ m'.st.mon.settle = .noSettle
      ∧ m'.st.pollIter = m.st.pollIter ∧ m'.st.lastBF = m.st.lastBF
      ∧ (∃ τ τ', m'.st.trace = m.st.trace ++ (match m.st.e, m.st.mon.riseKind, m.st.rs, m.st.data with
            | some true, some .write, some r, some p => [.wFrame r p m.st.now]
            | _, _, _, _ => [])
          ++ (if m.st.dir = some .inputWithPullup then [.dirChange .output τ] else []) ++ [.outcome .aborted τ']
        ∧ m.st.now ≤ τ ∧ τ ≤ τ' ∧ τ' ≤ m'.st.now)
      ∧ (m.st.dir = some .inputWithPullup → ∃ x, m'.st.data = some x ∧ x.width = m.cfg.width)
      ∧ m'.st.halfByte = (match m.st.e, m.st.mon.riseKind, m.st.mon.curTag with
          | some true, some .write, .innerNibble => true
          | some true, some .write, .final _ _ => false
          | _, _, _ => m.st.halfByte)
      ∧ (m.st.e = some true → m'.st.mon.riseAt = none ∧ m'.st.mon.riseKind = none
          ∧ m'.st.mon.lastFall = some (m.st.now, if m.st.mon.riseKind = some .write then m.st.mon.curTag else .read))
      ∧ (m.st.e ≠ some true → m'.st.mon.riseAt = m.st.mon.riseAt ∧ m'.st.mon.riseKind = m.st.mon.riseKind
          ∧ m'.st.mon.lastFall = m.st.mon.lastFall)
      ∧ m'.st.mon.curTag = m.st.mon.curTag ∧ m'.st.mon.lastChange = m.st.mon.lastChange ∧ m'.st.mon.anyRise = m.st.mon.anyRise

/-! ### Bus words (R81 to R84, R92) and command bytes (R89) -/

/-- R81 to R84: as instructions (the model's reading, notes/assumptions/16.md and 17.md), the words of the instance's width start the cycle
with their RS and RW, in every phase, and carry the ghost tag of R85's position (16.md): an instruction word is an init frame while fewer than 3
(EightBit) or 4 (FourBit) write frames are in the trace, and every other write word is a transfer's frame, under FourBit the lower nibble where an
upper one is pending; a word of the other width is refused (R92). -/
def Obligations.BusWordsStartTheirCycle : Prop :=
  ∀ (s : State) (m : Instance), Idle s m →
    (m.cfg.width = .eightBit → ∀ b : Byte,
      exec (.iw8 b) s = .next { s with
        cont := [.line .rs false, .line .rw false, .frame (.byte b) (match (writeFrames m.st.trace).length with
          | 0 => .blind .first
          | 1 => .blind .second
          | 2 => .blind .third
          | _ => .final .instruction b)]
        caller := .internalOp, ret := .nothing }
      ∧ exec (.dw8 b) s = .next { s with
        cont := [.line .rs true, .line .rw false, .frame (.byte b) (.final .data b)], caller := .internalOp, ret := .nothing }
      ∧ exec (.br8 b) s = .next { s with
        cont := [.line .rs false, .line .rw true, .delay m.cfg.tSetup, .line .e true, .delay m.cfg.tPollHigh,
          .read (some (.byte b)) false, .line .e false, .delay m.cfg.tPollLow]
        caller := .internalOp, ret := .nothing })
    ∧ (m.cfg.width = .fourBit → ∀ n : Nibble,
      (∃ tag, exec (.iw4 n) s = .next { s with
          cont := [.line .rs false, .line .rw false, .frame (.nibble n) tag], caller := .internalOp, ret := .nothing }
        ∧ ((writeFrames m.st.trace).length = 0 → tag = .blind .first) ∧ ((writeFrames m.st.trace).length = 1 → tag = .blind .second)
        ∧ ((writeFrames m.st.trace).length = 2 → tag = .blind .third) ∧ ((writeFrames m.st.trace).length = 3 → tag = .modeSel)
        ∧ (4 ≤ (writeFrames m.st.trace).length → (m.st.halfByte = false → tag = .innerNibble)
          ∧ ∀ r h, m.st.halfByte = true → (writeFrames m.st.trace).getLast? = some (r, .nibble h) → tag = .final .instruction (h ++ n)))
      ∧ (∃ tag, exec (.dw4 n) s = .next { s with
          cont := [.line .rs true, .line .rw false, .frame (.nibble n) tag], caller := .internalOp, ret := .nothing }
        ∧ (m.st.halfByte = false → tag = .innerNibble)
        ∧ ∀ r h, m.st.halfByte = true → (writeFrames m.st.trace).getLast? = some (r, .nibble h) → tag = .final .data (h ++ n))
      ∧ exec (.br4 n) s = .next { s with
        cont := [.line .rs false, .line .rw true, .delay m.cfg.tSetup, .line .e true, .delay m.cfg.tPollHigh,
          .read (some (.nibble n)) false, .line .e false, .delay m.cfg.tPollLow]
        caller := .internalOp, ret := .nothing })
    ∧ (m.cfg.width = .fourBit → ∀ b : Byte, exec (.iw8 b) s = .refused .wrongWidth ∧ exec (.dw8 b) s = .refused .wrongWidth
        ∧ exec (.br8 b) s = .refused .wrongWidth)
    ∧ (m.cfg.width = .eightBit → ∀ n : Nibble, exec (.iw4 n) s = .refused .wrongWidth ∧ exec (.dw4 n) s = .refused .wrongWidth
        ∧ exec (.br4 n) s = .refused .wrongWidth)

/-- R81, R82, R84: performing a write word adds exactly that word to the bus, and nothing else, and ends with no fault; so does a
lower nibble, in the middle of a byte with RS at its level, and under FourBit the words of a transfer set `halfByte` and clear it in turn. That a
word is performed, in every phase, and its tag are the model's choice (notes/assumptions/16.md). -/
def Obligations.WriteWordPutsItselfOnTheBus : Prop :=
  ∀ (s : State) (m : Instance) (k : Kind) (p : Pattern) (i : Instr), Idle s m → s.abortIn = none → p.width = m.cfg.width →
    (i = (match k, p with
      | .instruction, .byte b => .iw8 b
      | .data, .byte b => .dw8 b
      | .instruction, .nibble n => .iw4 n
      | .data, .nibble n => .dw4 n)) →
    m.st.e = some false → m.st.rw ≠ none → m.st.dir = some .output → m.st.rs ≠ none → (m.st.halfByte = true → m.st.rs = some (k == .data)) →
    GapOver m.cfg m.st → Settled m.st →
    ∃ u t m' τ, exec i s = .next u ∧ Runs u t ∧ t.cont = [] ∧ t.inst = some m'
      ∧ m'.st.trace = m.st.trace ++ [.wFrame (k == .data) p τ]
      ∧ Event.word (.wFrame (k == .data) p τ) = some (busWord (k == .data) false p)
      ∧ m'.st.faults = [] ∧ m'.st.e = some false ∧ m'.st.rs = some (k == .data) ∧ m'.st.rw = some false ∧ m'.st.data = some p
      ∧ m'.st.phase = m.st.phase ∧ m'.st.result = m.st.result
      ∧ (m.cfg.width = .fourBit → k = .data ∨ 4 ≤ (writeFrames m.st.trace).length →
        (m.st.halfByte = false → m'.st.halfByte = true)
        ∧ ∀ r h, m.st.halfByte = true → (writeFrames m.st.trace).getLast? = some (r, .nibble h) → m'.st.halfByte = false)

/-- R83: performing a read word in input direction adds exactly that word to the bus, and returns its data bits. That a word is performed, and in
every phase, is the model's choice (notes/assumptions/17.md). -/
def Obligations.ReadWordPutsItselfOnTheBus : Prop :=
  ∀ (s : State) (m : Instance) (p : Pattern) (i : Instr), Idle s m → s.abortIn = none → p.width = m.cfg.width →
    (i = (match p with | .byte b => .br8 b | .nibble n => .br4 n)) →
    m.st.e = some false → m.st.rw ≠ none → m.st.rs ≠ none → m.st.dir = some .inputWithPullup →
    (m.st.halfByte = true → m.st.rs = some false) → GapOver m.cfg m.st →
    ∃ u t m' τ, exec i s = .next u ∧ Runs u t ∧ t.cont = [] ∧ t.inst = some m' ∧ t.ret = .pattern p ∧ t.answers = s.answers
      ∧ m'.st.trace = m.st.trace ++ [.rCycle false p τ] ∧ Event.word (.rCycle false p τ) = some (busWord false true p)
      ∧ m'.st.faults = [] ∧ m'.st.e = some false ∧ m'.st.rs = some false ∧ m'.st.rw = some true ∧ m'.st.data = m.st.data
      ∧ m'.st.dir = m.st.dir ∧ m'.st.phase = m.st.phase ∧ m'.st.lastBF = m.st.lastBF

/-- R92: a word of the class (RS, RW) = (1, 1) is never produced: it is refused in every state. -/
def Obligations.ReservedWordRefused : Prop :=
  ∀ s : State, (∀ b, exec (.rsv8 b) s = .refused .reservedBusWord) ∧ ∀ n, exec (.rsv4 n) s = .refused .reservedBusWord

/-- R92: a pattern of another width than the instance's is refused. -/
def Obligations.WrongWidthRefused : Prop :=
  ∀ (s : State) (m : Instance) (p : Pattern) (tag : FallTag), s.inst = some m → p.width ≠ m.cfg.width →
    exec (.setDataLines p) s = .refused .wrongWidth ∧ exec (.writeFrame p tag) s = .refused .wrongWidth
      ∧ ∀ fs, p ∈ fs → exec (.decode fs) s = .refused .wrongWidth

/-- R89, R163, R166, R169 to R172: a command byte in the phase whose step sends it starts that step (the model's reading,
notes/assumptions/18.md, 19.md; N and F of FS 20.md). -/
def Obligations.CommandByteRunsItsInitStep : Prop :=
  ∀ (s : State) (m : Instance), Idle s m →
    (∀ k, m.st.phase = .blindInit k → exec .init8Bit s = .next { s with
      cont := [.line .rs false, .line .rw false, .frame (match m.cfg.width with | .eightBit => .byte 0x30#8 | .fourBit => .nibble 0x3#4) (.blind k),
        .delay (match k with | .first => m.cfg.tBlind1 | .second => m.cfg.tBlind2 | .third => m.cfg.tBlind3), .advance]
      caller := .publicOp, ret := .nothing })
    ∧ (m.st.phase = .modeSelecting → m.cfg.width = .fourBit → exec .mode4Bit s = .next { s with
      cont := [.frame (.nibble 0x2#4) .modeSel, .delay m.cfg.tMode, .advance], caller := .publicOp, ret := .nothing })
    ∧ (∀ dl n f x, m.st.phase = .functionSetting → functionSetByte dl n f x = fsByte m.cfg →
      exec (.functionSet dl n f x) s = .next { s with
        cont := [.transfer .instruction (fsByte m.cfg), .advance], caller := .publicOp, ret := .nothing })
    ∧ (m.st.phase = .clearing → exec .clear s = .next { s with
      cont := [.transfer .instruction 0x01#8, .advance], caller := .publicOp, ret := .nothing })
    ∧ (m.st.phase = .displayConfiguring → exec .displayOffByte s = .next { s with
      cont := [.transfer .instruction m.cfg.displayOffByte, .advance], caller := .publicOp, ret := .nothing })
    ∧ (m.st.phase = .entryModeSetting → exec .entryModeByte s = .next { s with
      cont := [.transfer .instruction m.cfg.entryModeByte, .advance], caller := .publicOp, ret := .nothing })

/-- R89, R90, R137, R139: a command byte outside the phase whose step sends it is `sendInstruction` of it, with every operand: in Ready it is sent, a
byte of the function-set class only where its DL is the instance's width, else it is F5; in every other phase that is not its own it is F3,
and on a dead instance F1. That a command byte is an instruction is the model's choice (notes/assumptions/18.md, 19.md); the class masks are
20.md. -/
def Obligations.CommandByteInReadyIsSent : Prop :=
  ∀ (s : State) (m : Instance), Idle s m →
    (m.st.phase = .ready →
      (∀ i b, (i = .displayOffByte ∧ b = m.cfg.displayOffByte) ∨ (i = .entryModeByte ∧ b = m.cfg.entryModeByte) →
        (¬ (b.extractLsb' 5 3 = 0b001#3 ∧ b.getLsbD 4 ≠ decide (m.cfg.width = .eightBit)) → exec i s = .next { s with
          cont := [.transfer .instruction b, .finish .ok], caller := .publicOp, ret := .nothing })
        ∧ (b.extractLsb' 5 3 = 0b001#3 ∧ b.getLsbD 4 ≠ decide (m.cfg.width = .eightBit) →
          exec i s = .next (s.raise m .widthChangeRefused)))
      ∧ exec .clear s = .next { s with cont := [.transfer .instruction 0x01#8, .finish .ok], caller := .publicOp, ret := .nothing }
      ∧ (∀ x, exec (.returnHome x) s = .next { s with
          cont := [.transfer .instruction (if x then 0x03#8 else 0x02#8), .finish .ok], caller := .publicOp, ret := .nothing })
      ∧ (∀ dl n f x, dl = decide (m.cfg.width = .eightBit) → exec (.functionSet dl n f x) s = .next { s with
          cont := [.transfer .instruction (functionSetByte dl n f x), .finish .ok], caller := .publicOp, ret := .nothing })
      ∧ (∀ dl n f x, dl ≠ decide (m.cfg.width = .eightBit) →
          exec (.functionSet dl n f x) s = .next (s.raise m .widthChangeRefused))
      ∧ (m.cfg.width = .eightBit → exec .init8Bit s = .next { s with
          cont := [.transfer .instruction 0x30#8, .finish .ok], caller := .publicOp, ret := .nothing })
      ∧ (m.cfg.width = .fourBit → exec .init8Bit s = .next (s.raise m .widthChangeRefused))
      ∧ (m.cfg.width = .fourBit → exec .mode4Bit s = .next { s with
          cont := [.transfer .instruction 0x20#8, .finish .ok], caller := .publicOp, ret := .nothing })
      ∧ (m.cfg.width = .eightBit → exec .mode4Bit s = .next (s.raise m .widthChangeRefused)))
    ∧ ((∀ o, m.st.phase ≠ .failed o) → m.st.phase ≠ .aborted → m.st.phase ≠ .ready →
      ((∀ k, m.st.phase ≠ .blindInit k) → exec .init8Bit s = .next (s.raise m .notReady))
      ∧ (¬ (m.st.phase = .modeSelecting ∧ m.cfg.width = .fourBit) → exec .mode4Bit s = .next (s.raise m .notReady))
      ∧ (∀ dl n f x, ¬ (m.st.phase = .functionSetting ∧ functionSetByte dl n f x = fsByte m.cfg) →
          exec (.functionSet dl n f x) s = .next (s.raise m .notReady))
      ∧ (m.st.phase ≠ .clearing → exec .clear s = .next (s.raise m .notReady))
      ∧ (∀ x, exec (.returnHome x) s = .next (s.raise m .notReady))
      ∧ (m.st.phase ≠ .displayConfiguring → exec .displayOffByte s = .next (s.raise m .notReady))
      ∧ (m.st.phase ≠ .entryModeSetting → exec .entryModeByte s = .next (s.raise m .notReady)))
    ∧ ((∃ o, m.st.phase = .failed o) ∨ m.st.phase = .aborted →
      ∀ i, i ∈ [Instr.init8Bit, .mode4Bit, .clear, .displayOffByte, .entryModeByte] ∨ (∃ x, i = .returnHome x)
        ∨ (∃ dl n f x, i = .functionSet dl n f x) → exec i s = .next (s.raise m .instanceDead))

/-- R89: the bytes of the function-set and return-home classes have the class's fixed bits and the fields where R89 puts them. -/
def Obligations.CommandByteClasses : Prop :=
  (∀ dl n f x, (functionSetByte dl n f x).extractLsb' 5 3 = 0b001#3 ∧ (functionSetByte dl n f x).getLsbD 4 = dl
      ∧ (functionSetByte dl n f x).getLsbD 3 = n ∧ (functionSetByte dl n f x).getLsbD 2 = f
      ∧ (functionSetByte dl n f x).extractLsb' 0 2 = x)
    ∧ ∀ x, (returnHomeByte x).extractLsb' 1 7 = 0b0000001#7 ∧ (returnHomeByte x).getLsbD 0 = x

/-! ### The timing monitor (R243 to R252) -/

/-- R243 to R246, R248, R250 to R252: what a rising edge of Enable finds, in the order of the checks: each violation is raised where none
before it is. TC-LOW comes after every fall, also after a blind attempt's or the mode select's whose own gap is over. -/
def Obligations.RiseChecksInOrder : Prop :=
  ∀ (s : State) (m : Instance), Idle s m → m.st.e = some false → (m.st.rw = some true ∨ (m.st.rw = some false ∧ m.st.dir = some .output)) →
    (m.st.mon.anyRise = false → m.st.now < m.cfg.tPower → exec (.setControlLine .e true) s = .next (s.raise m (.timingViolation .power)))
    ∧ ((m.st.mon.anyRise = true ∨ m.cfg.tPower ≤ m.st.now) →
      (∀ tf k, m.st.mon.lastFall = some (tf, .blind k) →
        m.st.now - tf < (match k with | .first => m.cfg.tBlind1 | .second => m.cfg.tBlind2 | .third => m.cfg.tBlind3) →
        exec (.setControlLine .e true) s = .next (s.raise m (.timingViolation (.blind k))))
      ∧ (∀ tf, m.st.mon.lastFall = some (tf, .modeSel) → m.st.now - tf < m.cfg.tMode →
        exec (.setControlLine .e true) s = .next (s.raise m (.timingViolation .mode)))
      ∧ (∀ tf tag, m.st.mon.lastFall = some (tf, tag) →
        (∀ k, tag = .blind k →
          (match k with | .first => m.cfg.tBlind1 | .second => m.cfg.tBlind2 | .third => m.cfg.tBlind3) ≤ m.st.now - tf) →
        (tag = .modeSel → m.cfg.tMode ≤ m.st.now - tf) →
        m.st.now - tf < (if tag = .read then m.cfg.tPollLow else m.cfg.tEnLow) →
        exec (.setControlLine .e true) s = .next (s.raise m (.timingViolation .low)))
      ∧ ((∀ tf tag, m.st.mon.lastFall = some (tf, tag) → gap m.cfg tag ≤ m.st.now - tf) →
        (m.st.now - m.st.mon.lastChange < m.cfg.tSetup → exec (.setControlLine .e true) s = .next (s.raise m (.timingViolation .setup)))
        ∧ (m.cfg.tSetup ≤ m.st.now - m.st.mon.lastChange → m.st.rw ≠ some true →
          (∀ t, m.st.mon.settle = .untilTime t → m.st.now < t →
            exec (.setControlLine .e true) s = .next (s.raise m (.timingViolation .settleTime)))
          ∧ (m.st.mon.settle = .untilBusyClear →
            exec (.setControlLine .e true) s = .next (s.raise m (.timingViolation .settleBusy))))))

/-- R247: a write pulse shorter than `T_PW_EN` is TC-PW at its falling edge, and Enable stays high. -/
def Obligations.ShortPulseIsViolation : Prop :=
  ∀ (s : State) (m : Instance) (tr : Nat), Idle s m → m.st.e = some true → m.st.mon.riseKind = some .write → m.st.rs ≠ none →
    m.st.data ≠ none → m.st.mon.riseAt = some tr → m.st.now - tr < m.cfg.tPwEn →
    exec (.setControlLine .e false) s = .next (s.raise m (.timingViolation .pw))

/-! ### The whole machine -/

/-- The machine's step on the host's next call is `exec` of the instruction it decodes to, the call taken off the list; where the call is no
instruction, it is refused by name. -/
def Obligations.StepRunsTheDecodedCall : Prop :=
  ∀ (s : State) (c : Call) (rest : List Call), s.abortIn ≠ some 0 → s.cont = [] → s.calls = c :: rest →
    (∀ i, decode c = .ok i → step s = exec i { s with calls := rest })
    ∧ ∀ e, decode c = .error e → step s = .refused (.undecodable e)

/-- A word of the opcode table placed by `withFetchWord` is what the next step runs, from every state. -/
def Obligations.FetchWordRunsNext : Prop :=
  ∀ (s : State) (nbits w : Nat) (i : Instr), decodeTableWord nbits w = some i →
    step (s.withFetchWord nbits w) = exec i { s with cont := [], abortIn := if s.abortIn = some 0 then none else s.abortIn }

/-- R9, R28, R215: a step of a driver in the middle of an operation takes the next action of its continuation; a due abort comes first. -/
def Obligations.StepTakesTheNextAction : Prop :=
  ∀ (s : State) (m : Instance), s.inst = some m → m.st.faults = [] →
    (s.abortIn = some 0 → step s = exec .abort { s with abortIn := none })
    ∧ ∀ a rest, s.abortIn ≠ some 0 → s.cont = a :: rest →
        step s = act a m { s with cont := rest, abortIn := s.abortIn.map (· - 1) }

/-- The invariant holds at reset, and no byte is half sent there. Reset's configuration is the model's (notes/assumptions/1.md). -/
def Obligations.InvHoldsAtReset : Prop := Inv State.reset ∧ NeverHalf State.reset

/-- R118, R32, R10, R27, R28, R215, R92: from every state that satisfies the invariant, every step leads to one that does: no contention, no
pattern of another width, a recorded rise exactly while Enable is high, nothing recorded in the future, no illegal failure, the abort
path in order, a poll in progress only where the phase allows one. R29: from every state in which an EightBit instance has no byte half sent,
every step leads to one that has none, unless it calls an internal operation with the ghost tag of an upper nibble (notes/assumptions/15.md). -/
def Obligations.StepKeepsInv : Prop :=
  ∀ s t : State, step s = .next t → (Inv s → Inv t) ∧ (NeverHalf s → ¬ SendsInnerNext s → NeverHalf t)

/-- R28, R175: from every state, the phase changes only as the transition table says: to the next step's phase, to Failed or to Aborted, and
never out of Failed or Aborted; construction apart. To Failed only from FunctionSetting to Ready, in every state that satisfies the invariant
of `StepKeepsInv`. -/
def Obligations.PhaseMovesOnlyAsTheTableSays : Prop :=
  ∀ (s t : State) (m : Instance), s.inst = some m → ¬ ConstructsNext s → step s = .next t →
    ∃ m', t.inst = some m' ∧ (m'.st.phase = m.st.phase
      ∨ (m.st.phase, m'.st.phase) ∈ [(Phase.poweringUp, Phase.blindInit .first), (.blindInit .first, .blindInit .second),
          (.blindInit .second, .blindInit .third), (.blindInit .third, .modeSelecting), (.modeSelecting, .functionSetting),
          (.functionSetting, .displayConfiguring), (.displayConfiguring, .clearing), (.clearing, .entryModeSetting),
          (.entryModeSetting, .ready)]
      ∨ (m.st.phase.dead = false ∧ m'.st.phase = .aborted)
      ∨ (m.st.phase.dead = false ∧ m'.st.phase = .failed .busyFlagTimeout
        ∧ (Inv s → m.st.phase ∈ [Phase.functionSetting, .displayConfiguring, .clearing, .entryModeSetting, .ready])))

/-- R10, R35, R36, R21: from every state, no step takes time back, removes an event or a fault, or changes the configuration; construction
apart. -/
def Obligations.HistoryOnlyGrows : Prop :=
  ∀ (s t : State) (m : Instance), s.inst = some m → ¬ ConstructsNext s → step s = .next t →
    ∃ m', t.inst = some m' ∧ m'.cfg = m.cfg ∧ m.st.now ≤ m'.st.now ∧ m.st.trace <+: m'.st.trace ∧ m.st.faults <+: m'.st.faults

/-- R218, R36: once a fault is recorded, no step changes the instance again; construction apart. -/
def Obligations.FaultedInstanceIsStuck : Prop :=
  ∀ (s t : State) (m : Instance), s.inst = some m → m.st.faults ≠ [] → ¬ ConstructsNext s → step s = .next t → t.inst = some m

/-- R119, R69: while Enable is high, no step changes RS, RW, the data latch or the direction; construction apart. -/
def Obligations.LinesStableWhileEnableHigh : Prop :=
  ∀ (s t : State) (m : Instance), Inv s → s.inst = some m → m.st.e = some true → ¬ ConstructsNext s → step s = .next t →
    ∃ m', t.inst = some m' ∧ m'.st.rs = m.st.rs ∧ m'.st.rw = m.st.rw ∧ m'.st.data = m.st.data ∧ m'.st.dir = m.st.dir

/-- R219: an operation called while another is in progress has no transition: it is refused. R219 speaks of public operations; that the internal
operations, `construct` and the command bytes are refused too is the model's choice (notes/assumptions/25.md, 18.md). -/
def Obligations.ReentrantCallRefused : Prop :=
  ∀ (s : State) (m : Instance) (i : Instr), s.inst = some m → s.cont ≠ [] →
    i ∈ [Instr.configureLines, .sample, .waitUntilReady, .pollIteration, .initialise, .init8Bit, .mode4Bit, .clear, .displayOffByte,
        .entryModeByte] ∨ (∃ l v, i = .setControlLine l v) ∨ (∃ d, i = .setDataDirection d) ∨ (∃ t g, i = .pulseEnable t g)
      ∨ (∃ d, i = .wait d) ∨ (∃ k, i = .selectRegister k) ∨ (∃ k b, i = .transfer k b) ∨ (∃ k b, i = .settle k b)
      ∨ (∃ b, i = .sendInstruction b) ∨ (∃ b, i = .sendData b) ∨ (∃ c, i = .construct c)
      ∨ (∃ dl n f x, i = .functionSet dl n f x) ∨ (∃ x, i = .returnHome x)
      ∨ (∃ p, p.width = m.cfg.width ∧ (i = .setDataLines p ∨ ∃ g, i = .writeFrame p g)) →
    exec i s = .refused .reentrantCall
end

