-- ==== Sys2Proof/Laws/Decode.lean ====
section
/-! SUPPORT. Each operand decoder reads back what its encoder wrote, with the bytes that follow untouched; and an operand decoder takes only
what its encoder writes. -/

set_option Elab.async false

namespace Sys2Proof

/-- The decoder reads back what the encoder wrote, whatever follows. -/
def ReadsBack {α : Type} (take : List Byte → Taken α) (put : α → List Byte) : Prop :=
  ∀ x rest, take (put x ++ rest) = .ok (x, rest)

/-- The decoder takes only encodings. -/
def TakesOnly {α : Type} (take : List Byte → Taken α) (put : α → List Byte) : Prop :=
  ∀ bs x rest, take bs = .ok (x, rest) → bs = put x ++ rest

@[simp] theorem andThen_ok {α β : Type} (a : α) (bs : List Byte) (f : α → List Byte → Taken β) :
    Taken.andThen (.ok (a, bs)) f = f a bs := rfl

@[simp] theorem andThen_error {α β : Type} (e : DecodeError) (f : α → List Byte → Taken β) :
    Taken.andThen (.error e : Taken α) f = .error e := rfl

theorem andThen_eq_ok {α β : Type} {x : Taken α} {f : α → List Byte → Taken β} {r : β × List Byte} (h : x.andThen f = .ok r) :
    ∃ a bs, x = .ok (a, bs) ∧ f a bs = .ok r := by
  cases x with
  | error e => cases h
  | ok q => exact ⟨q.1, q.2, rfl, h⟩

/-! ### Numbers -/

theorem natDigits_fuel (f g n : Nat) (hf : n ≤ f) (hg : n ≤ g) : natDigits f n = natDigits g n := by
  induction f generalizing g n with
  | zero =>
    obtain rfl : n = 0 := by omega
    cases g <;> simp [natDigits]
  | succ f ih =>
    cases g with
    | zero =>
      obtain rfl : n = 0 := by omega
      simp [natDigits]
    | succ g =>
      simp only [natDigits]
      split
      · rfl
      · rw [ih g (n / 128) (by omega) (by omega)]

theorem putNat_small {n : Nat} (h : n < 128) : putNat n = [BitVec.ofNat 8 n] := by
  unfold putNat
  cases n with
  | zero => rfl
  | succ k => simp [natDigits, h]

theorem putNat_big {n : Nat} (h : 128 ≤ n) : putNat n = BitVec.ofNat 8 (n % 128 + 128) :: putNat (n / 128) := by
  unfold putNat
  obtain ⟨k, rfl⟩ : ∃ k, n = k + 1 := ⟨n - 1, by omega⟩
  rw [natDigits, if_neg (by omega), natDigits_fuel k ((k + 1) / 128) ((k + 1) / 128) (by omega) (Nat.le_refl _)]

theorem takeNat_putNat : ReadsBack takeNat putNat := by
  intro n
  induction n using Nat.strongRecOn with
  | _ n ih =>
    intro rest
    by_cases h : n < 128
    · rw [putNat_small h]
      have : (BitVec.ofNat 8 n).toNat = n := by simp; omega
      simp only [List.singleton_append, takeNat, this, if_pos h]
    · have hb : (BitVec.ofNat 8 (n % 128 + 128)).toNat = n % 128 + 128 := by simp; omega
      rw [putNat_big (by omega), List.cons_append, takeNat, hb, if_neg (by omega), ih (n / 128) (by omega) rest]
      simp only
      rw [if_neg (by omega)]
      congr 2
      omega

theorem takeNat_only : TakesOnly takeNat putNat := by
  intro bs
  induction bs with
  | nil => intro x rest h; cases h
  | cons b bs ih =>
    intro x rest h
    rw [takeNat] at h
    split at h
    · rename_i hb
      cases h
      rw [putNat_small hb]
      simp
    · rename_i hb
      cases hn : takeNat bs with
      | error e => rw [hn] at h; cases h
      | ok q =>
        obtain ⟨n, r⟩ := q
        rw [hn] at h
        simp only at h
        split at h
        · cases h
        · cases h
          have hlt := b.isLt
          rw [putNat_big (by omega), ih n _ hn, List.cons_append]
          have h1 : (b.toNat - 128 + 128 * n) / 128 = n := by omega
          have h2 : (b.toNat - 128 + 128 * n) % 128 + 128 = b.toNat := by omega
          rw [h1, h2]
          simp

/-! ### Operands of a few values -/

theorem takeBit_putBit : ReadsBack takeBit putBit := by
  rintro (_ | _) rest <;> rfl

theorem takeWidth_putWidth : ReadsBack takeWidth putWidth := by
  rintro (_ | _) rest <;> rfl

theorem takeFont_putFont : ReadsBack takeFont putFont := by
  rintro (_ | _) rest <;> rfl

theorem takeStrategy_putStrategy : ReadsBack takeStrategy putStrategy := by
  rintro (_ | _) rest <;> rfl

theorem takeKind_putKind : ReadsBack takeKind putKind := by
  rintro (_ | _) rest <;> rfl

theorem takeDir_putDir : ReadsBack takeDir putDir := by
  rintro (_ | _) rest <;> rfl

theorem takeLine_putLine : ReadsBack takeLine putLine := by
  rintro (_ | _ | _) rest <;> rfl

theorem takePattern_putPattern : ReadsBack takePattern putPattern := by
  rintro (n | b) rest
  · have h := n.isLt
    have ht : (n.setWidth 8).toNat = n.toNat := by simp; omega
    have hs : (n.setWidth 8).setWidth 4 = n := by apply BitVec.eq_of_toNat_eq; simp
    simp only [putPattern, List.cons_append, List.nil_append, takePattern, if_true, ht, hs]
    rw [if_pos (by omega)]
  · rfl

theorem takeTag_putTag : ReadsBack takeTag putTag := by
  rintro ((_ | _ | _) | _ | _ | ⟨(_ | _), b⟩ | _) rest <;> rfl

theorem takeSignal_putSignal : ReadsBack takeSignal putSignal := by
  rintro (_ | _ | _ | k) rest
  · rfl
  · rfl
  · rfl
  · have h := k.isLt
    have ht : (BitVec.ofNat 8 k.val).toNat = k.val := by simp; omega
    simp only [putSignal, List.singleton_append, takeSignal, ht]
    rw [dif_pos h]

theorem takeBit_only : TakesOnly takeBit putBit := by
  rintro (_ | ⟨b, bs⟩) x rest h
  · cases h
  · simp only [takeBit] at h
    split_ifs at h <;> cases h <;> simp [putBit, *]

theorem takeWidth_only : TakesOnly takeWidth putWidth := by
  rintro (_ | ⟨b, bs⟩) x rest h
  · cases h
  · simp only [takeWidth] at h
    split_ifs at h <;> cases h <;> simp [putWidth, *]

theorem takeFont_only : TakesOnly takeFont putFont := by
  rintro (_ | ⟨b, bs⟩) x rest h
  · cases h
  · simp only [takeFont] at h
    split_ifs at h <;> cases h <;> simp [putFont, *]

theorem takeStrategy_only : TakesOnly takeStrategy putStrategy := by
  rintro (_ | ⟨b, bs⟩) x rest h
  · cases h
  · simp only [takeStrategy] at h
    split_ifs at h <;> cases h <;> simp [putStrategy, *]

theorem takeKind_only : TakesOnly takeKind putKind := by
  rintro (_ | ⟨b, bs⟩) x rest h
  · cases h
  · simp only [takeKind] at h
    split_ifs at h <;> cases h <;> simp [putKind, *]

theorem takeDir_only : TakesOnly takeDir putDir := by
  rintro (_ | ⟨b, bs⟩) x rest h
  · cases h
  · simp only [takeDir] at h
    split_ifs at h <;> cases h <;> simp [putDir, *]

theorem takeLine_only : TakesOnly takeLine putLine := by
  rintro (_ | ⟨b, bs⟩) x rest h
  · cases h
  · simp only [takeLine] at h
    split_ifs at h <;> cases h <;> simp [putLine, *]

theorem takePattern_only : TakesOnly takePattern putPattern := by
  rintro (_ | ⟨a, _ | ⟨b, bs⟩⟩) x rest h
  · cases h
  · cases h
  · simp only [takePattern] at h
    split_ifs at h with h1 h2 h3
    · cases h
      have hs : (b.setWidth 4).setWidth 8 = b := by apply BitVec.eq_of_toNat_eq; simp; omega
      simp only [putPattern, h1, hs, List.cons_append, List.nil_append]
    · cases h
      simp [putPattern, h3]

theorem takeTag_only : TakesOnly takeTag putTag := by
  rintro (_ | ⟨b, bs⟩) x rest h
  · cases h
  · simp only [takeTag] at h
    split_ifs at h <;> first | (cases h; simp [putTag, *]) | (cases bs <;> simp only at h <;> cases h <;> simp [putTag, *])

theorem takeSignal_only : TakesOnly takeSignal putSignal := by
  rintro (_ | ⟨b, bs⟩) x rest h
  · cases h
  · simp only [takeSignal] at h
    split_ifs at h <;> cases h <;> simp [putSignal, *]

/-! ### Composite operands -/

theorem takePin_putPin : ReadsBack takePin putPin := by
  rintro ⟨x, n⟩ rest
  simp only [takePin, putPin, List.append_assoc, takeSignal_putSignal x, andThen_ok, takeNat_putNat n]

theorem takePin_only : TakesOnly takePin putPin := by
  intro bs x rest h
  obtain ⟨y, b1, h1, h⟩ := andThen_eq_ok h
  obtain ⟨n, b2, h2, h⟩ := andThen_eq_ok h
  cases h
  rw [takeSignal_only _ _ _ h1, takeNat_only _ _ _ h2]
  simp [putPin]

theorem takeBound_putBound : ReadsBack takeBound putBound := by
  rintro (_ | n) rest
  · simp only [takeBound, putBound, takeNat_putNat 0, andThen_ok]
  · simp only [takeBound, putBound, takeNat_putNat (n + 1), andThen_ok]

theorem takeBound_only : TakesOnly takeBound putBound := by
  intro bs x rest h
  obtain ⟨n, b1, h1, h⟩ := andThen_eq_ok h
  cases h
  rw [takeNat_only _ _ _ h1]
  cases n <;> rfl

theorem takeMany_flatMap {α : Type} {take : List Byte → Taken α} {put : α → List Byte} (h : ReadsBack take put) (xs : List α)
    (rest : List Byte) : takeMany take xs.length (xs.flatMap put ++ rest) = .ok (xs, rest) := by
  induction xs with
  | nil => rfl
  | cons x xs ih =>
    simp only [List.flatMap_cons, List.append_assoc, List.length_cons, takeMany, h x, andThen_ok, ih]

theorem takeMany_only {α : Type} {take : List Byte → Taken α} {put : α → List Byte} (h : TakesOnly take put) (n : Nat) (bs : List Byte)
    (xs : List α) (rest : List Byte) (ht : takeMany take n bs = .ok (xs, rest)) : xs.length = n ∧ bs = xs.flatMap put ++ rest := by
  induction n generalizing bs xs rest with
  | zero => cases ht; exact ⟨rfl, rfl⟩
  | succ n ih =>
    obtain ⟨x, b1, h1, ht⟩ := andThen_eq_ok ht
    obtain ⟨ys, b2, h2, ht⟩ := andThen_eq_ok ht
    cases ht
    obtain ⟨h3, h4⟩ := ih _ _ _ h2
    refine ⟨by simp [h3], ?_⟩
    rw [h _ _ _ h1, h4]
    simp

theorem takeList_putList {α : Type} {take : List Byte → Taken α} {put : α → List Byte} (h : ReadsBack take put) :
    ReadsBack (takeList take) (putList put) := by
  intro xs rest
  simp only [takeList, putList, List.append_assoc, takeNat_putNat xs.length, andThen_ok, takeMany_flatMap h]

theorem takeList_only {α : Type} {take : List Byte → Taken α} {put : α → List Byte} (h : TakesOnly take put) :
    TakesOnly (takeList take) (putList put) := by
  intro bs xs rest ht
  obtain ⟨n, b1, h1, ht⟩ := andThen_eq_ok ht
  obtain ⟨h2, h3⟩ := takeMany_only h _ _ _ _ ht
  rw [takeNat_only _ _ _ h1, h3, putList, h2, List.append_assoc]

/-- The configuration record, of a `PINS` that is a map. -/
theorem takeCfg_putCfg (c : Cfg) (rest : List Byte) (h : isPinMap c.pins = true) : takeCfg (putCfg c ++ rest) = .ok (c, rest) := by
  simp only [takeCfg, putCfg, List.append_assoc, takeWidth_putWidth c.width, takeNat_putNat c.rows, takeFont_putFont c.font,
    takeStrategy_putStrategy c.strategy, takeBound_putBound c.pollBound, takeList_putList takePin_putPin c.pins,
    takeNat_putNat c.tPower, takeNat_putNat c.tBlind1, takeNat_putNat c.tBlind2, takeNat_putNat c.tBlind3, takeNat_putNat c.tMode,
    takeNat_putNat c.tPollHigh, takeNat_putNat c.tPollLow, takeNat_putNat c.tPwEn, takeNat_putNat c.tEnLow, takeNat_putNat c.tSetup,
    takeNat_putNat c.tSettleCmd, takeNat_putNat c.tSettleLong, andThen_ok, List.cons_append, takeByte, List.nil_append, h, if_true]

theorem takeCfg_only (bs : List Byte) (c : Cfg) (rest : List Byte) (h : takeCfg bs = .ok (c, rest)) :
    bs = putCfg c ++ rest ∧ isPinMap c.pins = true := by
  obtain ⟨x1, b1, h1, h⟩ := andThen_eq_ok h
  obtain ⟨x2, b2, h2, h⟩ := andThen_eq_ok h
  obtain ⟨x3, b3, h3, h⟩ := andThen_eq_ok h
  obtain ⟨x4, b4, h4, h⟩ := andThen_eq_ok h
  obtain ⟨x5, b5, h5, h⟩ := andThen_eq_ok h
  obtain ⟨x6, b6, h6, h⟩ := andThen_eq_ok h
  obtain ⟨x7, b7, h7, h⟩ := andThen_eq_ok h
  obtain ⟨x8, b8, h8, h⟩ := andThen_eq_ok h
  obtain ⟨x9, b9, h9, h⟩ := andThen_eq_ok h
  obtain ⟨x10, b10, h10, h⟩ := andThen_eq_ok h
  obtain ⟨x11, b11, h11, h⟩ := andThen_eq_ok h
  obtain ⟨x12, b12, h12, h⟩ := andThen_eq_ok h
  obtain ⟨x13, b13, h13, h⟩ := andThen_eq_ok h
  obtain ⟨x14, b14, h14, h⟩ := andThen_eq_ok h
  obtain ⟨x15, b15, h15, h⟩ := andThen_eq_ok h
  obtain ⟨x16, b16, h16, h⟩ := andThen_eq_ok h
  obtain ⟨x17, b17, h17, h⟩ := andThen_eq_ok h
  obtain ⟨x18, b18, h18, h⟩ := andThen_eq_ok h
  obtain ⟨x19, b19, h19, h⟩ := andThen_eq_ok h
  obtain ⟨x20, b20, h20, h⟩ := andThen_eq_ok h
  split at h
  · rename_i hp
    cases h
    refine ⟨?_, hp⟩
    have hb : ∀ {bs : List Byte} {b : Byte} {r : List Byte}, takeByte bs = .ok (b, r) → bs = b :: r := by
      rintro (_ | ⟨b, bs⟩) _ _ h
      · cases h
      · cases h; rfl
    rw [takeWidth_only _ _ _ h1, takeNat_only _ _ _ h2, takeFont_only _ _ _ h3, takeStrategy_only _ _ _ h4, takeBound_only _ _ _ h5,
      takeList_only takePin_only _ _ _ h6, takeNat_only _ _ _ h7, takeNat_only _ _ _ h8, takeNat_only _ _ _ h9, takeNat_only _ _ _ h10,
      takeNat_only _ _ _ h11, takeNat_only _ _ _ h12, takeNat_only _ _ _ h13, takeNat_only _ _ _ h14, takeNat_only _ _ _ h15,
      takeNat_only _ _ _ h16, takeNat_only _ _ _ h17, takeNat_only _ _ _ h18, hb h19, hb h20]
    simp [putCfg]
  · cases h

end Sys2Proof
end

