-- ==== Sys2Proof/Laws/State.lean ====
section
/-! SUPPORT. One lemma a field for each update of the state, so that no later proof unfolds a record update. -/

set_option Elab.async false

namespace Sys2Proof.Machine

/-! ### Updates of State -/

@[simp] theorem State.answerUsed_inst (s : State) : s.answerUsed.inst = s.inst := rfl
@[simp] theorem State.answerUsed_cont (s : State) : s.answerUsed.cont = s.cont := rfl
@[simp] theorem State.answerUsed_caller (s : State) : s.answerUsed.caller = s.caller := rfl
@[simp] theorem State.answerUsed_ret (s : State) : s.answerUsed.ret = s.ret := rfl
@[simp] theorem State.answerUsed_bf (s : State) : s.answerUsed.bf = s.bf := rfl
@[simp] theorem State.answerUsed_calls (s : State) : s.answerUsed.calls = s.calls := rfl
@[simp] theorem State.answerUsed_abortIn (s : State) : s.answerUsed.abortIn = s.abortIn := rfl
@[simp] theorem State.answerUsed_delays (s : State) : s.answerUsed.delays = s.delays := rfl
@[simp] theorem State.answerUsed_answers (s : State) : s.answerUsed.answers = s.answers.tail := rfl
@[simp] theorem State.answerUsed_latches (s : State) : s.answerUsed.latches = s.latches := rfl
@[simp] theorem State.answerUsed_draws (s : State) : s.answerUsed.draws = s.draws + 1 := rfl

@[simp] theorem State.latchUsed_inst (s : State) : s.latchUsed.inst = s.inst := rfl
@[simp] theorem State.latchUsed_cont (s : State) : s.latchUsed.cont = s.cont := rfl
@[simp] theorem State.latchUsed_caller (s : State) : s.latchUsed.caller = s.caller := rfl
@[simp] theorem State.latchUsed_ret (s : State) : s.latchUsed.ret = s.ret := rfl
@[simp] theorem State.latchUsed_bf (s : State) : s.latchUsed.bf = s.bf := rfl
@[simp] theorem State.latchUsed_calls (s : State) : s.latchUsed.calls = s.calls := rfl
@[simp] theorem State.latchUsed_abortIn (s : State) : s.latchUsed.abortIn = s.abortIn := rfl
@[simp] theorem State.latchUsed_delays (s : State) : s.latchUsed.delays = s.delays := rfl
@[simp] theorem State.latchUsed_answers (s : State) : s.latchUsed.answers = s.answers := rfl
@[simp] theorem State.latchUsed_latches (s : State) : s.latchUsed.latches = s.latches.tail := rfl
@[simp] theorem State.latchUsed_draws (s : State) : s.latchUsed.draws = s.draws + 1 := rfl

@[simp] theorem State.put_inst (s : State) (m : Instance) (st : St) : (s.put m st).inst = some { m with st := st } := rfl
@[simp] theorem State.put_cont (s : State) (m : Instance) (st : St) : (s.put m st).cont = s.cont := rfl
@[simp] theorem State.put_caller (s : State) (m : Instance) (st : St) : (s.put m st).caller = s.caller := rfl
@[simp] theorem State.put_ret (s : State) (m : Instance) (st : St) : (s.put m st).ret = s.ret := rfl
@[simp] theorem State.put_bf (s : State) (m : Instance) (st : St) : (s.put m st).bf = s.bf := rfl
@[simp] theorem State.put_calls (s : State) (m : Instance) (st : St) : (s.put m st).calls = s.calls := rfl
@[simp] theorem State.put_abortIn (s : State) (m : Instance) (st : St) : (s.put m st).abortIn = s.abortIn := rfl
@[simp] theorem State.put_delays (s : State) (m : Instance) (st : St) : (s.put m st).delays = s.delays := rfl
@[simp] theorem State.put_answers (s : State) (m : Instance) (st : St) : (s.put m st).answers = s.answers := rfl
@[simp] theorem State.put_latches (s : State) (m : Instance) (st : St) : (s.put m st).latches = s.latches := rfl
@[simp] theorem State.put_draws (s : State) (m : Instance) (st : St) : (s.put m st).draws = s.draws := rfl

@[simp] theorem State.commit_inst (s : State) (m : Instance) (st : St) (d : Nat) : (s.commit m st d).inst = some { m with st := { st with now := st.now + (d + s.nextDelay) } } := rfl
@[simp] theorem State.commit_cont (s : State) (m : Instance) (st : St) (d : Nat) : (s.commit m st d).cont = s.cont := rfl
@[simp] theorem State.commit_caller (s : State) (m : Instance) (st : St) (d : Nat) : (s.commit m st d).caller = s.caller := rfl
@[simp] theorem State.commit_ret (s : State) (m : Instance) (st : St) (d : Nat) : (s.commit m st d).ret = s.ret := rfl
@[simp] theorem State.commit_bf (s : State) (m : Instance) (st : St) (d : Nat) : (s.commit m st d).bf = s.bf := rfl
@[simp] theorem State.commit_calls (s : State) (m : Instance) (st : St) (d : Nat) : (s.commit m st d).calls = s.calls := rfl
@[simp] theorem State.commit_abortIn (s : State) (m : Instance) (st : St) (d : Nat) : (s.commit m st d).abortIn = s.abortIn := rfl
@[simp] theorem State.commit_delays (s : State) (m : Instance) (st : St) (d : Nat) : (s.commit m st d).delays = s.delays.tail := rfl
@[simp] theorem State.commit_answers (s : State) (m : Instance) (st : St) (d : Nat) : (s.commit m st d).answers = s.answers := rfl
@[simp] theorem State.commit_latches (s : State) (m : Instance) (st : St) (d : Nat) : (s.commit m st d).latches = s.latches := rfl
@[simp] theorem State.commit_draws (s : State) (m : Instance) (st : St) (d : Nat) : (s.commit m st d).draws = s.draws + 1 := rfl

@[simp] theorem State.raise_inst (s : State) (m : Instance) (f : ModelFault) : (s.raise m f).inst = some { m with st := { m.st with faults := m.st.faults ++ [f] } } := rfl
@[simp] theorem State.raise_cont (s : State) (m : Instance) (f : ModelFault) : (s.raise m f).cont = [] := rfl
@[simp] theorem State.raise_caller (s : State) (m : Instance) (f : ModelFault) : (s.raise m f).caller = s.caller := rfl
@[simp] theorem State.raise_ret (s : State) (m : Instance) (f : ModelFault) : (s.raise m f).ret = .nothing := rfl
@[simp] theorem State.raise_bf (s : State) (m : Instance) (f : ModelFault) : (s.raise m f).bf = s.bf := rfl
@[simp] theorem State.raise_calls (s : State) (m : Instance) (f : ModelFault) : (s.raise m f).calls = s.calls := rfl
@[simp] theorem State.raise_abortIn (s : State) (m : Instance) (f : ModelFault) : (s.raise m f).abortIn = s.abortIn := rfl
@[simp] theorem State.raise_delays (s : State) (m : Instance) (f : ModelFault) : (s.raise m f).delays = s.delays := rfl
@[simp] theorem State.raise_answers (s : State) (m : Instance) (f : ModelFault) : (s.raise m f).answers = s.answers := rfl
@[simp] theorem State.raise_latches (s : State) (m : Instance) (f : ModelFault) : (s.raise m f).latches = s.latches := rfl
@[simp] theorem State.raise_draws (s : State) (m : Instance) (f : ModelFault) : (s.raise m f).draws = s.draws := rfl

@[simp] theorem State.push_inst (s : State) (steps : List Act) : (s.push steps).inst = s.inst := rfl
@[simp] theorem State.push_cont (s : State) (steps : List Act) : (s.push steps).cont = steps ++ s.cont := rfl
@[simp] theorem State.push_caller (s : State) (steps : List Act) : (s.push steps).caller = s.caller := rfl
@[simp] theorem State.push_ret (s : State) (steps : List Act) : (s.push steps).ret = s.ret := rfl
@[simp] theorem State.push_bf (s : State) (steps : List Act) : (s.push steps).bf = s.bf := rfl
@[simp] theorem State.push_calls (s : State) (steps : List Act) : (s.push steps).calls = s.calls := rfl
@[simp] theorem State.push_abortIn (s : State) (steps : List Act) : (s.push steps).abortIn = s.abortIn := rfl
@[simp] theorem State.push_delays (s : State) (steps : List Act) : (s.push steps).delays = s.delays := rfl
@[simp] theorem State.push_answers (s : State) (steps : List Act) : (s.push steps).answers = s.answers := rfl
@[simp] theorem State.push_latches (s : State) (steps : List Act) : (s.push steps).latches = s.latches := rfl
@[simp] theorem State.push_draws (s : State) (steps : List Act) : (s.push steps).draws = s.draws := rfl

@[simp] theorem State.tick_inst (s : State) : s.tick.inst = s.inst := rfl
@[simp] theorem State.tick_cont (s : State) : s.tick.cont = s.cont := rfl
@[simp] theorem State.tick_caller (s : State) : s.tick.caller = s.caller := rfl
@[simp] theorem State.tick_ret (s : State) : s.tick.ret = s.ret := rfl
@[simp] theorem State.tick_bf (s : State) : s.tick.bf = s.bf := rfl
@[simp] theorem State.tick_calls (s : State) : s.tick.calls = s.calls := rfl
@[simp] theorem State.tick_abortIn (s : State) : s.tick.abortIn = s.abortIn.map (· - 1) := rfl
@[simp] theorem State.tick_delays (s : State) : s.tick.delays = s.delays := rfl
@[simp] theorem State.tick_answers (s : State) : s.tick.answers = s.answers := rfl
@[simp] theorem State.tick_latches (s : State) : s.tick.latches = s.latches := rfl
@[simp] theorem State.tick_draws (s : State) : s.tick.draws = s.draws := rfl

/-! ### Updates of St -/

@[simp] theorem St.rise_phase (s : St) : s.rise.phase = s.phase := rfl
@[simp] theorem St.rise_e (s : St) : s.rise.e = some true := rfl
@[simp] theorem St.rise_rs (s : St) : s.rise.rs = s.rs := rfl
@[simp] theorem St.rise_rw (s : St) : s.rise.rw = s.rw := rfl
@[simp] theorem St.rise_data (s : St) : s.rise.data = s.data := rfl
@[simp] theorem St.rise_dir (s : St) : s.rise.dir = s.dir := rfl
@[simp] theorem St.rise_halfByte (s : St) : s.rise.halfByte = s.halfByte := rfl
@[simp] theorem St.rise_pollIter (s : St) : s.rise.pollIter = s.pollIter := rfl
@[simp] theorem St.rise_lastBF (s : St) : s.rise.lastBF = s.lastBF := rfl
@[simp] theorem St.rise_now (s : St) : s.rise.now = s.now := rfl
@[simp] theorem St.rise_mon (s : St) : s.rise.mon = { s.mon with riseAt := some s.now, riseKind := some s.cycleKind, anyRise := true, settle := s.settleAfterRise } := rfl
@[simp] theorem St.rise_trace (s : St) : s.rise.trace = s.trace := rfl
@[simp] theorem St.rise_faults (s : St) : s.rise.faults = s.faults := rfl
@[simp] theorem St.rise_result (s : St) : s.rise.result = s.result := rfl

@[simp] theorem St.busyClear_phase (s : St) : s.busyClear.phase = s.phase := rfl
@[simp] theorem St.busyClear_e (s : St) : s.busyClear.e = s.e := rfl
@[simp] theorem St.busyClear_rs (s : St) : s.busyClear.rs = s.rs := rfl
@[simp] theorem St.busyClear_rw (s : St) : s.busyClear.rw = s.rw := rfl
@[simp] theorem St.busyClear_data (s : St) : s.busyClear.data = s.data := rfl
@[simp] theorem St.busyClear_dir (s : St) : s.busyClear.dir = s.dir := rfl
@[simp] theorem St.busyClear_halfByte (s : St) : s.busyClear.halfByte = s.halfByte := rfl
@[simp] theorem St.busyClear_pollIter (s : St) : s.busyClear.pollIter = s.pollIter := rfl
@[simp] theorem St.busyClear_lastBF (s : St) : s.busyClear.lastBF = s.lastBF := rfl
@[simp] theorem St.busyClear_now (s : St) : s.busyClear.now = s.now := rfl
@[simp] theorem St.busyClear_mon (s : St) : s.busyClear.mon = { s.mon with settle := .noSettle } := rfl
@[simp] theorem St.busyClear_trace (s : St) : s.busyClear.trace = s.trace := rfl
@[simp] theorem St.busyClear_faults (s : St) : s.busyClear.faults = s.faults := rfl
@[simp] theorem St.busyClear_result (s : St) : s.busyClear.result = s.result := rfl

@[simp] theorem dataEffect_phase (p : Pattern) (s : St) : (dataEffect p s).phase = s.phase := rfl
@[simp] theorem dataEffect_e (p : Pattern) (s : St) : (dataEffect p s).e = s.e := rfl
@[simp] theorem dataEffect_rs (p : Pattern) (s : St) : (dataEffect p s).rs = s.rs := rfl
@[simp] theorem dataEffect_rw (p : Pattern) (s : St) : (dataEffect p s).rw = s.rw := rfl
@[simp] theorem dataEffect_data (p : Pattern) (s : St) : (dataEffect p s).data = some p := rfl
@[simp] theorem dataEffect_dir (p : Pattern) (s : St) : (dataEffect p s).dir = s.dir := rfl
@[simp] theorem dataEffect_halfByte (p : Pattern) (s : St) : (dataEffect p s).halfByte = s.halfByte := rfl
@[simp] theorem dataEffect_pollIter (p : Pattern) (s : St) : (dataEffect p s).pollIter = s.pollIter := rfl
@[simp] theorem dataEffect_lastBF (p : Pattern) (s : St) : (dataEffect p s).lastBF = s.lastBF := rfl
@[simp] theorem dataEffect_now (p : Pattern) (s : St) : (dataEffect p s).now = s.now := rfl
@[simp] theorem dataEffect_mon (p : Pattern) (s : St) : (dataEffect p s).mon = { s.mon with lastChange := s.now } := rfl
@[simp] theorem dataEffect_trace (p : Pattern) (s : St) : (dataEffect p s).trace = s.trace := rfl
@[simp] theorem dataEffect_faults (p : Pattern) (s : St) : (dataEffect p s).faults = s.faults := rfl
@[simp] theorem dataEffect_result (p : Pattern) (s : St) : (dataEffect p s).result = s.result := rfl

@[simp] theorem configDataEffect_phase (w : Width) (s : St) : (configDataEffect w s).phase = s.phase := rfl
@[simp] theorem configDataEffect_e (w : Width) (s : St) : (configDataEffect w s).e = s.e := rfl
@[simp] theorem configDataEffect_rs (w : Width) (s : St) : (configDataEffect w s).rs = s.rs := rfl
@[simp] theorem configDataEffect_rw (w : Width) (s : St) : (configDataEffect w s).rw = s.rw := rfl
@[simp] theorem configDataEffect_data (w : Width) (s : St) : (configDataEffect w s).data = some (zeroPattern w) := rfl
@[simp] theorem configDataEffect_dir (w : Width) (s : St) : (configDataEffect w s).dir = some .output := rfl
@[simp] theorem configDataEffect_halfByte (w : Width) (s : St) : (configDataEffect w s).halfByte = s.halfByte := rfl
@[simp] theorem configDataEffect_pollIter (w : Width) (s : St) : (configDataEffect w s).pollIter = s.pollIter := rfl
@[simp] theorem configDataEffect_lastBF (w : Width) (s : St) : (configDataEffect w s).lastBF = s.lastBF := rfl
@[simp] theorem configDataEffect_now (w : Width) (s : St) : (configDataEffect w s).now = s.now := rfl
@[simp] theorem configDataEffect_mon (w : Width) (s : St) : (configDataEffect w s).mon = { s.mon with lastChange := s.now } := rfl
@[simp] theorem configDataEffect_trace (w : Width) (s : St) : (configDataEffect w s).trace = s.trace := rfl
@[simp] theorem configDataEffect_faults (w : Width) (s : St) : (configDataEffect w s).faults = s.faults := rfl
@[simp] theorem configDataEffect_result (w : Width) (s : St) : (configDataEffect w s).result = s.result := rfl

@[simp] theorem sampleEffect_phase (p : Pattern) (s : St) : (sampleEffect p s).phase = s.phase := rfl
@[simp] theorem sampleEffect_e (p : Pattern) (s : St) : (sampleEffect p s).e = s.e := rfl
@[simp] theorem sampleEffect_rs (p : Pattern) (s : St) : (sampleEffect p s).rs = s.rs := rfl
@[simp] theorem sampleEffect_rw (p : Pattern) (s : St) : (sampleEffect p s).rw = s.rw := rfl
@[simp] theorem sampleEffect_data (p : Pattern) (s : St) : (sampleEffect p s).data = s.data := rfl
@[simp] theorem sampleEffect_dir (p : Pattern) (s : St) : (sampleEffect p s).dir = s.dir := rfl
@[simp] theorem sampleEffect_halfByte (p : Pattern) (s : St) : (sampleEffect p s).halfByte = s.halfByte := rfl
@[simp] theorem sampleEffect_pollIter (p : Pattern) (s : St) : (sampleEffect p s).pollIter = s.pollIter := rfl
@[simp] theorem sampleEffect_lastBF (p : Pattern) (s : St) : (sampleEffect p s).lastBF = s.lastBF := rfl
@[simp] theorem sampleEffect_now (p : Pattern) (s : St) : (sampleEffect p s).now = s.now := rfl
@[simp] theorem sampleEffect_mon (p : Pattern) (s : St) : (sampleEffect p s).mon = s.mon := rfl
@[simp] theorem sampleEffect_trace (p : Pattern) (s : St) : (sampleEffect p s).trace = s.trace ++ (match s.rs with | some r => [.rCycle r p s.now] | none => []) := rfl
@[simp] theorem sampleEffect_faults (p : Pattern) (s : St) : (sampleEffect p s).faults = s.faults := rfl
@[simp] theorem sampleEffect_result (p : Pattern) (s : St) : (sampleEffect p s).result = s.result := rfl

@[simp] theorem St.abortFinish_phase (s : St) : s.abortFinish.phase = s.phase.endIn .aborted := rfl
@[simp] theorem St.abortFinish_e (s : St) : s.abortFinish.e = s.e := rfl
@[simp] theorem St.abortFinish_rs (s : St) : s.abortFinish.rs = s.rs := rfl
@[simp] theorem St.abortFinish_rw (s : St) : s.abortFinish.rw = s.rw := rfl
@[simp] theorem St.abortFinish_data (s : St) : s.abortFinish.data = s.data := rfl
@[simp] theorem St.abortFinish_dir (s : St) : s.abortFinish.dir = s.dir := rfl
@[simp] theorem St.abortFinish_halfByte (s : St) : s.abortFinish.halfByte = s.halfByte := rfl
@[simp] theorem St.abortFinish_pollIter (s : St) : s.abortFinish.pollIter = s.pollIter := rfl
@[simp] theorem St.abortFinish_lastBF (s : St) : s.abortFinish.lastBF = s.lastBF := rfl
@[simp] theorem St.abortFinish_now (s : St) : s.abortFinish.now = s.now := rfl
@[simp] theorem St.abortFinish_mon (s : St) : s.abortFinish.mon = { s.mon with settle := .noSettle } := rfl
@[simp] theorem St.abortFinish_trace (s : St) : s.abortFinish.trace = s.trace ++ [.outcome .aborted s.now] := rfl
@[simp] theorem St.abortFinish_faults (s : St) : s.abortFinish.faults = s.faults := rfl
@[simp] theorem St.abortFinish_result (s : St) : s.abortFinish.result = some .aborted := rfl

/-! ### Conditional updates of St: the fields no branch writes -/

@[simp] theorem St.fall_phase (c : Cfg) (s : St) : (s.fall c).phase = s.phase := by
  unfold St.fall; (repeat' split) <;> rfl
@[simp] theorem St.fall_rs (c : Cfg) (s : St) : (s.fall c).rs = s.rs := by
  unfold St.fall; (repeat' split) <;> rfl
@[simp] theorem St.fall_rw (c : Cfg) (s : St) : (s.fall c).rw = s.rw := by
  unfold St.fall; (repeat' split) <;> rfl
@[simp] theorem St.fall_data (c : Cfg) (s : St) : (s.fall c).data = s.data := by
  unfold St.fall; (repeat' split) <;> rfl
@[simp] theorem St.fall_dir (c : Cfg) (s : St) : (s.fall c).dir = s.dir := by
  unfold St.fall; (repeat' split) <;> rfl
@[simp] theorem St.fall_pollIter (c : Cfg) (s : St) : (s.fall c).pollIter = s.pollIter := by
  unfold St.fall; (repeat' split) <;> rfl
@[simp] theorem St.fall_lastBF (c : Cfg) (s : St) : (s.fall c).lastBF = s.lastBF := by
  unfold St.fall; (repeat' split) <;> rfl
@[simp] theorem St.fall_now (c : Cfg) (s : St) : (s.fall c).now = s.now := by
  unfold St.fall; (repeat' split) <;> rfl
@[simp] theorem St.fall_faults (c : Cfg) (s : St) : (s.fall c).faults = s.faults := by
  unfold St.fall; (repeat' split) <;> rfl
@[simp] theorem St.fall_result (c : Cfg) (s : St) : (s.fall c).result = s.result := by
  unfold St.fall; (repeat' split) <;> rfl

@[simp] theorem St.abortEnable_phase (s : St) : s.abortEnable.phase = s.phase := by
  unfold St.abortEnable; (repeat' split) <;> rfl
@[simp] theorem St.abortEnable_rs (s : St) : s.abortEnable.rs = s.rs := by
  unfold St.abortEnable; (repeat' split) <;> rfl
@[simp] theorem St.abortEnable_rw (s : St) : s.abortEnable.rw = s.rw := by
  unfold St.abortEnable; (repeat' split) <;> rfl
@[simp] theorem St.abortEnable_data (s : St) : s.abortEnable.data = s.data := by
  unfold St.abortEnable; (repeat' split) <;> rfl
@[simp] theorem St.abortEnable_dir (s : St) : s.abortEnable.dir = s.dir := by
  unfold St.abortEnable; (repeat' split) <;> rfl
@[simp] theorem St.abortEnable_pollIter (s : St) : s.abortEnable.pollIter = s.pollIter := by
  unfold St.abortEnable; (repeat' split) <;> rfl
@[simp] theorem St.abortEnable_lastBF (s : St) : s.abortEnable.lastBF = s.lastBF := by
  unfold St.abortEnable; (repeat' split) <;> rfl
@[simp] theorem St.abortEnable_now (s : St) : s.abortEnable.now = s.now := by
  unfold St.abortEnable; (repeat' split) <;> rfl
@[simp] theorem St.abortEnable_faults (s : St) : s.abortEnable.faults = s.faults := by
  unfold St.abortEnable; (repeat' split) <;> rfl
@[simp] theorem St.abortEnable_result (s : St) : s.abortEnable.result = s.result := by
  unfold St.abortEnable; (repeat' split) <;> rfl

@[simp] theorem St.abortReadWrite_phase (s : St) : s.abortReadWrite.phase = s.phase := by
  unfold St.abortReadWrite; (repeat' split) <;> rfl
@[simp] theorem St.abortReadWrite_e (s : St) : s.abortReadWrite.e = s.e := by
  unfold St.abortReadWrite; (repeat' split) <;> rfl
@[simp] theorem St.abortReadWrite_rs (s : St) : s.abortReadWrite.rs = s.rs := by
  unfold St.abortReadWrite; (repeat' split) <;> rfl
@[simp] theorem St.abortReadWrite_data (s : St) : s.abortReadWrite.data = s.data := by
  unfold St.abortReadWrite; (repeat' split) <;> rfl
@[simp] theorem St.abortReadWrite_dir (s : St) : s.abortReadWrite.dir = s.dir := by
  unfold St.abortReadWrite; (repeat' split) <;> rfl
@[simp] theorem St.abortReadWrite_halfByte (s : St) : s.abortReadWrite.halfByte = s.halfByte := by
  unfold St.abortReadWrite; (repeat' split) <;> rfl
@[simp] theorem St.abortReadWrite_pollIter (s : St) : s.abortReadWrite.pollIter = s.pollIter := by
  unfold St.abortReadWrite; (repeat' split) <;> rfl
@[simp] theorem St.abortReadWrite_lastBF (s : St) : s.abortReadWrite.lastBF = s.lastBF := by
  unfold St.abortReadWrite; (repeat' split) <;> rfl
@[simp] theorem St.abortReadWrite_now (s : St) : s.abortReadWrite.now = s.now := by
  unfold St.abortReadWrite; (repeat' split) <;> rfl
@[simp] theorem St.abortReadWrite_mon (s : St) : s.abortReadWrite.mon = s.mon := by
  unfold St.abortReadWrite; (repeat' split) <;> rfl
@[simp] theorem St.abortReadWrite_trace (s : St) : s.abortReadWrite.trace = s.trace := by
  unfold St.abortReadWrite; (repeat' split) <;> rfl
@[simp] theorem St.abortReadWrite_faults (s : St) : s.abortReadWrite.faults = s.faults := by
  unfold St.abortReadWrite; (repeat' split) <;> rfl
@[simp] theorem St.abortReadWrite_result (s : St) : s.abortReadWrite.result = s.result := by
  unfold St.abortReadWrite; (repeat' split) <;> rfl

@[simp] theorem St.abortDirection_phase (s : St) (x : Pattern) : (s.abortDirection x).phase = s.phase := by
  unfold St.abortDirection; (repeat' split) <;> rfl
@[simp] theorem St.abortDirection_e (s : St) (x : Pattern) : (s.abortDirection x).e = s.e := by
  unfold St.abortDirection; (repeat' split) <;> rfl
@[simp] theorem St.abortDirection_rs (s : St) (x : Pattern) : (s.abortDirection x).rs = s.rs := by
  unfold St.abortDirection; (repeat' split) <;> rfl
@[simp] theorem St.abortDirection_rw (s : St) (x : Pattern) : (s.abortDirection x).rw = s.rw := by
  unfold St.abortDirection; (repeat' split) <;> rfl
@[simp] theorem St.abortDirection_halfByte (s : St) (x : Pattern) : (s.abortDirection x).halfByte = s.halfByte := by
  unfold St.abortDirection; (repeat' split) <;> rfl
@[simp] theorem St.abortDirection_pollIter (s : St) (x : Pattern) : (s.abortDirection x).pollIter = s.pollIter := by
  unfold St.abortDirection; (repeat' split) <;> rfl
@[simp] theorem St.abortDirection_lastBF (s : St) (x : Pattern) : (s.abortDirection x).lastBF = s.lastBF := by
  unfold St.abortDirection; (repeat' split) <;> rfl
@[simp] theorem St.abortDirection_now (s : St) (x : Pattern) : (s.abortDirection x).now = s.now := by
  unfold St.abortDirection; (repeat' split) <;> rfl
@[simp] theorem St.abortDirection_mon (s : St) (x : Pattern) : (s.abortDirection x).mon = s.mon := by
  unfold St.abortDirection; (repeat' split) <;> rfl
@[simp] theorem St.abortDirection_faults (s : St) (x : Pattern) : (s.abortDirection x).faults = s.faults := by
  unfold St.abortDirection; (repeat' split) <;> rfl
@[simp] theorem St.abortDirection_result (s : St) (x : Pattern) : (s.abortDirection x).result = s.result := by
  unfold St.abortDirection; (repeat' split) <;> rfl

@[simp] theorem directionEffect_phase (d : Dir) (x : Pattern) (s : St) : (directionEffect d x s).phase = s.phase := by
  unfold directionEffect; (repeat' split) <;> rfl
@[simp] theorem directionEffect_e (d : Dir) (x : Pattern) (s : St) : (directionEffect d x s).e = s.e := by
  unfold directionEffect; (repeat' split) <;> rfl
@[simp] theorem directionEffect_rs (d : Dir) (x : Pattern) (s : St) : (directionEffect d x s).rs = s.rs := by
  unfold directionEffect; (repeat' split) <;> rfl
@[simp] theorem directionEffect_rw (d : Dir) (x : Pattern) (s : St) : (directionEffect d x s).rw = s.rw := by
  unfold directionEffect; (repeat' split) <;> rfl
@[simp] theorem directionEffect_halfByte (d : Dir) (x : Pattern) (s : St) : (directionEffect d x s).halfByte = s.halfByte := by
  unfold directionEffect; (repeat' split) <;> rfl
@[simp] theorem directionEffect_pollIter (d : Dir) (x : Pattern) (s : St) : (directionEffect d x s).pollIter = s.pollIter := by
  unfold directionEffect; (repeat' split) <;> rfl
@[simp] theorem directionEffect_lastBF (d : Dir) (x : Pattern) (s : St) : (directionEffect d x s).lastBF = s.lastBF := by
  unfold directionEffect; (repeat' split) <;> rfl
@[simp] theorem directionEffect_now (d : Dir) (x : Pattern) (s : St) : (directionEffect d x s).now = s.now := by
  unfold directionEffect; (repeat' split) <;> rfl
@[simp] theorem directionEffect_mon (d : Dir) (x : Pattern) (s : St) : (directionEffect d x s).mon = s.mon := by
  unfold directionEffect; (repeat' split) <;> rfl
@[simp] theorem directionEffect_faults (d : Dir) (x : Pattern) (s : St) : (directionEffect d x s).faults = s.faults := by
  unfold directionEffect; (repeat' split) <;> rfl
@[simp] theorem directionEffect_result (d : Dir) (x : Pattern) (s : St) : (directionEffect d x s).result = s.result := by
  unfold directionEffect; (repeat' split) <;> rfl

@[simp] theorem lineEffect_phase (c : Cfg) (l : CtrlLine) (v : Bit) (s : St) : (lineEffect c l v s).phase = s.phase := by
  cases l <;> simp only [lineEffect] <;> (repeat' split) <;> simp
@[simp] theorem lineEffect_data (c : Cfg) (l : CtrlLine) (v : Bit) (s : St) : (lineEffect c l v s).data = s.data := by
  cases l <;> simp only [lineEffect] <;> (repeat' split) <;> simp
@[simp] theorem lineEffect_dir (c : Cfg) (l : CtrlLine) (v : Bit) (s : St) : (lineEffect c l v s).dir = s.dir := by
  cases l <;> simp only [lineEffect] <;> (repeat' split) <;> simp
@[simp] theorem lineEffect_pollIter (c : Cfg) (l : CtrlLine) (v : Bit) (s : St) : (lineEffect c l v s).pollIter = s.pollIter := by
  cases l <;> simp only [lineEffect] <;> (repeat' split) <;> simp
@[simp] theorem lineEffect_lastBF (c : Cfg) (l : CtrlLine) (v : Bit) (s : St) : (lineEffect c l v s).lastBF = s.lastBF := by
  cases l <;> simp only [lineEffect] <;> (repeat' split) <;> simp
@[simp] theorem lineEffect_now (c : Cfg) (l : CtrlLine) (v : Bit) (s : St) : (lineEffect c l v s).now = s.now := by
  cases l <;> simp only [lineEffect] <;> (repeat' split) <;> simp
@[simp] theorem lineEffect_faults (c : Cfg) (l : CtrlLine) (v : Bit) (s : St) : (lineEffect c l v s).faults = s.faults := by
  cases l <;> simp only [lineEffect] <;> (repeat' split) <;> simp
@[simp] theorem lineEffect_result (c : Cfg) (l : CtrlLine) (v : Bit) (s : St) : (lineEffect c l v s).result = s.result := by
  cases l <;> simp only [lineEffect] <;> (repeat' split) <;> simp

end Sys2Proof.Machine
end

