-- ==== Sys2Proof/Laws/Ops.lean ====
section
/-! SUPPORT. What each shared operation can do, said once: an inversion lemma for each ("if it answers next t, then …"), the equation of each in
the states where it goes through, and the composition of runs. -/

set_option Elab.async false

namespace Sys2Proof.Machine

/-! ### Inversions -/

theorem micro_next {s t : State} {m : Instance} {f : Option ModelFault} {eff : St} (h : s.micro m f eff = .next t) :
    (∃ g, f = some g ∧ t = s.raise m g) ∨ (f = none ∧ t = s.commit m eff 0) := by
  unfold State.micro at h
  split at h
  · exact .inl ⟨_, rfl, by simpa using h.symm⟩
  · exact .inr ⟨rfl, by simpa using h.symm⟩

theorem expand_next {s t : State} {m : Instance} {f : Option ModelFault} {steps : List Act} (h : s.expand m f steps = .next t) :
    (∃ g, f = some g ∧ t = s.raise m g) ∨ (f = none ∧ t = s.push steps) := by
  unfold State.expand at h
  split at h
  · exact .inl ⟨_, rfl, by simpa using h.symm⟩
  · exact .inr ⟨rfl, by simpa using h.symm⟩

theorem enter_next {s t : State} {caller : Caller} {fault : Instance → Option ModelFault} {steps : Instance → List Act}
    (h : s.enter caller fault steps = .next t) :
    ∃ m, Idle s m ∧ ((∃ f, fault m = some f ∧ t = s.raise m f)
      ∨ (fault m = none ∧ t = { s with cont := steps m, caller := caller, ret := .nothing })) := by
  unfold State.enter at h
  split at h
  · cases h
  · rename_i m hm
    split at h
    · cases h
    · split at h
      · cases h
      · refine ⟨m, ⟨hm, by simpa using ‹¬ s.cont ≠ []›, by simpa using ‹¬ m.st.faults ≠ []›⟩, ?_⟩
        split at h
        · exact .inl ⟨_, ‹_›, by simpa using h.symm⟩
        · exact .inr ⟨‹_›, by simpa using h.symm⟩

theorem once_next {s t : State} {body : Instance → State → Res} (h : s.once body = .next t) :
    ∃ m, Idle s m ∧ body m { s with ret := .nothing } = .next t := by
  unfold State.once at h
  split at h
  · cases h
  · rename_i m hm
    split at h
    · cases h
    · split at h
      · cases h
      · exact ⟨m, ⟨hm, by simpa using ‹¬ s.cont ≠ []›, by simpa using ‹¬ m.st.faults ≠ []›⟩, h⟩

theorem fitting_next {s t : State} {ps : List Pattern} {go : Res} (h : s.fitting ps go = .next t) :
    ∃ m, s.inst = some m ∧ (∀ p ∈ ps, p.width = m.cfg.width) ∧ go = .next t := by
  unfold State.fitting at h
  split at h
  · cases h
  · rename_i m hm
    split at h
    · rename_i hw
      exact ⟨m, hm, by simpa using hw, h⟩
    · cases h

theorem abort_next {s t : State} (h : s.abort = .next t) :
    ∃ m, s.inst = some m ∧ ((m.st.phase.dead = true ∧ t = s) ∨ (s.caller = .abortPath ∧ s.cont ≠ [] ∧ t = s)
      ∨ (m.st.phase.dead = false ∧ m.st.faults = [] ∧ t = { s with cont := abortSteps, caller := .abortPath, ret := .nothing })) := by
  unfold State.abort at h
  split at h
  · cases h
  · rename_i m hm
    refine ⟨m, hm, ?_⟩
    split at h
    · exact .inl ⟨‹_›, by simpa using h.symm⟩
    · split at h
      · cases h
      · split at h
        · exact .inr (.inl ⟨‹_ ∧ _›.1, ‹_ ∧ _›.2, by simpa using h.symm⟩)
        · exact .inr (.inr ⟨by simpa using ‹¬ m.st.phase.dead = true›, by simpa using ‹¬ m.st.faults ≠ []›, by simpa using h.symm⟩)

theorem construct_next {cfg : Cfg} {s t : State} (h : execConstruct cfg s = .next t) :
    s.cont = [] ∧ ((configOk cfg = true ∧ t = { s with inst := some ⟨cfg, St.init⟩, ret := .outcome .ok })
      ∨ (configOk cfg = false ∧ t = { s with inst := none, ret := .outcome .configurationError })) := by
  unfold execConstruct at h
  split at h
  · cases h
  · refine ⟨by simpa using ‹¬ s.cont ≠ []›, ?_⟩
    split at h
    · exact .inl ⟨‹_›, by simpa using h.symm⟩
    · exact .inr ⟨by simpa using ‹¬ configOk cfg = true›, by simpa using h.symm⟩

theorem sampled_next {s t : State} {m : Instance} {device : Option Pattern} {keep : Bool} (h : s.sampled m device keep = .next t) :
    (∃ f, sampleFault m.cfg m.st = some f ∧ t = s.raise m f) ∨ (sampleFault m.cfg m.st = none ∧ ∃ p,
      p = device.getD (wiredPart m.cfg.width s.nextAnswer) ∧
      t = State.commit { (if device = none then s.answerUsed else s) with ret := .pattern p, bf := if keep then db7 p else s.bf } m
        (sampleEffect p m.st) 0) := by
  unfold State.sampled at h
  split at h
  · exact .inl ⟨_, ‹_›, by simpa using h.symm⟩
  · refine .inr ⟨‹_›, ?_⟩
    cases device with
    | some p => exact ⟨p, rfl, by simpa using h.symm⟩
    | none => exact ⟨_, rfl, by simpa using h.symm⟩

theorem perform_next {s t : State} {a : Act} (h : s.perform a = .next t) :
    ∃ m, s.inst = some m ∧ m.st.faults = [] ∧ act a m s = .next t := by
  unfold State.perform at h
  split at h
  · cases h
  · rename_i m hm
    split at h
    · cases h
    · exact ⟨m, hm, by simpa using ‹¬ m.st.faults ≠ []›, h⟩

/-- Everything a step can do: a due abort, one action of the driver, one call of the host, or nothing. -/
theorem step_next {s t : State} (h : step s = .next t) :
    (s.abortIn = some 0 ∧ State.abort { s with abortIn := none } = .next t)
      ∨ (s.abortIn ≠ some 0 ∧ ∃ a rest, s.cont = a :: rest ∧ State.perform { s.tick with cont := rest } a = .next t)
      ∨ (s.abortIn ≠ some 0 ∧ s.cont = [] ∧ ∃ c rest i, s.calls = c :: rest ∧ decode c = .ok i ∧ exec i { s with calls := rest } = .next t)
      ∨ (s.abortIn ≠ some 0 ∧ s.cont = [] ∧ s.calls = [] ∧ t = s.idle) := by
  unfold step State.abortNow at h
  by_cases ha : s.abortIn = some 0
  · rw [if_pos ha] at h
    exact .inl ⟨ha, h⟩
  · rw [if_neg ha] at h
    simp only [State.nextAct, State.fetch] at h
    cases hc : s.cont with
    | cons a rest =>
      rw [hc] at h
      exact .inr (.inl ⟨ha, a, rest, rfl, h⟩)
    | nil =>
      rw [hc] at h
      cases hk : s.calls with
      | nil =>
        rw [hk] at h
        exact .inr (.inr (.inr ⟨ha, rfl, rfl, by simpa using h.symm⟩))
      | cons c rest =>
        rw [hk] at h
        simp only at h
        cases hd : decode c with
        | error e =>
          rw [hd] at h
          cases h
        | ok i =>
          rw [hd] at h
          exact .inr (.inr (.inl ⟨ha, rfl, c, rest, i, rfl, hd, h⟩))

/-! ### Equations where the operation goes through -/

theorem enter_idle {s : State} {m : Instance} (hi : Idle s m) (caller : Caller) (fault : Instance → Option ModelFault)
    (steps : Instance → List Act) (hf : fault m = none) :
    s.enter caller fault steps = .next { s with cont := steps m, caller := caller, ret := .nothing } := by
  obtain ⟨h1, h2, h3⟩ := hi
  simp [State.enter, h1, h2, h3, hf]

theorem enter_raises {s : State} {m : Instance} (hi : Idle s m) (caller : Caller) (fault : Instance → Option ModelFault)
    (steps : Instance → List Act) {f : ModelFault} (hf : fault m = some f) : s.enter caller fault steps = .next (s.raise m f) := by
  obtain ⟨h1, h2, h3⟩ := hi
  simp [State.enter, h1, h2, h3, hf]

theorem once_idle {s : State} {m : Instance} (hi : Idle s m) (body : Instance → State → Res) :
    s.once body = body m { s with ret := .nothing } := by
  obtain ⟨h1, h2, h3⟩ := hi
  simp [State.once, h1, h2, h3]

theorem fitting_ok {s : State} {m : Instance} (h : s.inst = some m) {ps : List Pattern} (hw : ∀ p ∈ ps, p.width = m.cfg.width)
    (go : Res) : s.fitting ps go = go := by
  unfold State.fitting
  rw [h]
  exact if_pos (by simpa using hw)

theorem perform_live {s : State} {m : Instance} (h : s.inst = some m) (hf : m.st.faults = []) (a : Act) :
    s.perform a = act a m s := by
  simp [State.perform, h, hf]

/-- A step of a driver that is in the middle of an operation. -/
theorem step_act {s : State} {m : Instance} {a : Act} {rest : List Act} (h : s.inst = some m) (hf : m.st.faults = [])
    (ha : s.abortIn ≠ some 0) (hc : s.cont = a :: rest) : step s = act a m { s.tick with cont := rest } := by
  have hp := perform_live (s := { s.tick with cont := rest }) h hf a
  simpa [step, State.abortNow, ha, State.nextAct, hc] using hp

/-- A step that makes the host's next call. -/
theorem step_call {s : State} {c : Call} {rest : List Call} {i : Instr} (ha : s.abortIn ≠ some 0) (hc : s.cont = [])
    (hk : s.calls = c :: rest) (hd : decode c = .ok i) : step s = exec i { s with calls := rest } := by
  simp [step, State.abortNow, ha, State.nextAct, hc, State.fetch, hk, hd]

/-- An action keeps the instance and its configuration. -/
theorem act_keeps_cfg {a : Act} {m : Instance} {s t : State} (hs : s.inst = some m) (h : act a m s = .next t) :
    ∃ st, t.inst = some { m with st := st } := by
  have hm : ∀ {u : State} {f : Option ModelFault} {eff : St}, u.micro m f eff = .next t → ∃ st, t.inst = some { m with st := st } := by
    intro u f eff hu
    obtain ⟨g, -, rfl⟩ | ⟨-, rfl⟩ := micro_next hu
    · exact ⟨_, rfl⟩
    · exact ⟨_, rfl⟩
  have hp : ∀ {o : Option ModelFault} {steps : List Act}, s.expand m o steps = .next t → ∃ st, t.inst = some { m with st := st } := by
    intro o steps hu
    obtain ⟨g, -, rfl⟩ | ⟨-, rfl⟩ := expand_next hu
    · exact ⟨_, rfl⟩
    · exact ⟨m.st, hs⟩
  cases a with
  | line l v => exact hm h
  | data p => exact hm h
  | direction d => exact hm h
  | read device keep =>
    obtain ⟨f, -, rfl⟩ | ⟨-, p, -, rfl⟩ := sampled_next h
    · exact ⟨_, rfl⟩
    · exact ⟨_, rfl⟩
  | configE => exact hm h
  | configRS => exact hm h
  | configRW => exact hm h
  | configData => exact hm h
  | pulse t tag => exact hp h
  | poll => exact hp h
  | pollTest =>
    cases h
    unfold State.pollTest
    split
    · exact ⟨_, rfl⟩
    · exact ⟨_, rfl⟩
  | finish o =>
    cases h
    unfold State.finish
    split
    · exact ⟨_, rfl⟩
    · exact ⟨m.st, hs⟩
    · exact ⟨m.st, hs⟩
  | delay d => cases h; exact ⟨_, rfl⟩
  | tag t => cases h; exact ⟨_, rfl⟩
  | frame p tag => cases h; exact ⟨m.st, hs⟩
  | transfer k b => cases h; exact ⟨m.st, hs⟩
  | settle k b => cases h; exact ⟨m.st, hs⟩
  | pollReset => cases h; exact ⟨_, rfl⟩
  | pollIteration => cases h; exact ⟨m.st, hs⟩
  | giveFlag =>
    cases h
    unfold State.giveFlag
    split
    · exact ⟨_, rfl⟩
    · exact ⟨m.st, hs⟩
  | advance => cases h; exact ⟨_, rfl⟩
  | abortEnable => cases h; exact ⟨_, rfl⟩
  | abortReadWrite => cases h; exact ⟨_, rfl⟩
  | abortDirection => cases h; exact ⟨_, rfl⟩
  | abortFinish => cases h; exact ⟨_, rfl⟩

/-! ### Runs -/

theorem Runs.refl (s : State) : Runs s s := ⟨0, rfl⟩

theorem run_add (n k : Nat) (s t : State) (h : Host.Core.run core n s = .next t) :
    Host.Core.run core (n + k) s = Host.Core.run core k t := by
  induction n generalizing s with
  | zero => cases h; simp
  | succ n ih =>
    rw [Nat.succ_add]
    simp only [Host.Core.run] at h ⊢
    cases hs : core.step s with
    | next u =>
      rw [hs] at h
      simp only at h ⊢
      exact ih u h
    | fault r => rw [hs] at h; cases h
    | refused r => rw [hs] at h; cases h

theorem Runs.trans {s t u : State} (h1 : Runs s t) (h2 : Runs t u) : Runs s u := by
  obtain ⟨n, hn⟩ := h1
  obtain ⟨k, hk⟩ := h2
  exact ⟨n + k, (run_add n k s t hn).trans hk⟩

theorem Runs.one {s t : State} (h : step s = .next t) : Runs s t := by
  refine ⟨1, ?_⟩
  have h' : core.step s = .next t := h
  simp only [Host.Core.run, h']

/-- One step, then a run. -/
theorem Runs.head {s t u : State} (h : step s = .next t) (h2 : Runs t u) : Runs s u := (Runs.one h).trans h2

/-! ### The trace as words -/

theorem writeCount_eq (t : List Event) : writeCount t = (writeFrames t).length := by
  induction t with
  | nil => rfl
  | cons ev t ih =>
    unfold writeCount writeFrames at *
    cases ev <;> simp [ih]

/-- The last write frame's nibble. -/
theorem lastNibble_eq {t : List Event} {r : Bit} {h : Nibble} (hl : (writeFrames t).getLast? = some (r, .nibble h)) :
    lastNibble t = some h := by
  induction t using List.reverseRecOn with
  | nil => cases hl
  | append_singleton t ev ih =>
    unfold lastNibble writeFrames at *
    rw [List.filterMap_append] at hl
    rw [List.foldl_append]
    cases ev with
    | wFrame rs p τ =>
      have : (rs, p) = (r, Pattern.nibble h) := by simpa using hl
      cases this
      rfl
    | rCycle rs p τ => exact ih (by simpa using hl)
    | dirChange d τ => exact ih (by simpa using hl)
    | outcome o τ => exact ih (by simpa using hl)

/-! ### What a call can do -/

/-- The actions that are one operation by themselves (R111 to R117). -/
def Act.direct : Act → Bool
  | .line _ _ => true
  | .data _ => true
  | .direction _ => true
  | .delay _ => true
  | .read none false => true
  | _ => false

/-- An action that may stand in a continuation: none of the abort path, its pattern of the instance's width, one of a poll only if `poll`, and
under EightBit one that tags an upper nibble only if `inner`. -/
def Act.Fit (w : Width) (poll inner : Prop) (a : Act) : Prop :=
  a.ofAbort = false ∧ a.fits w = true ∧ (a.ofPoll = true → poll) ∧ (w = .eightBit → a.tagsInner = true → inner)

/-- A continuation of such actions. -/
def Clean (w : Width) (poll inner : Prop) (cont : List Act) : Prop := ∀ a ∈ cont, a.Fit w poll inner

theorem Clean.append {w : Width} {poll inner : Prop} {xs ys : List Act} (h : Clean w poll inner xs) (h2 : Clean w poll inner ys) :
    Clean w poll inner (xs ++ ys) := by
  intro a ha
  rcases List.mem_append.1 ha with ha | ha
  · exact h a ha
  · exact h2 a ha

theorem clean_nil (w : Width) (poll inner : Prop) : Clean w poll inner [] := fun _ ha => nomatch ha

theorem clean_cons {w : Width} {poll inner : Prop} {a : Act} {cont : List Act} :
    Clean w poll inner (a :: cont) ↔ a.Fit w poll inner ∧ Clean w poll inner cont := by simp [Clean]

theorem Clean.mono {w : Width} {poll poll' inner inner' : Prop} {cont : List Act} (h : Clean w poll inner cont) (hp : poll → poll')
    (hi : inner → inner') : Clean w poll' inner' cont := fun a ha =>
  let ⟨h1, h2, h3, h4⟩ := h a ha
  ⟨h1, h2, fun x => hp (h3 x), fun x y => hi (h4 x y)⟩

theorem pack_width (b : Byte) (w : Width) : ∀ p ∈ pack b w, p.width = w := by
  cases w <;> simp [pack, Pattern.width]

theorem initPattern_width (w : Width) (b : Byte) : (initPattern w b).width = w := by cases w <;> rfl

theorem zeroPattern_width (w : Width) : (zeroPattern w).width = w := by cases w <;> rfl

section Clean

variable (c : Cfg) (w : Width) (poll inner : Prop)

theorem clean_frame {p : Pattern} (tag : FallTag) (h : p.width = w) (ht : w = .eightBit → tag = .innerNibble → inner) :
    Clean w poll inner (frameSteps c p tag) := by
  cases tag <;> simp_all [Clean, Act.Fit, frameSteps, Act.ofAbort, Act.fits, Act.ofPoll, Act.tagsInner]

theorem clean_transfer (k : Kind) (b : Byte) : Clean c.width poll inner (transferSteps c k b) := by
  unfold transferSteps transferFrames
  cases c.width <;> simp [Clean, Act.Fit, Act.ofAbort, Act.fits, Act.ofPoll, Act.tagsInner, Pattern.width]

theorem clean_settle (k : Kind) (b : Byte) : Clean w poll inner (settleSteps c k b) := by
  unfold settleSteps
  cases c.strategy <;> simp [Clean, Act.Fit, Act.ofAbort, Act.fits, Act.ofPoll, Act.tagsInner]

theorem clean_readCycle (keep : Bool) : Clean w poll inner (readCycle c none keep) := by
  simp [Clean, Act.Fit, readCycle, Act.ofAbort, Act.fits, Act.ofPoll, Act.tagsInner]

theorem clean_iteration : Clean w poll inner (iterationSteps c) := by
  unfold iterationSteps
  cases c.width
  · exact (clean_readCycle c w poll inner true).append (clean_readCycle c w poll inner false)
  · exact clean_readCycle c w poll inner true

theorem clean_poll (h : poll) : Clean w poll inner (pollSteps c) := by
  simp [Clean, Act.Fit, pollSteps, enterReadSteps, Act.ofAbort, Act.fits, Act.ofPoll, Act.tagsInner, h]

theorem clean_exitRead : Clean w poll inner exitReadSteps := by
  simp [Clean, Act.Fit, exitReadSteps, Act.ofAbort, Act.fits, Act.ofPoll, Act.tagsInner]

theorem clean_configure : Clean w poll inner configureSteps := by
  simp [Clean, Act.Fit, configureSteps, Act.ofAbort, Act.fits, Act.ofPoll, Act.tagsInner]

theorem clean_pulse (t : Nat) (tag : FallTag) (ht : w = .eightBit → tag = .innerNibble → inner) :
    Clean w poll inner (pulseSteps t tag) := by
  cases tag <;> simp_all [Clean, Act.Fit, pulseSteps, Act.ofAbort, Act.fits, Act.ofPoll, Act.tagsInner]

theorem clean_power : Clean w poll inner (powerSteps c) := by
  simp [Clean, Act.Fit, powerSteps, Act.ofAbort, Act.fits, Act.ofPoll, Act.tagsInner]

theorem clean_blind (k : Attempt) : Clean c.width poll inner (blindSteps c k) := by
  simp [Clean, Act.Fit, blindSteps, Act.ofAbort, Act.fits, Act.ofPoll, Act.tagsInner, initPattern_width]

theorem clean_mode : Clean c.width poll inner (modeSteps c) := by
  unfold modeSteps
  cases c.width <;> simp [Clean, Act.Fit, Act.ofAbort, Act.fits, Act.ofPoll, Act.tagsInner, Pattern.width]

theorem clean_config (b : Byte) : Clean w poll inner (configSteps b) := by
  simp [Clean, Act.Fit, configSteps, Act.ofAbort, Act.fits, Act.ofPoll, Act.tagsInner]

theorem clean_ok : Clean w poll inner [.finish .ok] := by
  simp [Clean, Act.Fit, Act.ofAbort, Act.fits, Act.ofPoll, Act.tagsInner]

theorem clean_timeout (h : poll) : Clean w poll inner [.finish .busyFlagTimeout] := by
  simp [Clean, Act.Fit, Act.ofAbort, Act.fits, Act.ofPoll, Act.tagsInner, h]

theorem clean_again (h : poll) : Clean w poll inner [.pollIteration, .pollTest] := by
  simp [Clean, Act.Fit, Act.ofAbort, Act.fits, Act.ofPoll, Act.tagsInner, h]

theorem clean_send (k : Kind) (b : Byte) : Clean w poll inner (sendSteps k b) := by
  simp [Clean, Act.Fit, sendSteps, Act.ofAbort, Act.fits, Act.ofPoll, Act.tagsInner]

theorem clean_flag : Clean w poll inner [.giveFlag] := by
  simp [Clean, Act.Fit, Act.ofAbort, Act.fits, Act.ofPoll, Act.tagsInner]

theorem clean_initialise : Clean c.width poll inner (initialiseSteps c) :=
  (clean_configure _ _ _).append (clean_power c _ _ _)
    |>.append ((clean_blind c _ _ _).append (clean_blind c _ _ _) |>.append (clean_blind c _ _ _))
    |>.append (clean_mode c _ _)
    |>.append ((clean_config _ _ _ _).append (clean_config _ _ _ _) |>.append (clean_config _ _ _ _) |>.append (clean_config _ _ _ _))
    |>.append (clean_ok _ _ _)

end Clean

/-- A write word under EightBit is no upper nibble (R85). -/
theorem wordTag_byte (m : Instance) (k : Kind) (b : Byte) : wordTag m k (.byte b) ≠ .innerNibble := by
  unfold wordTag
  split
  · rename_i t ht
    unfold initTag at ht
    split at ht <;> cases ht <;> simp
  · simp [transferTag]

theorem clean_writeWord (m : Instance) (poll inner : Prop) (k : Kind) {p : Pattern} (h : p.width = m.cfg.width) :
    Clean m.cfg.width poll inner (writeWordSteps m k p) := by
  refine clean_cons.2 ⟨by simp [Act.Fit, Act.ofAbort, Act.fits, Act.ofPoll, Act.tagsInner], clean_cons.2
    ⟨by simp [Act.Fit, Act.ofAbort, Act.fits, Act.ofPoll, Act.tagsInner], clean_cons.2 ⟨⟨rfl, by simpa [Act.fits] using h, by simp [Act.ofPoll],
      fun hw ht => ?_⟩, clean_nil _ _ _⟩⟩⟩
  cases p with
  | nibble n => rw [hw] at h; cases h
  | byte b =>
    have := wordTag_byte m k b
    unfold Act.tagsInner at ht
    split at ht <;> simp_all

theorem clean_readWord (c : Cfg) (poll inner : Prop) {p : Pattern} {w : Width} (h : p.width = w) :
    Clean w poll inner (readWordSteps c p) := by
  simp [Clean, Act.Fit, readWordSteps, readCycle, Act.ofAbort, Act.fits, Act.ofPoll, Act.tagsInner, h]

/-- What a call other than `construct` does with the instance and the continuation: nothing to the instance (it may start an operation or the
abort path), or a fault, or what one action does. -/
def CallDoes (inner : Prop) (s t : State) (m : Instance) : Prop :=
  (t.inst = some m ∧ (t.cont = s.cont ∨ (m.st.faults = [] ∧ m.st.phase.dead = false ∧ t.cont = abortSteps)
      ∨ (Idle s m ∧ Clean m.cfg.width (m.st.phase.pollUsable = true) inner t.cont)))
    ∨ (Idle s m ∧ ∃ f, t = s.raise m f)
    ∨ (Idle s m ∧ ∃ a, a.direct = true ∧ a.fits m.cfg.width = true ∧ act a m { s with ret := .nothing } = .next t)

theorem enter_does {s t : State} {caller : Caller} {fault : Instance → Option ModelFault} {steps : Instance → List Act} {inner : Prop}
    (h : s.enter caller fault steps = .next t)
    (hc : ∀ m, s.inst = some m → fault m = none → Clean m.cfg.width (m.st.phase.pollUsable = true) inner (steps m)) :
    ∃ m, s.inst = some m ∧ CallDoes inner s t m := by
  obtain ⟨m, hi, ⟨f, -, rfl⟩ | ⟨hf, rfl⟩⟩ := enter_next h
  · exact ⟨m, hi.1, .inr (.inl ⟨hi, f, rfl⟩)⟩
  · exact ⟨m, hi.1, .inl ⟨hi.1, .inr (.inr ⟨hi, hc m hi.1 hf⟩)⟩⟩

theorem once_does {s t : State} {body : Instance → State → Res} {inner : Prop} (a : Act) (h : s.once body = .next t)
    (hb : ∀ m u, body m u = act a m u) (hd : a.direct = true) (hf : ∀ m, s.inst = some m → a.fits m.cfg.width = true) :
    ∃ m, s.inst = some m ∧ CallDoes inner s t m := by
  obtain ⟨m, hi, hn⟩ := once_next h
  exact ⟨m, hi.1, .inr (.inr ⟨hi, a, hd, hf m hi.1, (hb m _) ▸ hn⟩)⟩

theorem pollFault_none {s : St} (h : pollFault s = none) : s.phase.dead = false ∧ s.phase.pollUsable = true := by
  unfold pollFault at h
  split at h
  · cases h
  · split at h
    · cases h
    · exact ⟨by simpa using ‹¬ s.phase.dead = true›, by simpa using ‹¬ ¬ s.phase.pollUsable = true›⟩

/-- Everything a call can do. -/
theorem exec_next {i : Instr} {s t : State} (h : exec i s = .next t) :
    (∃ c, i = .construct c) ∨ ∃ m, s.inst = some m ∧ CallDoes (sendsInner i = true) s t m := by
  have hcmd : ∀ {here : Instance → Bool} {steps : Instance → List Act} {b : Instance → Byte}, s.command here steps b = .next t →
      (∀ m, here m = true → Clean m.cfg.width (m.st.phase.pollUsable = true) (sendsInner i = true) (steps m)) → ∃ m, s.inst = some m ∧ CallDoes (sendsInner i = true) s t m := by
    intro here steps b h hc
    refine enter_does h fun m _ _ => ?_
    split
    · exact hc m ‹_›
    · exact clean_send _ _ _ _ _
  have hww : ∀ {k : Kind} {p : Pattern}, s.writeWord k p = .next t → ∃ m, s.inst = some m ∧ CallDoes (sendsInner i = true) s t m := by
    intro k p h
    obtain ⟨m, hm, hp, h⟩ := fitting_next h
    exact enter_does h fun m' hm' _ => by cases hm.symm.trans hm'; exact clean_writeWord m _ _ k (hp p (by simp))
  have hrw : ∀ {p : Pattern}, s.readWord p = .next t → ∃ m, s.inst = some m ∧ CallDoes (sendsInner i = true) s t m := by
    intro p h
    obtain ⟨m, hm, hp, h⟩ := fitting_next h
    exact enter_does h fun m' hm' _ => by cases hm.symm.trans hm'; exact clean_readWord m.cfg _ _ (hp p (by simp))
  cases i with
  | construct c => exact .inl ⟨c, rfl⟩
  | configureLines =>
    simp only [exec, execConfigureLines] at h
    exact .inr (enter_does h fun _ _ _ => clean_configure _ _ _)
  | setControlLine l v =>
    simp only [exec, execSetControlLine] at h
    exact .inr (once_does (.line l v) h (fun _ _ => rfl) rfl fun _ _ => rfl)
  | setDataLines p =>
    obtain ⟨m, hm, hp, h⟩ := fitting_next h
    exact .inr (once_does (.data p) h (fun _ _ => rfl) rfl fun m' hm' => by
      cases hm.symm.trans hm'
      simpa [Act.fits] using hp p (by simp))
  | setDataDirection d =>
    simp only [exec, execSetDataDirection] at h
    exact .inr (once_does (.direction d) h (fun _ _ => rfl) rfl fun _ _ => rfl)
  | pulseEnable n tag =>
    simp only [exec, execPulseEnable] at h
    exact .inr (enter_does h fun _ _ _ => clean_pulse _ _ _ _ _ fun _ ht => by subst ht; rfl)
  | sample =>
    simp only [exec, execSample] at h
    exact .inr (once_does (.read none false) h (fun _ _ => rfl) rfl fun _ _ => rfl)
  | wait d =>
    simp only [exec, execWait] at h
    exact .inr (once_does (.delay d) h (fun _ _ => rfl) rfl fun _ _ => rfl)
  | encode b =>
    have h : execEncode b s = .next t := h
    unfold execEncode at h
    cases hm : s.inst with
    | none => rw [hm] at h; cases h
    | some m => rw [hm] at h; cases h; exact .inr ⟨m, rfl, .inl ⟨rfl, .inl rfl⟩⟩
  | decode fs =>
    have h : execDecode fs s = .next t := h
    unfold execDecode at h
    cases hm : s.inst with
    | none => rw [hm] at h; cases h
    | some m =>
      rw [hm] at h
      simp only at h
      split at h
      · split at h
        · cases h; exact .inr ⟨m, rfl, .inl ⟨rfl, .inl rfl⟩⟩
        · cases h
      · cases h
  | selectRegister k =>
    simp only [exec, execSelectRegister] at h
    exact .inr (once_does (.line .rs (kindLevel k)) h (fun _ _ => rfl) rfl fun _ _ => rfl)
  | writeFrame p tag =>
    obtain ⟨m, hm, hp, h⟩ := fitting_next h
    exact .inr (enter_does h fun m' hm' _ => by
      cases hm.symm.trans hm'
      exact clean_frame m.cfg _ _ _ tag (hp p (by simp)) fun _ ht => by subst ht; rfl)
  | transfer k b =>
    simp only [exec, execTransfer] at h
    exact .inr (enter_does h fun m _ _ => (clean_transfer m.cfg _ _ k b).append (clean_ok _ _ _))
  | settle k b =>
    simp only [exec, execSettle] at h
    exact .inr (enter_does h fun m _ _ => (clean_settle m.cfg _ _ _ k b).append (clean_ok _ _ _))
  | sendInstruction b =>
    simp only [exec, execSendInstruction] at h
    exact .inr (enter_does h fun _ _ _ => clean_send _ _ _ _ _)
  | sendData b =>
    simp only [exec, execSendData] at h
    exact .inr (enter_does h fun _ _ _ => clean_send _ _ _ _ _)
  | waitUntilReady =>
    simp only [exec, execWaitUntilReady] at h
    exact .inr (enter_does h fun m _ hf => (clean_poll m.cfg _ _ _ (pollFault_none hf).2).append (clean_ok _ _ _))
  | pollIteration =>
    simp only [exec, execPollIteration] at h
    exact .inr (enter_does h fun m _ _ => (clean_iteration m.cfg _ _ _).append (clean_flag _ _ _))
  | initialise =>
    simp only [exec, execInitialise] at h
    exact .inr (enter_does h fun m _ _ => clean_initialise m.cfg _ _)
  | abort =>
    obtain ⟨m, hm, ⟨-, rfl⟩ | ⟨-, -, rfl⟩ | ⟨hd, hf, rfl⟩⟩ := abort_next h
    · exact .inr ⟨m, hm, .inl ⟨hm, .inl rfl⟩⟩
    · exact .inr ⟨m, hm, .inl ⟨hm, .inl rfl⟩⟩
    · exact .inr ⟨m, hm, .inl ⟨hm, .inr (.inl ⟨hf, hd, rfl⟩)⟩⟩
  | iw8 b => exact .inr (hww h)
  | dw8 b => exact .inr (hww h)
  | br8 b => exact .inr (hrw h)
  | rsv8 b => cases h
  | iw4 n => exact .inr (hww h)
  | dw4 n => exact .inr (hww h)
  | br4 n => exact .inr (hrw h)
  | rsv4 n => cases h
  | init8Bit =>
    refine .inr (hcmd h fun m _ => ?_)
    split
    · exact clean_blind _ _ _ _
    · exact clean_nil _ _ _
  | mode4Bit => exact .inr (hcmd h fun m _ => clean_mode _ _ _)
  | functionSet dl n f x => exact .inr (hcmd h fun m _ => clean_config _ _ _ _)
  | clear => exact .inr (hcmd h fun m _ => clean_config _ _ _ _)
  | returnHome x => exact .inr (hcmd h fun m hm => by cases hm)
  | displayOffByte => exact .inr (hcmd h fun m _ => clean_config _ _ _ _)
  | entryModeByte => exact .inr (hcmd h fun m _ => clean_config _ _ _ _)

/-! ### What one action and one step can do -/

/-- The effect of an action that goes through: on `St`, before time passes, and on the continuation. -/
def Act.Does (a : Act) (m : Instance) (st : St) (before after : List Act) : Prop :=
  match a with
  | .line l v => st = lineEffect m.cfg l v m.st ∧ lineFault m.cfg l v m.st = none ∧ after = before
  | .data p => st = dataEffect p m.st ∧ dataFault m.st = none ∧ after = before
  | .direction d => ∃ x, st = directionEffect d x m.st ∧ x.width = m.cfg.width ∧ directionFault d m.st = none ∧ after = before
  | .delay _ => st = m.st ∧ after = before
  | .read device _ => ∃ p, st = sampleEffect p m.st ∧ (device = some p ∨ p.width = m.cfg.width) ∧ sampleFault m.cfg m.st = none
    ∧ after = before
  | .configE => st = { m.st with e := some false } ∧ m.st.e ≠ some true ∧ after = before
  | .configRS => st = { m.st with rs := some false } ∧ m.st.e ≠ some true ∧ after = before
  | .configRW => st = { m.st with rw := some false } ∧ m.st.e ≠ some true ∧ after = before
  | .configData => st = configDataEffect m.cfg.width m.st ∧ m.st.e ≠ some true ∧ m.st.rw ≠ some true ∧ after = before
  | .tag g => st = { m.st with mon := { m.st.mon with curTag := g } } ∧ after = before
  | .pulse d g => st = m.st ∧ after = pulseSteps d g ++ before
  | .frame p g => st = m.st ∧ after = frameSteps m.cfg p g ++ before
  | .transfer k b => st = m.st ∧ after = transferSteps m.cfg k b ++ before
  | .settle k b => st = m.st ∧ after = settleSteps m.cfg k b ++ before
  | .poll => st = m.st ∧ pollFault m.st = none ∧ after = pollSteps m.cfg ++ before
  | .pollReset => st = { m.st with pollIter := 0 } ∧ after = before
  | .pollIteration => st = m.st ∧ after = iterationSteps m.cfg ++ before
  | .pollTest => (∃ i b r, st = { m.st with pollIter := i, lastBF := b, mon := { m.st.mon with settle := r } })
    ∧ (after = exitReadSteps ++ before ∨ after = exitReadSteps ++ [.finish .busyFlagTimeout] ∨ after = [.pollIteration, .pollTest] ++ before)
  | .giveFlag => (st = m.st ∨ st = m.st.busyClear) ∧ after = before
  | .advance => st = { m.st with phase := m.st.phase.next } ∧ after = before
  | .finish o => (st = m.st ∨ st = { m.st with
      phase := if o = .busyFlagTimeout then m.st.phase.endIn (.failed o) else m.st.phase
      result := some o
      trace := m.st.trace ++ [.outcome o m.st.now] }) ∧ after = before
  | .abortEnable => st = m.st.abortEnable ∧ after = before
  | .abortReadWrite => st = m.st.abortReadWrite ∧ after = before
  | .abortDirection => ∃ x, st = m.st.abortDirection x ∧ x.width = m.cfg.width ∧ after = before
  | .abortFinish => st = m.st.abortFinish ∧ after = before

/-- Everything one action can do: a fault, or its effect, and then time passes. -/
theorem act_next {a : Act} {m : Instance} {s t : State} (hs : s.inst = some m) (h : act a m s = .next t) :
    (∃ f, t = s.raise m f) ∨ ∃ st δ, t.inst = some { m with st := { st with now := st.now + δ } } ∧ a.Does m st s.cont t.cont := by
  have wp : ∀ w x, (wiredPart w x).width = w := by intro w x; cases w <;> rfl
  cases a with
  | line l v =>
    obtain ⟨f, -, rfl⟩ | ⟨hf, rfl⟩ := micro_next h
    · exact .inl ⟨f, rfl⟩
    · exact .inr ⟨_, _, rfl, rfl, hf, rfl⟩
  | data p =>
    obtain ⟨f, -, rfl⟩ | ⟨hf, rfl⟩ := micro_next h
    · exact .inl ⟨f, rfl⟩
    · exact .inr ⟨_, _, rfl, rfl, hf, rfl⟩
  | direction d =>
    have h : s.direct m d = .next t := h
    unfold State.direct at h
    obtain ⟨f, hf, rfl⟩ | ⟨hf, rfl⟩ := micro_next h
    · rw [if_neg (by rw [hf]; simp)]
      exact .inl ⟨f, rfl⟩
    · refine .inr ⟨_, _, rfl, _, rfl, wp _ _, hf, ?_⟩
      simp only [State.commit]
      split <;> rfl
  | read device keep =>
    obtain ⟨f, -, rfl⟩ | ⟨hf, p, hp, rfl⟩ := sampled_next h
    · exact .inl ⟨f, rfl⟩
    · refine .inr ⟨_, _, rfl, p, rfl, ?_, hf, ?_⟩
      · cases device with
        | some q => exact .inl (by rw [hp]; rfl)
        | none => exact .inr (by rw [hp]; exact wp _ _)
      · simp only [State.commit]
        split <;> rfl
  | configE =>
    obtain ⟨f, -, rfl⟩ | ⟨hf, rfl⟩ := micro_next h
    · exact .inl ⟨f, rfl⟩
    · exact .inr ⟨_, _, rfl, rfl, by intro he; simp [highFault, he] at hf, rfl⟩
  | configRS =>
    obtain ⟨f, -, rfl⟩ | ⟨hf, rfl⟩ := micro_next h
    · exact .inl ⟨f, rfl⟩
    · exact .inr ⟨_, _, rfl, rfl, by intro he; simp [highFault, he] at hf, rfl⟩
  | configRW =>
    obtain ⟨f, -, rfl⟩ | ⟨hf, rfl⟩ := micro_next h
    · exact .inl ⟨f, rfl⟩
    · exact .inr ⟨_, _, rfl, rfl, by intro he; simp [highFault, he] at hf, rfl⟩
  | configData =>
    obtain ⟨f, -, rfl⟩ | ⟨hf, rfl⟩ := micro_next h
    · exact .inl ⟨f, rfl⟩
    · have he : m.st.e ≠ some true := by
        intro he
        simp [configDataFault, he] at hf
      exact .inr ⟨_, _, rfl, rfl, he, by intro hr; simp [configDataFault, he, hr] at hf, rfl⟩
  | pulse t tag =>
    obtain ⟨f, -, rfl⟩ | ⟨hf, rfl⟩ := expand_next h
    · exact .inl ⟨f, rfl⟩
    · exact .inr ⟨m.st, 0, hs, rfl, rfl⟩
  | poll =>
    obtain ⟨f, -, rfl⟩ | ⟨hf, rfl⟩ := expand_next h
    · exact .inl ⟨f, rfl⟩
    · exact .inr ⟨m.st, 0, hs, rfl, hf, rfl⟩
  | pollTest =>
    cases h
    unfold State.pollTest
    split
    · exact .inr ⟨St.busyClear { m.st with lastBF := some false }, 0, rfl, ⟨m.st.pollIter, some false, .noSettle, rfl⟩, .inl rfl⟩
    · refine .inr ⟨{ m.st with lastBF := some true, pollIter := m.st.pollIter + 1 }, 0, rfl, ⟨m.st.pollIter + 1, some true, m.st.mon.settle, rfl⟩, ?_⟩
      simp only
      split
      · exact .inr (.inl rfl)
      · exact .inr (.inr rfl)
  | finish o =>
    cases h
    unfold State.finish
    split
    · exact .inr ⟨_, _, rfl, .inr rfl, rfl⟩
    · exact .inr ⟨m.st, 0, hs, .inl rfl, rfl⟩
    · exact .inr ⟨m.st, 0, hs, .inl rfl, rfl⟩
  | delay d => cases h; exact .inr ⟨_, _, rfl, rfl, rfl⟩
  | tag t => cases h; exact .inr ⟨_, 0, rfl, rfl, rfl⟩
  | frame p tag => cases h; exact .inr ⟨m.st, 0, hs, rfl, rfl⟩
  | transfer k b => cases h; exact .inr ⟨m.st, 0, hs, rfl, rfl⟩
  | settle k b => cases h; exact .inr ⟨m.st, 0, hs, rfl, rfl⟩
  | pollReset => cases h; exact .inr ⟨_, 0, rfl, rfl, rfl⟩
  | pollIteration => cases h; exact .inr ⟨m.st, 0, hs, rfl, rfl⟩
  | giveFlag =>
    cases h
    unfold State.giveFlag
    split
    · exact .inr ⟨m.st.busyClear, 0, rfl, .inr rfl, rfl⟩
    · exact .inr ⟨m.st, 0, hs, .inl rfl, rfl⟩
  | advance => cases h; exact .inr ⟨_, 0, rfl, rfl, rfl⟩
  | abortEnable => cases h; exact .inr ⟨_, _, rfl, rfl, rfl⟩
  | abortReadWrite => cases h; exact .inr ⟨_, _, rfl, rfl, rfl⟩
  | abortDirection =>
    cases h
    refine .inr ⟨_, _, rfl, _, rfl, wp _ _, ?_⟩
    simp only [State.commit]
    split <;> rfl
  | abortFinish => cases h; exact .inr ⟨_, _, rfl, rfl, rfl⟩

/-- Everything a step can do with an instance that exists, construction apart: nothing, a fault, or what one action does. -/
theorem step_does {s t : State} {m : Instance} (hm : s.inst = some m) (hnc : ¬ ConstructsNext s) (h : step s = .next t) :
    (t.inst = some m ∧ (t.cont = s.cont ∨ t.cont = abortSteps
      ∨ Clean m.cfg.width (m.st.phase.pollUsable = true) (SendsInnerNext s) t.cont))
    ∨ (m.st.faults = [] ∧ ∃ f, t.inst = some { m with st := { m.st with faults := m.st.faults ++ [f] } } ∧ t.cont = [])
    ∨ (m.st.faults = [] ∧ ∃ a u, act a m u = .next t ∧ u.inst = some m
      ∧ (s.cont = a :: u.cont ∨ (s.cont = [] ∧ u.cont = [] ∧ a.direct = true ∧ a.fits m.cfg.width = true))) := by
  obtain ⟨ha, h⟩ | ⟨ha, a, rest, hc, h⟩ | ⟨ha, hc, c, rest, i, hk, hd, h⟩ | ⟨ha, hc, hk, rfl⟩ := step_next h
  · obtain ⟨m', hm', ⟨-, rfl⟩ | ⟨-, -, rfl⟩ | ⟨hd, hf, rfl⟩⟩ := abort_next h
    · exact .inl ⟨hm, .inl rfl⟩
    · exact .inl ⟨hm, .inl rfl⟩
    · exact .inl ⟨hm, .inr (.inl rfl)⟩
  · obtain ⟨m', hm', hf, h⟩ := perform_next h
    cases hm.symm.trans hm'
    exact .inr (.inr ⟨hf, a, _, h, hm, .inl hc⟩)
  · obtain ⟨c', rfl⟩ | ⟨m', hm', hx⟩ := exec_next h
    · exact absurd ⟨ha, hc, c', { s with calls := rest }, by simp [State.fetch, hk, hd]⟩ hnc
    · cases hm.symm.trans hm'
      rcases hx with ⟨h1, h2⟩ | ⟨hi, f, rfl⟩ | ⟨hi, a, hd, hfit, h⟩
      · refine .inl ⟨h1, ?_⟩
        rcases h2 with h2 | ⟨-, -, h2⟩ | ⟨-, h2⟩
        · exact .inl h2
        · exact .inr (.inl h2)
        · exact .inr (.inr (h2.mono id fun hx => ⟨ha, hc, i, { s with calls := rest }, by simp [State.fetch, hk, hd], hx⟩))
      · exact .inr (.inl ⟨hi.2.2, f, rfl, rfl⟩)
      · exact .inr (.inr ⟨hi.2.2, a, _, h, hm, .inr ⟨hc, hi.2.1, hd, hfit⟩⟩)
  · unfold State.idle
    rw [hm]
    simp only
    split
    · exact .inr (.inr ⟨‹_›, .delay 0, s, by simp [act], hm, .inr ⟨hc, hc, rfl, rfl⟩⟩)
    · exact .inl ⟨hm, .inl rfl⟩

end Sys2Proof.Machine
end

