-- ==== Sys2Proof/Laws/Run.lean ====
section
/-! SUPPORT. What a run does with the head of the driver's continuation: one lemma for each action that goes through, and one for each composite
of 30_encoding.md R94. Each gives the `St` that the rest of the continuation starts from, whatever the draws are. -/

set_option Elab.async false

namespace Sys2Proof.Machine

/-- The driver runs on an instance with this configuration and `St`, no fault is recorded, no abort will come, and `cont` is left to do. -/
structure Live (s : State) (c : Cfg) (st : St) (cont : List Act) : Prop where
  inst : s.inst = some ⟨c, st⟩
  good : st.faults = []
  calm : s.abortIn = none
  cont : s.cont = cont

/-- `St` at another time. -/
def St.setNow (s : St) (n : Nat) : St := { s with now := n }

@[simp] theorem St.setNow_phase (s : St) (n : Nat) : (s.setNow n).phase = s.phase := rfl
@[simp] theorem St.setNow_e (s : St) (n : Nat) : (s.setNow n).e = s.e := rfl
@[simp] theorem St.setNow_rs (s : St) (n : Nat) : (s.setNow n).rs = s.rs := rfl
@[simp] theorem St.setNow_rw (s : St) (n : Nat) : (s.setNow n).rw = s.rw := rfl
@[simp] theorem St.setNow_data (s : St) (n : Nat) : (s.setNow n).data = s.data := rfl
@[simp] theorem St.setNow_dir (s : St) (n : Nat) : (s.setNow n).dir = s.dir := rfl
@[simp] theorem St.setNow_halfByte (s : St) (n : Nat) : (s.setNow n).halfByte = s.halfByte := rfl
@[simp] theorem St.setNow_pollIter (s : St) (n : Nat) : (s.setNow n).pollIter = s.pollIter := rfl
@[simp] theorem St.setNow_lastBF (s : St) (n : Nat) : (s.setNow n).lastBF = s.lastBF := rfl
@[simp] theorem St.setNow_mon (s : St) (n : Nat) : (s.setNow n).mon = s.mon := rfl
@[simp] theorem St.setNow_trace (s : St) (n : Nat) : (s.setNow n).trace = s.trace := rfl
@[simp] theorem St.setNow_faults (s : St) (n : Nat) : (s.setNow n).faults = s.faults := rfl
@[simp] theorem St.setNow_result (s : St) (n : Nat) : (s.setNow n).result = s.result := rfl
@[simp] theorem St.setNow_now (s : St) (n : Nat) : (s.setNow n).now = n := rfl
@[simp] theorem St.setNow_setNow (s : St) (n k : Nat) : (s.setNow n).setNow k = s.setNow k := rfl
@[simp] theorem St.setNow_self (s : St) : s.setNow s.now = s := rfl

/-- What an action that reads nothing from the device leaves alone beside the instance and the continuation. -/
structure Same (s t : State) : Prop where
  calls : t.calls = s.calls
  caller : t.caller = s.caller
  ret : t.ret = s.ret
  bf : t.bf = s.bf
  answers : t.answers = s.answers

theorem Same.refl (s : State) : Same s s := ⟨rfl, rfl, rfl, rfl, rfl⟩

theorem Same.trans {s t u : State} (h : Same s t) (h2 : Same t u) : Same s u :=
  ⟨h2.calls.trans h.calls, h2.caller.trans h.caller, h2.ret.trans h.ret, h2.bf.trans h.bf, h2.answers.trans h.answers⟩

/-- One action. -/
theorem Live.step {s : State} {c : Cfg} {st : St} {a : Act} {rest : List Act} (h : Live s c st (a :: rest)) :
    Machine.step s = act a ⟨c, st⟩ { s with cont := rest } := by
  have ht : s.tick = s := by
    have hn : s.abortIn.map (· - 1) = s.abortIn := by rw [h.calm]; rfl
    unfold State.tick
    rw [hn]
  rw [step_act h.inst h.good (by rw [h.calm]; simp) h.cont, ht]

/-- A micro-step that finds no fault. -/
theorem Live.micro {s : State} {c : Cfg} {st eff : St} {a : Act} {rest : List Act} {f : Option ModelFault} (h : Live s c st (a :: rest))
    (ha : ∀ u : State, act a ⟨c, st⟩ u = u.micro ⟨c, st⟩ f eff) (hf : f = none) (he : eff.faults = []) :
    ∃ t n, Runs s t ∧ Live t c (eff.setNow n) rest ∧ Same s t ∧ eff.now ≤ n := by
  subst hf
  exact ⟨_, _, Runs.one (h.step.trans (ha _)), ⟨rfl, he, h.calm, rfl⟩, ⟨rfl, rfl, rfl, rfl, rfl⟩, by simp⟩

/-- An action that takes no time and rewrites `St`. -/
theorem Live.silent {s : State} {c : Cfg} {st eff : St} {a : Act} {rest : List Act} (h : Live s c st (a :: rest))
    (ha : ∀ u : State, act a ⟨c, st⟩ u = .next (u.put ⟨c, st⟩ eff)) (he : eff.faults = []) :
    ∃ t, Runs s t ∧ Live t c eff rest ∧ Same s t :=
  ⟨_, Runs.one (h.step.trans (ha _)), ⟨rfl, he, h.calm, rfl⟩, ⟨rfl, rfl, rfl, rfl, rfl⟩⟩

/-- A composite expands in place. -/
theorem Live.push {s : State} {c : Cfg} {st : St} {a : Act} {steps rest : List Act} (h : Live s c st (a :: rest))
    (ha : ∀ u : State, act a ⟨c, st⟩ u = .next (u.push steps)) : ∃ t, Runs s t ∧ Live t c st (steps ++ rest) ∧ Same s t :=
  ⟨_, Runs.one (h.step.trans (ha _)), ⟨h.inst, h.good, h.calm, rfl⟩, ⟨rfl, rfl, rfl, rfl, rfl⟩⟩

/-- A wait takes at least its argument (R117). -/
theorem Live.delay {s : State} {c : Cfg} {st : St} {d : Nat} {rest : List Act} (h : Live s c st (.delay d :: rest)) :
    ∃ t n, Runs s t ∧ Live t c (st.setNow n) rest ∧ Same s t ∧ st.now + d ≤ n :=
  ⟨_, st.now + (d + State.nextDelay { s with cont := rest }), Runs.one h.step, ⟨rfl, h.good, h.calm, rfl⟩, ⟨rfl, rfl, rfl, rfl, rfl⟩,
    by omega⟩

/-- The line a control line's latch holds after a write that makes no edge of Enable, RS or RW (R112). -/
theorem Live.select {s : State} {c : Cfg} {st : St} {l : CtrlLine} {v : Bit} {rest : List Act} (h : Live s c st (.line l v :: rest))
    (hf : lineFault c l v st = none) :
    ∃ t n, Runs s t ∧ Live t c ((lineEffect c l v st).setNow n) rest ∧ Same s t ∧ st.now ≤ n := by
  obtain ⟨t, n, hr, hL, hS, hn⟩ := h.micro (f := lineFault c l v st) (eff := lineEffect c l v st) (fun _ => rfl) hf (by simp [h.good])
  exact ⟨t, n, hr, hL, hS, by simpa using hn⟩

/-- RS may be written between bytes, and in the middle of one at the level it has (R112). -/
theorem select_ok {c : Cfg} {st : St} {v : Bit} (hr : st.rs ≠ none) (he : st.e = some false) (hh : st.halfByte = true → st.rs = some v) :
    lineFault c .rs v st = none := by
  have : ¬ (st.halfByte = true ∧ ¬ st.rs = some v) := fun ⟨a, b⟩ => b (hh a)
  simp [lineFault, unwrittenLine, St.line, hr, he, this]

theorem between_bytes {st : St} {v : Bit} (hh : st.halfByte = false) : st.halfByte = true → st.rs = some v := by simp [hh]

theorem write_ok {c : Cfg} {st : St} (hr : st.rw ≠ none) (he : st.e = some false) : lineFault c .rw false st = none := by
  simp [lineFault, unwrittenLine, St.line, hr, he]

theorem read_ok {c : Cfg} {st : St} (hr : st.rw ≠ none) (he : st.e = some false) (hd : st.dir = some .inputWithPullup) :
    lineFault c .rw true st = none := by
  simp [lineFault, unwrittenLine, St.line, hr, he, hd]

/-- A rising edge that meets every minimum time finds no fault (R243 to R252). -/
theorem riseFault_none {c : Cfg} {s : St} (h : GapOver c s) (hs : c.tSetup ≤ s.now - s.mon.lastChange)
    (hw : s.cycleKind = .read ∨ Settled s) : riseFault c s = none := by
  obtain ⟨hp, hg⟩ := h
  have hb : blindShort c s = none := by
    unfold blindShort
    split
    · rename_i tf k hl
      have := hg tf _ hl
      simp only [gap] at this
      rw [if_neg (by omega)]
    · rfl
  have hm : modeShort c s = false := by
    unfold modeShort
    split
    · rename_i tf hl
      have := hg tf _ hl
      simp only [gap] at this
      simp only [decide_eq_false_iff_not]
      omega
    · rfl
  have hl : lowShort c s = false := by
    unfold lowShort
    split
    · rename_i tf tag hl
      have := hg tf _ hl
      cases tag <;> simp only [gap] at this <;> simp [tLow] <;> omega
    · rfl
  have hq : ¬ (¬ s.mon.anyRise = true ∧ s.now < c.tPower) := by
    rintro ⟨a, b⟩
    rcases hp with hp | hp
    · exact a hp
    · omega
  unfold riseFault
  rw [if_neg hq, hb]
  simp only [hm, hl, Bool.false_eq_true, if_false]
  rw [if_neg (by omega)]
  rcases hw with hw | hw
  · rw [hw]
    rfl
  · unfold Settled at hw
    unfold settleFault
    split
    · cases hq : s.mon.settle with
      | noSettle => rfl
      | untilTime t =>
        rw [hq] at hw
        simp only at hw ⊢
        rw [if_neg (by omega)]
      | untilBusyClear =>
        rw [hq] at hw
        exact hw.elim
    · rfl

/-- `halfByte` after a write pulse with this tag (R112). -/
def halfAfter (before : Bool) : FallTag → Bool
  | .innerNibble => true
  | .final _ _ => false
  | _ => before

/-- The settle obligation after a write pulse with this tag whose fall is at `τ` (R251, R253). -/
def settleAfter (c : Cfg) (τ : Nat) : FallTag → SettleReq
  | .final k b => if c.strategy = .fixedDelay then .untilTime (τ + tSettle c k b) else .untilBusyClear
  | _ => .noSettle

/-- `St` after a write pulse (R112, R115): its event at `τ`, and time `n`. -/
def St.afterPulse (s : St) (c : Cfg) (p : Pattern) (tag : FallTag) (r : Bit) (τ n : Nat) : St :=
  { s with
    now := n
    halfByte := halfAfter s.halfByte tag
    trace := s.trace ++ [.wFrame r p τ]
    mon := { s.mon with
      riseAt := none, riseKind := none, curTag := tag, lastFall := some (τ, tag), anyRise := true, settle := settleAfter c τ tag } }

/-- `St` with the ghost tag set. -/
def St.tagged (s : St) (tag : FallTag) : St := { s with mon := { s.mon with curTag := tag } }

theorem lineEffect_rise {c : Cfg} {s : St} (h : s.e = some false) : lineEffect c .e true s = s.rise := by
  simp [lineEffect, h]

theorem lineEffect_fall {c : Cfg} {s : St} (h : s.e = some true) : lineEffect c .e false s = s.fall c := by
  simp [lineEffect, h]

theorem fall_after_rise {c : Cfg} {s : St} {tag : FallTag} {r : Bit} {p : Pattern} (τ n : Nat) (he : s.e = some false)
    (hw : s.rw = some false) (hr : s.rs = some r) (hp : s.data = some p) :
    (St.fall c ((s.tagged tag).rise.setNow τ)).setNow n = s.afterPulse c p tag r τ n := by
  have hk : (s.tagged tag).cycleKind = .write := by simp [St.cycleKind, St.tagged, hw]
  obtain ⟨phase, e, rs, rw, data, dir, half, iter, bf, now, mon, trace, faults, result⟩ := s
  simp only at he hw hr hp
  subst he hw hr hp
  unfold St.fall St.rise St.settleAfterRise
  rw [hk]
  cases tag <;> simp [St.tagged, St.setNow, St.afterPulse, St.halfAfterPulse, St.pulseEvent, St.settleAfterFall, halfAfter, settleAfter]

theorem fall_ok {c : Cfg} {s : St} {r : Bit} {p : Pattern} {tr : Nat} (he : s.e = some true) (hk : s.mon.riseKind = some .write)
    (hr : s.rs = some r) (hp : s.data = some p) (ht : s.mon.riseAt = some tr) (hw : c.tPwEn ≤ s.now - tr) :
    lineFault c .e false s = none := by
  have : ¬ s.now - tr < c.tPwEn := by omega
  simp [lineFault, unwrittenLine, St.line, fallFault, writeFallFault, he, hk, hr, hp, ht, this]

theorem read_fall_ok {c : Cfg} {s : St} (he : s.e = some true) (hk : s.mon.riseKind = some .read) : lineFault c .e false s = none := by
  simp [lineFault, unwrittenLine, St.line, fallFault, he, hk]

/-- A rising edge of a read cycle, or of a write cycle in output direction (R112). -/
theorem rise_ok {c : Cfg} {s : St} (he : s.e = some false) (hd : s.rw = some true ∨ (s.rw = some false ∧ s.dir = some .output))
    (hr : riseFault c s = none) : lineFault c .e true s = none := by
  rcases hd with hd | ⟨hd, hx⟩
  · simp [lineFault, unwrittenLine, St.line, he, hr, hd]
  · simp [lineFault, unwrittenLine, St.line, he, hr, hd, hx]

/-- An Enable pulse of a write cycle (R115): its event comes at the falling edge, at least `d` after the start. -/
theorem Live.pulse {s : State} {c : Cfg} {st : St} {d : Nat} {tag : FallTag} {rest : List Act} {r : Bit} {p : Pattern}
    (h : Live s c st (.pulse d tag :: rest)) (he : st.e = some false) (hw : st.rw = some false) (hd : st.dir = some .output)
    (hr : st.rs = some r) (hp : st.data = some p) (hg : GapOver c st) (hs : c.tSetup ≤ st.now - st.mon.lastChange) (hq : Settled st)
    (hpw : c.tPwEn ≤ d) :
    ∃ t τ n, Runs s t ∧ Live t c (st.afterPulse c p tag r τ n) rest ∧ Same s t ∧ st.now + d ≤ τ ∧ τ ≤ n := by
  have hn : pulseFault st = none := by simp [pulseFault, he, hw, hd]
  obtain ⟨t1, r1, L1, S1⟩ := h.push (steps := pulseSteps d tag) (fun u => by simp [act, State.expand, hn])
  obtain ⟨t2, r2, L2, S2⟩ := L1.silent (eff := st.tagged tag) (fun _ => rfl) h.good
  have hrise : riseFault c (st.tagged tag) = none := riseFault_none hg hs (.inr hq)
  have e1 : lineFault c .e true (st.tagged tag) = none := rise_ok he (.inr ⟨hw, hd⟩) hrise
  have e2 : lineEffect c .e true (st.tagged tag) = (st.tagged tag).rise := lineEffect_rise he
  obtain ⟨t3, n3, r3, L3, S3, h3⟩ := L2.micro (eff := (st.tagged tag).rise) (fun u => by simp only [act, e2]) e1 h.good
  obtain ⟨t4, τ, r4, L4, S4, h4⟩ := L3.delay
  rw [St.setNow_setNow] at L4
  have hτ : st.now + d ≤ τ := by
    have : ((st.tagged tag).rise).now = st.now := rfl
    simp only [St.setNow_now] at h4
    omega
  have hk : ((st.tagged tag).rise.setNow τ).mon.riseKind = some .write := by simp [St.rise, St.cycleKind, St.tagged, hw]
  have e3 : lineFault c .e false ((st.tagged tag).rise.setNow τ) = none :=
    fall_ok (tr := st.now) (r := r) (p := p) rfl hk hr hp rfl (by simp only [St.setNow_now]; omega)
  have e4 : lineEffect c .e false ((st.tagged tag).rise.setNow τ) = St.fall c ((st.tagged tag).rise.setNow τ) :=
    lineEffect_fall rfl
  obtain ⟨t5, n, r5, L5, S5, h5⟩ := L4.micro (eff := St.fall c ((st.tagged tag).rise.setNow τ)) (fun u => by simp only [act]; rw [e4]) e3
    (by simp only [St.fall]; split <;> exact h.good)
  rw [fall_after_rise τ n he hw hr hp] at L5
  refine ⟨t5, τ, n, r1.trans (r2.trans (r3.trans (r4.trans r5))), L5, S1.trans (S2.trans (S3.trans (S4.trans S5))), hτ, ?_⟩
  have : (St.fall c ((st.tagged tag).rise.setNow τ)).now = τ := by simp only [St.fall]; split <;> rfl
  omega

/-! ### What a later time keeps -/

theorem GapOver.later {c : Cfg} {s t : St} (h : GapOver c s) (hm : t.mon.anyRise = s.mon.anyRise) (hl : t.mon.lastFall = s.mon.lastFall)
    (hn : s.now ≤ t.now) : GapOver c t := by
  refine ⟨?_, fun tf tag ht => ?_⟩
  · rw [hm]
    rcases h.1 with h | h
    · exact .inl h
    · exact .inr (by omega)
  · have := h.2 tf tag (hl ▸ ht)
    omega

theorem Settled.later {s t : St} (h : Settled s) (hm : t.mon.settle = s.mon.settle) (hn : s.now ≤ t.now) : Settled t := by
  unfold Settled at *
  rw [hm]
  split at h
  · trivial
  · omega
  · exact h.elim

theorem gapOver_afterPulse {c : Cfg} {s : St} {p : Pattern} {tag : FallTag} {r : Bit} {τ n : Nat} (h : τ + gap c tag ≤ n) :
    GapOver c (s.afterPulse c p tag r τ n) := by
  refine ⟨.inl rfl, fun tf tg ht => ?_⟩
  have : (τ, tag) = (tf, tg) := by simpa [St.afterPulse] using ht
  cases this
  show gap c tag ≤ n - τ
  omega

/-! ### Frames -/

/-- A frame (R134): the pattern on the data lines, the setup, the pulse, the low time. -/
theorem Live.frame {s : State} {c : Cfg} {st : St} {p : Pattern} {tag : FallTag} {rest : List Act} {r : Bit}
    (h : Live s c st (.frame p tag :: rest)) (he : st.e = some false) (hw : st.rw = some false) (hd : st.dir = some .output)
    (hr : st.rs = some r) (hg : GapOver c st) (hq : Settled st) :
    ∃ t τ n, Runs s t ∧ Live t c ((dataEffect p st).afterPulse c p tag r τ n) rest ∧ Same s t ∧ st.now + c.tSetup + c.tPwEn ≤ τ
      ∧ τ + c.tEnLow ≤ n := by
  obtain ⟨t1, r1, L1, S1⟩ := h.push (steps := frameSteps c p tag) (fun _ => rfl)
  obtain ⟨t2, n2, r2, L2, S2, h2⟩ := L1.micro (f := dataFault st) (eff := dataEffect p st) (fun _ => rfl)
    (by simp [dataFault, hd, he]) h.good
  obtain ⟨t3, n3, r3, L3, S3, h3⟩ := L2.delay
  rw [St.setNow_setNow] at L3
  have hle : st.now ≤ n2 := h2
  simp only [St.setNow_now] at h3
  obtain ⟨t4, τ, n4, r4, L4, S4, h4, h4'⟩ := L3.pulse (r := r) (p := p) he hw hd hr rfl
    (hg.later rfl rfl (by simp only [St.setNow_now]; omega))
    (by
      have : ((dataEffect p st).setNow n3).mon.lastChange = st.now := rfl
      simp only [this, St.setNow_now]
      omega)
    (hq.later rfl (by simp only [St.setNow_now]; omega)) (Nat.le_refl _)
  obtain ⟨t5, n5, r5, L5, S5, h5⟩ := L4.delay
  refine ⟨t5, τ, n5, r1.trans (r2.trans (r3.trans (r4.trans r5))), L5, S1.trans (S2.trans (S3.trans (S4.trans S5))), ?_, ?_⟩
  · simp only [St.setNow_now] at h4
    omega
  · have : (((dataEffect p st).setNow n3).afterPulse c p tag r τ n4).now = n4 := rfl
    omega

/-! ### Reads -/

/-- `St` after a read cycle (R193): the sample's event at `τ`, the fall at `τ'`, and time `n`. -/
def St.afterRead (s : St) (p : Pattern) (r : Bit) (τ τ' n : Nat) : St :=
  { s with
    now := n
    trace := s.trace ++ [.rCycle r p τ]
    mon := { s.mon with riseAt := none, riseKind := none, lastFall := some (τ', .read), anyRise := true } }

/-- What a read cycle does with the device's answers and the driver's local variable (R116, R193, R194). -/
structure Sampled (c : Cfg) (device : Option Pattern) (keep : Bool) (p : Pattern) (s t : State) : Prop where
  calls : t.calls = s.calls
  caller : t.caller = s.caller
  ret : t.ret = .pattern p
  bf : t.bf = if keep then db7 p else s.bf
  given : ∀ q, device = some q → p = q ∧ t.answers = s.answers
  drawn : device = none → p.width = c.width ∧ t.answers = s.answers.tail ∧ ∀ x xs, s.answers = x :: xs → p = wiredPart c.width x

theorem wiredPart_width (w : Width) (x : Byte) : (wiredPart w x).width = w := by cases w <;> rfl

/-- A read cycle (R193): E high, the hold, the sample, E low, the hold. -/
theorem Live.readCycle {s : State} {c : Cfg} {st : St} {device : Option Pattern} {keep : Bool} {rest : List Act} {r : Bit}
    (h : Live s c st (Machine.readCycle c device keep ++ rest)) (he : st.e = some false) (hw : st.rw = some true)
    (hd : st.dir = some .inputWithPullup) (hr : st.rs = some r) (hg : GapOver c st) (hs : c.tSetup ≤ st.now - st.mon.lastChange) :
    ∃ t p τ τ' n, Runs s t ∧ Live t c (st.afterRead p r τ τ' n) rest ∧ Sampled c device keep p s t ∧ st.now + c.tPollHigh ≤ τ
      ∧ τ ≤ τ' ∧ τ' + c.tPollLow ≤ n := by
  have hk : st.cycleKind = .read := by simp [St.cycleKind, hw]
  have e1 : lineFault c .e true st = none :=
    rise_ok he (.inl hw) (riseFault_none hg hs (.inl hk))
  obtain ⟨t1, n1, r1, L1, S1, h1⟩ := Live.micro (a := .line .e true) (eff := st.rise) h
    (fun u => by simp only [act, lineEffect_rise he]) e1 h.good
  obtain ⟨t2, n2, r2, L2, S2, h2⟩ := L1.delay
  rw [St.setNow_setNow] at L2
  have hn1 : st.now ≤ n1 := h1
  simp only [St.setNow_now] at h2
  have e2 : sampleFault c (st.rise.setNow n2) = none := by
    have a1 : (st.rise.setNow n2).dir = some .inputWithPullup := hd
    have a2 : (st.rise.setNow n2).rw = some true := hw
    have a3 : (st.rise.setNow n2).e = some true := rfl
    have a4 : (st.rise.setNow n2).rs = some r := hr
    have a5 : (st.rise.setNow n2).mon.riseAt = some st.now := rfl
    have a6 : ¬ n2 - st.now < c.tPollHigh := by omega
    rw [sampleFault, a1, a2, a3, a4, sampleTimeFault, a5]
    simp [a6]
  have hsample : ∃ t p n, Runs t2 t ∧ Live t c ((sampleEffect p (st.rise.setNow n2)).setNow n) (.line .e false :: .delay c.tPollLow :: rest)
      ∧ Sampled c device keep p t2 t ∧ n2 ≤ n := by
    have hstep := Live.step (a := .read device keep) L2
    have hans : ∀ cont, State.nextAnswer { t2 with cont := cont } = t2.nextAnswer := fun _ => rfl
    simp only [act, State.sampled, e2] at hstep
    cases device with
    | some q =>
      refine ⟨_, q, _, Runs.one hstep, ⟨rfl, h.good, L2.calm, rfl⟩, ⟨rfl, rfl, rfl, rfl, fun _ hq => ?_, fun hq => (nomatch hq)⟩,
        Nat.le_add_right _ _⟩
      cases hq
      exact ⟨rfl, rfl⟩
    | none =>
      refine ⟨_, _, _, Runs.one hstep, ⟨rfl, h.good, L2.calm, rfl⟩,
        ⟨rfl, rfl, rfl, rfl, fun _ hq => (nomatch hq), fun _ => ⟨wiredPart_width _ _, rfl, fun x xs hx => ?_⟩⟩, Nat.le_add_right _ _⟩
      simp only [State.nextAnswer, hx]
  obtain ⟨t3, p, n3, r3, L3, S3, h3⟩ := hsample
  have hkind : ((sampleEffect p (st.rise.setNow n2)).setNow n3).mon.riseKind = some .read := by
    show some st.cycleKind = some .read
    rw [hk]
  have e3 : lineFault c .e false ((sampleEffect p (st.rise.setNow n2)).setNow n3) = none := read_fall_ok rfl hkind
  have e4 : lineEffect c .e false ((sampleEffect p (st.rise.setNow n2)).setNow n3)
      = St.fall c ((sampleEffect p (st.rise.setNow n2)).setNow n3) := lineEffect_fall rfl
  obtain ⟨t4, n4, r4, L4, S4, h4⟩ := L3.micro (eff := St.fall c ((sampleEffect p (st.rise.setNow n2)).setNow n3))
    (fun u => by simp only [act]; rw [e4]) e3 (by simp only [St.fall]; split <;> exact h.good)
  obtain ⟨t5, n5, r5, L5, S5, h5⟩ := L4.delay
  rw [St.setNow_setNow] at L5
  have hend : (St.fall c ((sampleEffect p (st.rise.setNow n2)).setNow n3)).setNow n5 = st.afterRead p r n2 n3 n5 := by
    have hne : ¬ ((sampleEffect p (st.rise.setNow n2)).setNow n3).mon.riseKind = some .write := by rw [hkind]; simp
    rw [St.fall, if_neg hne]
    simp only [St.afterRead, St.setNow, sampleEffect, St.rise, St.settleAfterRise, hk, hr, he]
    simp
  rw [hend] at L5
  have hn4 : (St.fall c ((sampleEffect p (st.rise.setNow n2)).setNow n3)).now = n3 := by simp only [St.fall]; split <;> rfl
  simp only [St.setNow_now] at h5
  have hS0 : Same s t2 := S1.trans S2
  have hS1 : Same t3 t5 := S4.trans S5
  refine ⟨t5, p, n2, n3, n5, r1.trans (r2.trans (r3.trans (r4.trans r5))), L5,
    ⟨hS1.calls.trans (S3.calls.trans hS0.calls), hS1.caller.trans (S3.caller.trans hS0.caller), hS1.ret.trans S3.ret,
      hS1.bf.trans (S3.bf.trans (by rw [hS0.bf])), fun q hq => ?_, fun hq => ?_⟩, by omega, h3, by omega⟩
  · obtain ⟨a, b⟩ := S3.given q hq
    exact ⟨a, hS1.answers.trans (b.trans hS0.answers)⟩
  · obtain ⟨a, b, d⟩ := S3.drawn hq
    exact ⟨a, hS1.answers.trans (b.trans (by rw [hS0.answers])), fun x xs hx => d x xs (hS0.answers.trans hx)⟩

theorem gapOver_afterRead {c : Cfg} {s : St} {p : Pattern} {r : Bit} {τ τ' n : Nat} (h : τ' + c.tPollLow ≤ n) :
    GapOver c (s.afterRead p r τ τ' n) := by
  refine ⟨.inl rfl, fun tf tg ht => ?_⟩
  have : (τ', FallTag.read) = (tf, tg) := by simpa [St.afterRead] using ht
  cases this
  show c.tPollLow ≤ n - τ'
  omega

/-! ### Directions and phases -/

/-- A change of direction (R114); `x` is the draw of the latch. -/
theorem Live.direction {s : State} {c : Cfg} {st : St} {d : Dir} {rest : List Act} (h : Live s c st (.direction d :: rest))
    (hf : directionFault d st = none) :
    ∃ t x n, Runs s t ∧ Live t c ((directionEffect d x st).setNow n) rest ∧ Same s t ∧ st.now ≤ n ∧ x.width = c.width := by
  have hstep := h.step
  simp only [act, State.direct, hf, State.micro] at hstep
  refine ⟨_, _, _, Runs.one hstep, ⟨rfl, by simpa using h.good, ?_, ?_⟩, ⟨?_, ?_, ?_, ?_, ?_⟩, ?_, wiredPart_width _ _⟩
  · simp only [State.commit]; split <;> exact h.calm
  · simp only [State.commit]; split <;> rfl
  · simp only [State.commit]; split <;> rfl
  · simp only [State.commit]; split <;> rfl
  · simp only [State.commit]; split <;> rfl
  · simp only [State.commit]; split <;> rfl
  · simp only [State.commit]; split <;> rfl
  · simp

/-- `pc <-` the next phase (R175). -/
theorem Live.advance {s : State} {c : Cfg} {st : St} {rest : List Act} (h : Live s c st (.advance :: rest)) :
    ∃ t, Runs s t ∧ Live t c { st with phase := st.phase.next } rest ∧ Same s t :=
  h.silent (fun _ => rfl) h.good

/-- The end of a public operation: the outcome is recorded, and its event comes at the time of the end (R211). -/
theorem Live.finish {s : State} {c : Cfg} {st : St} {o : OpOutcome} {rest : List Act} (h : Live s c st (.finish o :: rest))
    (hp : s.caller = .publicOp) :
    ∃ t n, Runs s t ∧ st.now ≤ n ∧ t.ret = .outcome o ∧ t.calls = s.calls ∧ t.answers = s.answers
      ∧ Live t c { st with
        phase := if o = .busyFlagTimeout then st.phase.endIn (.failed o) else st.phase
        result := some o, trace := st.trace ++ [.outcome o st.now], now := n } rest := by
  have hstep := h.step
  simp only [act, State.finish, hp] at hstep
  exact ⟨_, st.now + (0 + s.nextDelay), Runs.one hstep, by omega, rfl, rfl, rfl, ⟨rfl, h.good, h.calm, rfl⟩⟩

/-! ### Transfers -/

/-- The bus between transfers: the lines rest, RS is written, and the next write frame meets every minimum time. -/
structure BusFree (c : Cfg) (s : St) : Prop where
  rest : Resting s
  rs : s.rs ≠ none
  gap : GapOver c s
  settled : Settled s

/-- What a sequence of write frames changes beside the lines, the latch, the time and the monitor: the trace, by `w`. -/
structure Sent (s t : St) (w : List Event) : Prop where
  trace : t.trace = s.trace ++ w
  phase : t.phase = s.phase
  pollIter : t.pollIter = s.pollIter
  lastBF : t.lastBF = s.lastBF
  result : t.result = s.result

theorem Sent.trans {s t u : St} {w v : List Event} (h : Sent s t w) (h2 : Sent t u v) : Sent s u (w ++ v) :=
  ⟨by rw [h2.trace, h.trace, List.append_assoc], h2.phase.trans h.phase, h2.pollIter.trans h.pollIter, h2.lastBF.trans h.lastBF,
    h2.result.trans h.result⟩

theorem writeFrames_append (w v : List Event) : writeFrames (w ++ v) = writeFrames w ++ writeFrames v := List.filterMap_append

/-- RS and RW at the levels of a write, also in the middle of a byte where RS has its level (R112). -/
theorem Live.selectLines {s : State} {c : Cfg} {st : St} {v : Bit} {rest : List Act}
    (h : Live s c st (.line .rs v :: .line .rw false :: rest)) (he : st.e = some false) (hw : st.rw ≠ none) (hr : st.rs ≠ none)
    (hh : st.halfByte = true → st.rs = some v) :
    ∃ t n1 n2, Runs s t ∧ Live t c { st with
        rs := some v, rw := some false, now := n2, mon := { st.mon with lastChange := n1 } } rest
      ∧ Same s t ∧ st.now ≤ n1 ∧ n1 ≤ n2 := by
  obtain ⟨t1, n1, r1, L1, S1, h1⟩ := h.select (select_ok hr he hh)
  obtain ⟨t2, n2, r2, L2, S2, h2⟩ := L1.select (write_ok (by simpa [lineEffect] using hw) (by simp [lineEffect, he]))
  exact ⟨t2, n1, n2, r1.trans r2, L2, S1.trans S2, h1, h2⟩

/-- RS and RW at the levels of a write between transfers (R133, R135). -/
theorem Live.selectWrite {s : State} {c : Cfg} {st : St} {v : Bit} {rest : List Act}
    (h : Live s c st (.line .rs v :: .line .rw false :: rest)) (hb : BusFree c st) :
    ∃ t st', Runs s t ∧ Live t c st' rest ∧ Same s t ∧ Sent st st' [] ∧ BusFree c st' ∧ st'.rs = some v ∧ st.now ≤ st'.now := by
  obtain ⟨⟨he, hw, hd, hh⟩, hr, hg, hq⟩ := hb
  obtain ⟨t, n1, n2, r, L, S, h1, h2⟩ := h.selectLines he (by simp [hw]) hr (between_bytes hh)
  have hn : st.now ≤ n2 := Nat.le_trans h1 h2
  exact ⟨t, _, r, L, S, ⟨by simp, rfl, rfl, rfl, rfl⟩, ⟨⟨he, rfl, hd, hh⟩, by simp, hg.later rfl rfl hn, hq.later rfl hn⟩, rfl, hn⟩

/-- What a frame leaves (R134). -/
structure FrameSent (c : Cfg) (s t : St) (p : Pattern) (tag : FallTag) (r : Bit) (τ : Nat) : Prop where
  sent : Sent s t [.wFrame r p τ]
  e : t.e = some false
  rw : t.rw = some false
  dir : t.dir = some .output
  rs : t.rs = some r
  data : t.data = some p
  half : t.halfByte = halfAfter s.halfByte tag
  lastFall : t.mon.lastFall = some (τ, tag)
  anyRise : t.mon.anyRise = true
  settle : t.mon.settle = settleAfter c τ tag
  high : s.now + c.tSetup + c.tPwEn ≤ τ
  low : τ + c.tEnLow ≤ t.now

theorem Live.sendFrame {s : State} {c : Cfg} {st : St} {p : Pattern} {tag : FallTag} {rest : List Act} {r : Bit}
    (h : Live s c st (.frame p tag :: rest)) (he : st.e = some false) (hw : st.rw = some false) (hd : st.dir = some .output)
    (hr : st.rs = some r) (hg : GapOver c st) (hq : Settled st) :
    ∃ t st' τ, Runs s t ∧ Live t c st' rest ∧ Same s t ∧ FrameSent c st st' p tag r τ := by
  obtain ⟨t, τ, n, r1, L, S, h1, h2⟩ := h.frame he hw hd hr hg hq
  exact ⟨t, _, τ, r1, L, S, ⟨⟨rfl, rfl, rfl, rfl, rfl⟩, he, hw, hd, hr, rfl, rfl, rfl, rfl, rfl, h1, h2⟩⟩

theorem FrameSent.gapOver {c : Cfg} {s t : St} {p : Pattern} {tag : FallTag} {r : Bit} {τ : Nat} (h : FrameSent c s t p tag r τ)
    (hn : τ + gap c tag ≤ t.now) : GapOver c t := by
  refine ⟨.inl h.anyRise, fun tf tg ht => ?_⟩
  rw [h.lastFall] at ht
  cases ht
  omega

/-- The frames of a transfer (R135), up to its settle: the last frame is the final one. -/
theorem Live.transferFrames {s : State} {c : Cfg} {st : St} {k : Kind} {b : Byte} {rest : List Act}
    (h : Live s c st (.transfer k b :: rest)) (hb : BusFree c st) :
    ∃ t u st' w p τ, Runs s t ∧ Live t c st' (.settle k b :: rest) ∧ Same s t ∧ Sent st st' w
      ∧ FrameSent c u st' p (.final k b) (kindLevel k) τ ∧ writeFrames w = (pack b c.width).map (fun p => (kindLevel k, p))
      ∧ w.length = (pack b c.width).length ∧ st.now ≤ st'.now := by
  obtain ⟨t1, r1, L1, S1⟩ := h.push (steps := transferSteps c k b) (fun _ => rfl)
  have hL1 : Live t1 c st (.line .rs (kindLevel k) :: .line .rw false :: (Machine.transferFrames c.width k b ++ (.settle k b :: rest))) := by
    simpa [transferSteps] using L1
  obtain ⟨t2, s2, r2, L2, S2, E2, ⟨⟨he, hw, hd, hh⟩, -, hg, hq⟩, q2, h2⟩ := hL1.selectWrite hb
  cases hwd : c.width with
  | eightBit =>
    rw [hwd] at L2
    obtain ⟨t3, s3, τ, r3, L3, S3, F3⟩ := L2.sendFrame he hw hd q2 hg hq
    have := F3.high
    have := F3.low
    exact ⟨t3, s2, s3, _, _, τ, r1.trans (r2.trans r3), L3, S1.trans (S2.trans S3), E2.trans F3.sent, F3, rfl, rfl, by omega⟩
  | fourBit =>
    rw [hwd] at L2
    obtain ⟨t3, s3, τ, r3, L3, S3, F3⟩ := L2.sendFrame he hw hd q2 hg hq
    obtain ⟨t4, s4, τ', r4, L4, S4, F4⟩ := L3.sendFrame F3.e F3.rw F3.dir F3.rs (F3.gapOver F3.low)
      (by simp only [Settled, F3.settle, settleAfter])
    have := F3.high
    have := F3.low
    have := F4.high
    have := F4.low
    exact ⟨t4, s3, s4, _, _, τ', r1.trans (r2.trans (r3.trans r4)), L4, S1.trans (S2.trans (S3.trans S4)),
      E2.trans (F3.sent.trans F4.sent), F4, rfl, rfl, by omega⟩

/-- The settle of a FixedDelay transfer frees the bus again (R136, R251). -/
theorem Live.settleFixed {s : State} {c : Cfg} {u st : St} {k : Kind} {b : Byte} {rest : List Act} {p : Pattern} {r : Bit} {τ : Nat}
    (h : Live s c st (.settle k b :: rest)) (hc : c.strategy = .fixedDelay) (hf : FrameSent c u st p (.final k b) r τ) :
    ∃ t n, Runs s t ∧ Live t c (st.setNow n) rest ∧ Same s t ∧ BusFree c (st.setNow n) ∧ st.now + tSettle c k b ≤ n := by
  obtain ⟨t1, r1, L1, S1⟩ := h.push (steps := settleSteps c k b) (fun _ => rfl)
  have hL1 : Live t1 c st (.delay (tSettle c k b) :: rest) := by simpa [settleSteps, hc] using L1
  obtain ⟨t2, n, r2, L2, S2, h2⟩ := hL1.delay
  refine ⟨t2, n, r1.trans r2, L2, S1.trans S2, ⟨⟨hf.e, hf.rw, hf.dir, hf.half⟩, ?_, ?_, ?_⟩, h2⟩
  · simp [hf.rs]
  · exact (hf.gapOver hf.low).later rfl rfl (by simp only [St.setNow_now]; omega)
  · have hs : (st.setNow n).mon.settle = .untilTime (τ + tSettle c k b) := by simp [hf.settle, settleAfter, hc]
    have := hf.low
    simp only [Settled, hs, St.setNow_now]
    omega

/-- A transfer under FixedDelay (R135, R136): the frames of its byte with its RS, and then the settle, whatever the draws. -/
theorem Live.transferFixed {s : State} {c : Cfg} {st : St} {k : Kind} {b : Byte} {rest : List Act}
    (h : Live s c st (.transfer k b :: rest)) (hc : c.strategy = .fixedDelay) (hb : BusFree c st) :
    ∃ t st' w, Runs s t ∧ Live t c st' rest ∧ Same s t ∧ Sent st st' w ∧ BusFree c st' ∧ st'.rs = some (kindLevel k)
      ∧ writeFrames w = (pack b c.width).map (fun p => (kindLevel k, p)) ∧ w.length = (pack b c.width).length
      ∧ st.now + tSettle c k b ≤ st'.now := by
  obtain ⟨t1, u, s1, w, p, τ, r1, L1, S1, E1, F1, f1, l1, n1⟩ := h.transferFrames hb
  obtain ⟨t2, n, r2, L2, S2, B2, n2⟩ := L1.settleFixed hc F1
  exact ⟨t2, _, w, r1.trans r2, L2, S1.trans S2, ⟨E1.trace, E1.phase, E1.pollIter, E1.lastBF, E1.result⟩, B2, F1.rs, f1, l1,
    by simp only [St.setNow_now]; omega⟩

/-! ### The abort path -/

/-- `St` after the abort path (R215): `x` is the draw of the latch, and the four times are those of its micro-steps. -/
def St.afterAbort (s : St) (x : Pattern) (n1 n2 n3 n4 : Nat) : St :=
  ((((s.abortEnable.setNow n1).abortReadWrite.setNow n2).abortDirection x).setNow n3).abortFinish.setNow n4

/-- The abort path runs to its end, whatever the draws (R215). -/
theorem Live.abortPath {s : State} {c : Cfg} {st : St} (h : Live s c st abortSteps) :
    ∃ t x n1 n2 n3 n4, Runs s t ∧ Live t c (st.afterAbort x n1 n2 n3 n4) [] ∧ t.ret = .outcome .aborted ∧ t.calls = s.calls
      ∧ st.now ≤ n1 ∧ n1 ≤ n2 ∧ n2 ≤ n3 ∧ n3 ≤ n4 ∧ x.width = c.width := by
  obtain ⟨t1, n1, r1, L1, S1, b1⟩ := h.micro (f := none) (eff := st.abortEnable) (fun _ => rfl) rfl (by simpa using h.good)
  obtain ⟨t2, n2, r2, L2, S2, b2⟩ := L1.micro (f := none) (eff := (st.abortEnable.setNow n1).abortReadWrite) (fun _ => rfl) rfl
    (by simpa using h.good)
  have h3 : ∃ t x n, Runs t2 t
      ∧ Live t c ((((st.abortEnable.setNow n1).abortReadWrite.setNow n2).abortDirection x).setNow n) [.abortFinish]
      ∧ t.calls = t2.calls ∧ n2 ≤ n ∧ x.width = c.width := by
    have hst := L2.step
    simp only [act] at hst
    refine ⟨_, _, _, Runs.one hst, ⟨rfl, by simpa using h.good, ?_, ?_⟩, ?_, ?_, wiredPart_width _ _⟩
    · simp only [State.commit]; split <;> exact L2.calm
    · simp only [State.commit]; split <;> rfl
    · simp only [State.commit]; split <;> rfl
    · simp
  obtain ⟨t3, x, n3, r3, L3, c3, b3, hx⟩ := h3
  have hst := L3.step
  simp only [act] at hst
  exact ⟨_, x, n1, n2, n3, _, r1.trans (r2.trans (r3.trans (Runs.one hst))), ⟨rfl, by simpa [St.afterAbort] using h.good, L3.calm, rfl⟩, rfl,
    c3.trans (S2.calls.trans S1.calls), by simpa using b1, by simpa using b2, b3, by simp, hx⟩

end Sys2Proof.Machine
end

