-- ==== Sys2Proof/Laws/Poll.lean ====
section
/-! SUPPORT. What a run does with the parts of a poll (43_busy_flag_poller.md): the entry, one iteration, the loop test, the exit. -/

set_option Elab.async false

namespace Sys2Proof.Machine

/-- The bus between the read cycles of a poll (R192, R193). -/
structure Reading (c : Cfg) (s : St) : Prop where
  e : s.e = some false
  rw : s.rw = some true
  dir : s.dir = some .inputWithPullup
  rs : s.rs = some false
  half : s.halfByte = false
  gap : GapOver c s
  setup : c.tSetup ≤ s.now - s.mon.lastChange

/-- How many read cycles an iteration has. -/
def cyclesOf : Width → Nat
  | .eightBit => 1
  | .fourBit => 2

/-- What one iteration leaves of `St` beside the lines. -/
structure IterationDone (c : Cfg) (s t : St) : Prop where
  phase : t.phase = s.phase
  result : t.result = s.result
  pollIter : t.pollIter = s.pollIter
  lastBF : t.lastBF = s.lastBF
  settle : t.mon.settle = s.mon.settle
  writes : writeFrames t.trace = writeFrames s.trace
  reads : (readCycles t.trace).length = (readCycles s.trace).length + cyclesOf c.width
  time : s.now + cyclesOf c.width * (c.tPollHigh + c.tPollLow) ≤ t.now

/-- One iteration (R193, R194): `bf` is DB7 of its first sample, whatever the other levels. -/
theorem Live.iteration {s : State} {c : Cfg} {st : St} {rest : List Act} {bf : Bit} {l more : List Byte}
    (h : Live s c st (.pollIteration :: rest)) (hr : Reading c st) (hl : IterationAnswers c.width bf l) (hx : s.answers = l ++ more) :
    ∃ t st', Runs s t ∧ Live t c st' rest ∧ t.bf = bf ∧ t.answers = more ∧ t.caller = s.caller ∧ Reading c st'
      ∧ IterationDone c st st' := by
  obtain ⟨he, hw, hd, hrs, hh, hg, hs⟩ := hr
  obtain ⟨t0, r0, L, S0⟩ := h.push (steps := iterationSteps c) (fun _ => rfl)
  have hx0 := S0.answers.trans hx
  cases hwd : c.width with
  | eightBit =>
    simp only [iterationSteps, hwd] at L
    obtain ⟨t, p, τ, τ', n, R, L1, S, b1, b2, b3⟩ := L.readCycle he hw hd hrs hg hs
    obtain ⟨pw, pa, px⟩ := S.drawn rfl
    rw [hwd] at hl
    obtain ⟨x, rfl, rfl⟩ := hl
    have px := px x more hx0
    rw [hwd] at px
    refine ⟨t, _, r0.trans R, L1, by rw [S.bf, px]; rfl, by rw [pa, hx0]; rfl, S.caller.trans S0.caller,
      ⟨he, hw, hd, hrs, hh, gapOver_afterRead b3, ?_⟩, ⟨rfl, rfl, rfl, rfl, rfl, ?_, ?_, ?_⟩⟩
    · show c.tSetup ≤ n - st.mon.lastChange
      omega
    · simp [St.afterRead, writeFrames]
    · simp [St.afterRead, readCycles, hwd, cyclesOf]
    · rw [hwd]
      show st.now + 1 * (c.tPollHigh + c.tPollLow) ≤ n
      omega
  | fourBit =>
    simp only [iterationSteps, hwd] at L
    rw [List.append_assoc] at L
    obtain ⟨t, p, τ, τ', n, R, L1, S, b1, b2, b3⟩ := L.readCycle he hw hd hrs hg hs
    obtain ⟨pw, pa, px⟩ := S.drawn rfl
    rw [hwd] at hl
    obtain ⟨x, y, rfl, rfl⟩ := hl
    have px := px x (y :: more) hx0
    rw [hwd] at px
    have ta : t.answers = y :: more := by rw [pa, hx0]; rfl
    have hs' : c.tSetup ≤ (st.afterRead p false τ τ' n).now - (st.afterRead p false τ τ' n).mon.lastChange := by
      show c.tSetup ≤ n - st.mon.lastChange
      omega
    obtain ⟨t', p', τ2, τ2', n', R', L2, S', b1', b2', b3'⟩ :=
      L1.readCycle (c := c) (r := false) he hw hd hrs (gapOver_afterRead b3) hs'
    obtain ⟨pw', pa', px'⟩ := S'.drawn rfl
    replace b1' : n + c.tPollHigh ≤ τ2 := b1'
    refine ⟨t', _, r0.trans (R.trans R'), L2, ?_, by rw [pa', ta]; rfl, S'.caller.trans (S.caller.trans S0.caller),
      ⟨he, hw, hd, hrs, hh, gapOver_afterRead b3', ?_⟩, ⟨rfl, rfl, rfl, rfl, rfl, ?_, ?_, ?_⟩⟩
    · rw [S'.bf, S.bf, px]
      simp [db7, wiredPart, upperNibble]
    · show c.tSetup ≤ n' - st.mon.lastChange
      omega
    · simp [St.afterRead, writeFrames]
    · simp [St.afterRead, readCycles, hwd, cyclesOf]
    · rw [hwd]
      show st.now + 2 * (c.tPollHigh + c.tPollLow) ≤ n'
      omega

/-- The entry of a poll from resting lines (R192, R190). -/
theorem Live.enterRead {s : State} {c : Cfg} {st : St} {rest : List Act} (h : Live s c st (enterReadSteps c ++ .pollReset :: rest))
    (hb : Resting st) (hrs : st.rs ≠ none) (hg : GapOver c st) :
    ∃ t st', Runs s t ∧ Live t c st' rest ∧ Same s t ∧ Reading c st' ∧ st'.phase = st.phase ∧ st'.result = st.result ∧ st'.pollIter = 0
      ∧ st'.lastBF = st.lastBF ∧ st'.mon.settle = st.mon.settle ∧ writeFrames st'.trace = writeFrames st.trace
      ∧ readCycles st'.trace = readCycles st.trace ∧ st.now ≤ st'.now := by
  obtain ⟨he, hw, hd, hh⟩ := hb
  obtain ⟨t1, x, n1, r1, L1, S1, b1, -⟩ := Live.direction (d := .inputWithPullup) h (by simp [directionFault, hd, he])
  obtain ⟨t2, n2, r2, L2, S2, b2⟩ := L1.select (l := .rs) (v := false)
    (select_ok (by simpa [directionEffect, hd] using hrs) (by simpa using he) (between_bytes (by simpa using hh)))
  obtain ⟨t3, n3, r3, L3, S3, b3⟩ := L2.select (l := .rw) (v := true)
    (read_ok (by simp [lineEffect, hw]) (by simp [lineEffect, he]) (by simp [lineEffect, directionEffect, hd]))
  obtain ⟨t4, n4, r4, L4, S4, b4⟩ := L3.delay
  obtain ⟨t5, r5, L5, S5⟩ := L4.silent (fun _ => rfl) L4.good
  simp only [St.setNow_now] at b2 b3 b4
  have hn : st.now ≤ n4 := by omega
  refine ⟨t5, _, r1.trans (r2.trans (r3.trans (r4.trans r5))), L5, S1.trans (S2.trans (S3.trans (S4.trans S5))),
    ⟨?_, rfl, ?_, rfl, ?_, ?_, ?_⟩, ?_, ?_, rfl, ?_, ?_, ?_, ?_, hn⟩
  · simp [lineEffect, he]
  · simp [lineEffect, directionEffect, hd]
  · simp [lineEffect, hh]
  · exact hg.later (by simp [lineEffect]) (by simp [lineEffect]) hn
  · show c.tSetup ≤ n4 - n2
    omega
  · simp [lineEffect]
  · simp [lineEffect]
  · simp [lineEffect]
  · simp [lineEffect]
  · simp [lineEffect, directionEffect, hd, writeFrames]
  · simp [lineEffect, directionEffect, hd, readCycles]

/-- The exit of a poll (R197): RW low, then the host drives again. -/
theorem Live.exitRead {s : State} {c : Cfg} {st : St} {rest : List Act} (h : Live s c st (exitReadSteps ++ rest)) (hb : Reading c st) :
    ∃ t st', Runs s t ∧ Live t c st' rest ∧ Same s t ∧ Resting st' ∧ st'.rs = some false ∧ GapOver c st' ∧ st'.phase = st.phase
      ∧ st'.result = st.result ∧ st'.pollIter = st.pollIter ∧ st'.lastBF = st.lastBF ∧ st'.mon.settle = st.mon.settle
      ∧ writeFrames st'.trace = writeFrames st.trace ∧ readCycles st'.trace = readCycles st.trace ∧ st.now ≤ st'.now := by
  obtain ⟨he, hw, hd, hrs, hh, hg, hs⟩ := hb
  obtain ⟨t1, n1, r1, L1, S1, b1⟩ := Live.select (l := .rw) (v := false) h (write_ok (by simp [hw]) he)
  obtain ⟨t2, x, n2, r2, L2, S2, b2, -⟩ := L1.direction (d := .output) (by simp [directionFault, lineEffect, hd, he])
  simp only [St.setNow_now] at b2
  have hn : st.now ≤ n2 := by omega
  refine ⟨t2, _, r1.trans r2, L2, S1.trans S2, ⟨?_, ?_, ?_, ?_⟩, ?_, ?_, ?_, ?_, ?_, ?_, ?_, ?_, ?_, hn⟩
  · simp [lineEffect, he]
  · simp [lineEffect]
  · simp [directionEffect, lineEffect, hd]
  · simp [lineEffect, hh]
  · simp [lineEffect, hrs]
  · exact hg.later (by simp [lineEffect]) (by simp [lineEffect]) hn
  · simp [lineEffect]
  · simp [lineEffect]
  · simp [lineEffect]
  · simp [lineEffect]
  · simp [lineEffect]
  · simp [directionEffect, lineEffect, hd, writeFrames]
  · simp [directionEffect, lineEffect, hd, readCycles]

/-- The loop test on BF = 0 (R195, R254): the obligation is discharged and the exit follows. -/
theorem Live.pollReady {s : State} {c : Cfg} {st : St} {rest : List Act} (h : Live s c st (.pollTest :: rest)) (hb : s.bf = false) :
    ∃ t, Runs s t ∧ Live t c (St.busyClear { st with lastBF := some false }) (exitReadSteps ++ rest) ∧ Same s t := by
  have hstep := h.step
  simp only [act, State.pollTest, if_pos hb, State.put] at hstep
  exact ⟨_, Runs.one hstep, ⟨rfl, h.good, h.calm, rfl⟩, ⟨rfl, rfl, rfl, rfl, rfl⟩⟩

/-- The loop test on BF = 1 (R190, R196): the counter grows, and the bound decides. -/
theorem Live.pollBusy {s : State} {c : Cfg} {st : St} {rest : List Act} (h : Live s c st (.pollTest :: rest)) (hb : s.bf = true) :
    ∃ t, Runs s t ∧ Live t c { st with lastBF := some true, pollIter := st.pollIter + 1 }
      (if boundReached c (st.pollIter + 1) then exitReadSteps ++ [.finish .busyFlagTimeout] else .pollIteration :: .pollTest :: rest)
      ∧ Same s t := by
  have hne : ¬ s.bf = false := by rw [hb]; simp
  have hstep := h.step
  simp only [act, State.pollTest, if_neg hne, State.put] at hstep
  exact ⟨_, Runs.one hstep, ⟨rfl, h.good, h.calm, rfl⟩, ⟨rfl, rfl, rfl, rfl, rfl⟩⟩

/-- The end of a lone iteration (R254): it returns the busy flag, and BF = 0 discharges the obligation. -/
theorem Live.giveFlag {s : State} {c : Cfg} {st : St} {rest : List Act} (h : Live s c st (.giveFlag :: rest)) :
    ∃ t, Runs s t ∧ Live t c (if s.bf = false then st.busyClear else st) rest ∧ t.ret = .bit s.bf ∧ t.answers = s.answers := by
  have hstep := h.step
  simp only [act] at hstep
  refine ⟨_, Runs.one hstep, ?_, rfl, ?_⟩ <;> unfold State.giveFlag
  · by_cases hb : s.bf = false
    · rw [if_pos hb, if_pos hb]
      exact ⟨rfl, h.good, h.calm, rfl⟩
    · rw [if_neg hb, if_neg hb]
      exact ⟨h.inst, h.good, h.calm, rfl⟩
  · split <;> rfl

/-- A poll starts where the phase allows it (R190, R191). -/
theorem Live.startPoll {s : State} {c : Cfg} {st : St} {rest : List Act} (h : Live s c st (.poll :: rest))
    (hu : st.phase.pollUsable = true) (hd : st.phase.dead = false) :
    ∃ t, Runs s t ∧ Live t c st (enterReadSteps c ++ .pollReset :: .pollIteration :: .pollTest :: rest) ∧ Same s t := by
  have hf : pollFault st = none := by simp [pollFault, hu, hd]
  obtain ⟨t, r, L, S⟩ := h.push (steps := pollSteps c) (fun u => by simp [act, State.expand, hf])
  exact ⟨t, r, by simpa [pollSteps] using L, S⟩

/-! ### Whole polls -/

/-- The last of k + 1 busy iterations. -/
theorem BusyAnswers.last {w : Width} {k : Nat} : ∀ {l : List Byte}, BusyAnswers w (k + 1) l →
    ∃ a b, BusyAnswers w k a ∧ IterationAnswers w true b ∧ l = a ++ b := by
  induction k with
  | zero =>
    rintro l ⟨a, b, ha, rfl, rfl⟩
    exact ⟨[], a, rfl, ha, by simp⟩
  | succ k ih =>
    rintro l ⟨a, b, ha, hb, rfl⟩
    obtain ⟨c, d, hc, hd, rfl⟩ := ih hb
    exact ⟨a ++ c, d, ⟨a, c, ha, hc, rfl⟩, hd, by simp⟩

/-- What the part of a poll after its entry leaves: `k` busy iterations more, `cycles` iterations more. -/
structure Turned (c : Cfg) (s t : St) (k cycles : Nat) : Prop where
  phase : t.phase = s.phase
  result : t.result = s.result
  pollIter : t.pollIter = s.pollIter + k
  settle : t.mon.settle = s.mon.settle
  writes : writeFrames t.trace = writeFrames s.trace
  reads : (readCycles t.trace).length = (readCycles s.trace).length + cycles * cyclesOf c.width
  time : s.now + cycles * (c.tPollHigh + c.tPollLow) * cyclesOf c.width ≤ t.now

/-- Any number of busy iterations that the bound allows: the loop goes on (R190, R195, R196). -/
theorem Live.busyLoop {c : Cfg} {rest : List Act} {more : List Byte} (k : Nat) : ∀ {s : State} {st : St} {l : List Byte},
    Live s c st (.pollIteration :: .pollTest :: rest) → Reading c st → (∀ n, c.pollBound = some n → st.pollIter + k < n) →
    BusyAnswers c.width k l → s.answers = l ++ more →
    ∃ t st', Runs s t ∧ Live t c st' (.pollIteration :: .pollTest :: rest) ∧ t.answers = more ∧ t.caller = s.caller ∧ Reading c st'
      ∧ (k = 0 → st'.lastBF = st.lastBF) ∧ (0 < k → st'.lastBF = some true) ∧ Turned c st st' k k := by
  induction k with
  | zero =>
    rintro s st l h hr hb rfl hx
    exact ⟨s, st, Runs.refl _, h, hx, rfl, hr, fun _ => rfl, fun h => (nomatch h), ⟨rfl, rfl, rfl, rfl, rfl, by simp, by simp⟩⟩
  | succ k ih =>
    rintro s st _ h hr hb ⟨a, b, ha, hl, rfl⟩ hx
    rw [List.append_assoc] at hx
    obtain ⟨t1, s1, r1, L1, f1, a1, c1, R1, D1⟩ := h.iteration hr ha hx
    have hbr : ¬ boundReached c (s1.pollIter + 1) = true := by
      unfold boundReached
      split
      · rename_i n hn
        have := hb n hn
        rw [D1.pollIter]
        simp
        omega
      · simp
    obtain ⟨t2, r2, L2, S2⟩ := L1.pollBusy f1
    rw [if_neg hbr] at L2
    obtain ⟨t, st', r3, L3, a3, c3, R3, l0, l3, T3⟩ := ih L2
      ⟨R1.e, R1.rw, R1.dir, R1.rs, R1.half, R1.gap.later rfl rfl (Nat.le_refl _), R1.setup⟩
      (fun n hn => by have := hb n hn; have := D1.pollIter; simp only; omega) hl (S2.answers.trans a1)
    refine ⟨t, st', r1.trans (r2.trans r3), L3, a3, c3.trans (S2.caller.trans c1), R3, by omega, fun _ => ?_,
      ⟨T3.phase.trans D1.phase, T3.result.trans D1.result, ?_, T3.settle.trans D1.settle, T3.writes.trans D1.writes, ?_, ?_⟩⟩
    · rcases Nat.eq_zero_or_pos k with h0 | h0
      · exact l0 h0
      · exact l3 h0
    · rw [T3.pollIter]
      show s1.pollIter + 1 + k = _
      rw [D1.pollIter]
      omega
    · rw [T3.reads]
      simp [D1.reads]
      ring
    · have h1 := D1.time
      have h3 := T3.time
      simp only at h3
      generalize c.tPollHigh + c.tPollLow = z at *
      have e : (k + 1) * z * cyclesOf c.width = k * z * cyclesOf c.width + cyclesOf c.width * z := by ring
      rw [e]
      omega

/-- What a whole poll leaves of `St` (R190, R197): `k` busy iterations were read, `cycles` iterations in all, and the last busy flag was `bf`. -/
structure Polled (c : Cfg) (s t : St) (k cycles : Nat) (bf : Bit) : Prop where
  phase : t.phase = s.phase
  result : t.result = s.result
  pollIter : t.pollIter = k
  lastBF : t.lastBF = some bf
  rest : Resting t
  rs : t.rs = some false
  gap : GapOver c t
  writes : writeFrames t.trace = writeFrames s.trace
  reads : (readCycles t.trace).length = (readCycles s.trace).length + cycles * cyclesOf c.width
  time : s.now ≤ t.now

/-- A poll with a device that is busy for `k` iterations and then ready, after its guards: it ends, and what follows it is left to do. -/
theorem Live.pollEnds {s : State} {c : Cfg} {st : St} {rest : List Act} {more : List Byte} (k : Nat)
    (h : Live s c st (enterReadSteps c ++ .pollReset :: .pollIteration :: .pollTest :: rest)) (hr : Resting st) (hrs : st.rs ≠ none)
    (hg : GapOver c st) (hb : ∀ n, c.pollBound = some n → k < n) {l : List Byte} (hl : BusyThenReady c.width k l)
    (hx : s.answers = l ++ more) :
    ∃ t st', Runs s t ∧ Live t c st' rest ∧ t.answers = more ∧ t.caller = s.caller ∧ Polled c st st' k (k + 1) false
      ∧ st'.mon.settle = .noSettle := by
  obtain ⟨t1, s1, r1, L1, S1, R1, p1, q1, i1, l1, m1, w1, c1, n1⟩ := h.enterRead hr hrs hg
  obtain ⟨la, lb, ha, hlb, rfl⟩ := hl
  rw [List.append_assoc] at hx
  obtain ⟨t2, s2, r2, L2, a2, c2, R2, -, -, T2⟩ := L1.busyLoop k R1 (fun n hn => by have := hb n hn; omega) ha (S1.answers.trans hx)
  obtain ⟨t3, s3, r3, L3, f3, a3, c3, R3, D3⟩ := L2.iteration R2 hlb a2
  obtain ⟨t4, r4, L4, S4⟩ := L3.pollReady f3
  obtain ⟨t5, s5, r5, L5, S5, rr5, q5, g5, p5, e5, i5, l5, m5, w5, rc5, n5⟩ :=
    L4.exitRead ⟨R3.e, R3.rw, R3.dir, R3.rs, R3.half, R3.gap.later rfl rfl (Nat.le_refl _), R3.setup⟩
  refine ⟨t5, s5, r1.trans (r2.trans (r3.trans (r4.trans r5))), L5, S5.answers.trans (S4.answers.trans a3),
    S5.caller.trans (S4.caller.trans (c3.trans (c2.trans S1.caller))),
    ⟨p5.trans (D3.phase.trans (T2.phase.trans p1)), e5.trans (D3.result.trans (T2.result.trans q1)), ?_, l5, rr5, q5, g5,
      w5.trans (D3.writes.trans (T2.writes.trans w1)), ?_, ?_⟩, m5⟩
  · rw [i5]
    show s3.pollIter = k
    rw [D3.pollIter, T2.pollIter, i1]
    simp
  · rw [rc5]
    show (readCycles s3.trace).length = _
    rw [D3.reads, T2.reads, c1]
    ring
  · have h2 := T2.time
    have h3 := D3.time
    replace n5 : s3.now ≤ s5.now := n5
    omega

/-- A bounded poll with a device that stays busy, after its guards: it ends with `BusyFlagTimeout` in place of what would follow (R196). -/
theorem Live.pollTimesOut {s : State} {c : Cfg} {st : St} {rest : List Act} {more : List Byte} {n : Nat}
    (h : Live s c st (enterReadSteps c ++ .pollReset :: .pollIteration :: .pollTest :: rest)) (hr : Resting st) (hrs : st.rs ≠ none)
    (hg : GapOver c st) (hb : c.pollBound = some n) (hn : 0 < n) {l : List Byte} (hl : BusyAnswers c.width n l)
    (hx : s.answers = l ++ more) :
    ∃ t st', Runs s t ∧ Live t c st' [.finish .busyFlagTimeout] ∧ t.answers = more ∧ t.caller = s.caller ∧ Polled c st st' n n true
      ∧ st'.mon.settle = st.mon.settle := by
  obtain ⟨t1, s1, r1, L1, S1, R1, p1, q1, i1, l1, m1, w1, c1, n1⟩ := h.enterRead hr hrs hg
  obtain ⟨k, rfl⟩ : ∃ k, n = k + 1 := ⟨n - 1, by omega⟩
  obtain ⟨la, lb, ha, hlb, rfl⟩ := hl.last
  rw [List.append_assoc] at hx
  obtain ⟨t2, s2, r2, L2, a2, c2, R2, -, -, T2⟩ := L1.busyLoop k R1
    (fun j hj => by rw [hb] at hj; cases hj; omega) ha (S1.answers.trans hx)
  obtain ⟨t3, s3, r3, L3, f3, a3, c3, R3, D3⟩ := L2.iteration R2 hlb a2
  have hi : s3.pollIter + 1 = k + 1 := by rw [D3.pollIter, T2.pollIter, i1]; simp
  have hbr : boundReached c (s3.pollIter + 1) = true := by simp [boundReached, hb, hi]
  obtain ⟨t4, r4, L4, S4⟩ := L3.pollBusy f3
  rw [if_pos hbr] at L4
  obtain ⟨t5, s5, r5, L5, S5, rr5, q5, g5, p5, e5, i5, l5, m5, w5, rc5, n5⟩ :=
    L4.exitRead ⟨R3.e, R3.rw, R3.dir, R3.rs, R3.half, R3.gap.later rfl rfl (Nat.le_refl _), R3.setup⟩
  refine ⟨t5, s5, r1.trans (r2.trans (r3.trans (r4.trans r5))), L5, S5.answers.trans (S4.answers.trans a3),
    S5.caller.trans (S4.caller.trans (c3.trans (c2.trans S1.caller))),
    ⟨p5.trans (D3.phase.trans (T2.phase.trans p1)), e5.trans (D3.result.trans (T2.result.trans q1)), i5.trans hi, l5, rr5, q5, g5,
      w5.trans (D3.writes.trans (T2.writes.trans w1)), ?_, ?_⟩, m5.trans (D3.settle.trans (T2.settle.trans m1))⟩
  · rw [rc5]
    show (readCycles s3.trace).length = _
    rw [D3.reads, T2.reads, c1]
    ring
  · have h2 := T2.time
    have h3 := D3.time
    replace n5 : s3.now ≤ s5.now := n5
    omega

/-! ### Transfers under BusyPoll -/

/-- A trace with as many write frames as events has no read cycle. -/
theorem readCycles_of_writes (w : List Event) (h : (writeFrames w).length = w.length) : readCycles w = [] := by
  have hall : ∀ ev ∈ w, (match ev with | .wFrame rs bits _ => some (rs, bits) | _ => none : Option (Bit × Pattern)).isSome = true := by
    exact (List.filterMap_length_eq_length.1 h)
  refine List.filterMap_eq_nil_iff.2 fun ev hev => ?_
  have := hall ev hev
  cases ev <;> simp_all

/-- The frames of a transfer, and the entry of the poll that settles it (R135, R136). -/
theorem Live.transferPolls {s : State} {c : Cfg} {st : St} {k : Kind} {b : Byte} {rest : List Act}
    (h : Live s c st (.transfer k b :: rest)) (hc : c.strategy = .busyPoll) (hb : BusFree c st) (hu : st.phase.pollUsable = true)
    (hd : st.phase.dead = false) :
    ∃ t st', Runs s t ∧ Live t c st' (enterReadSteps c ++ .pollReset :: .pollIteration :: .pollTest :: rest) ∧ Same s t ∧ Resting st'
      ∧ st'.rs ≠ none ∧ GapOver c st' ∧ st'.phase = st.phase ∧ st'.result = st.result
      ∧ writeFrames st'.trace = writeFrames st.trace ++ (pack b c.width).map (fun p => (kindLevel k, p))
      ∧ readCycles st'.trace = readCycles st.trace ∧ st.now ≤ st'.now := by
  obtain ⟨t0, u0, s0, w, p, τ, r0, L0, S0, E0, F0, f0, l0, n0⟩ := h.transferFrames hb
  obtain ⟨t1, r1, L1, S1⟩ := L0.push (steps := [.poll]) (fun u => by simp [act, settleSteps, hc])
  obtain ⟨t2, r2, L2, S2⟩ := Live.startPoll L1 (by rw [E0.phase]; exact hu) (by rw [E0.phase]; exact hd)
  have hw : readCycles w = [] := by
    have hl : (writeFrames w).length = w.length := by rw [f0, List.length_map, l0]
    exact readCycles_of_writes w hl
  refine ⟨t2, s0, r0.trans (r1.trans r2), L2, S0.trans (S1.trans S2), ⟨F0.e, F0.rw, F0.dir, F0.half⟩, by rw [F0.rs]; simp,
    F0.gapOver F0.low, E0.phase, E0.result, ?_, ?_, n0⟩
  · rw [E0.trace, writeFrames_append, f0]
  · rw [E0.trace]
    simp only [readCycles, List.filterMap_append]
    exact (congrArg _ hw).trans (List.append_nil _)

/-- A transfer under BusyPoll with a device that is busy for `j` iterations and then ready: its frames, then the poll, and the bus is free
again. -/
theorem Live.transferEnds {s : State} {c : Cfg} {st : St} {k : Kind} {b : Byte} {rest : List Act} {more : List Byte} (j : Nat)
    (h : Live s c st (.transfer k b :: rest)) (hc : c.strategy = .busyPoll) (hb : BusFree c st) (hu : st.phase.pollUsable = true)
    (hd : st.phase.dead = false) (hj : ∀ n, c.pollBound = some n → j < n) {l : List Byte} (hl : BusyThenReady c.width j l)
    (hx : s.answers = l ++ more) :
    ∃ t st', Runs s t ∧ Live t c st' rest ∧ t.answers = more ∧ t.caller = s.caller ∧ BusFree c st' ∧ st'.rs = some false
      ∧ st'.phase = st.phase ∧ st'.result = st.result ∧ st'.pollIter = j ∧ st'.lastBF = some false ∧ st'.mon.settle = .noSettle
      ∧ writeFrames st'.trace = writeFrames st.trace ++ (pack b c.width).map (fun p => (kindLevel k, p))
      ∧ (readCycles st'.trace).length = (readCycles st.trace).length + (j + 1) * cyclesOf c.width ∧ st.now ≤ st'.now := by
  obtain ⟨t1, s1, r1, L1, S1, R1, q1, g1, p1, e1, w1, c1, n1⟩ := h.transferPolls hc hb hu hd
  obtain ⟨t2, s2, r2, L2, a2, k2, P2, m2⟩ := L1.pollEnds j R1 q1 g1 hj hl (S1.answers.trans hx)
  refine ⟨t2, s2, r1.trans r2, L2, a2, k2.trans S1.caller, ⟨P2.rest, by rw [P2.rs]; simp, P2.gap, by simp only [Settled, m2]⟩, P2.rs,
    P2.phase.trans p1, P2.result.trans e1, P2.pollIter, P2.lastBF, m2, P2.writes.trans w1, by rw [P2.reads, c1], n1.trans P2.time⟩

/-- A transfer under BusyPoll whose bounded poll times out: its frames, then `BusyFlagTimeout` in place of what would follow (R213). -/
theorem Live.transferTimesOut {s : State} {c : Cfg} {st : St} {k : Kind} {b : Byte} {rest : List Act} {more : List Byte} {n : Nat}
    (h : Live s c st (.transfer k b :: rest)) (hc : c.strategy = .busyPoll) (hb : BusFree c st) (hu : st.phase.pollUsable = true)
    (hd : st.phase.dead = false) (hn : c.pollBound = some n) (h0 : 0 < n) {l : List Byte} (hl : BusyAnswers c.width n l)
    (hx : s.answers = l ++ more) :
    ∃ t st', Runs s t ∧ Live t c st' [.finish .busyFlagTimeout] ∧ t.answers = more ∧ t.caller = s.caller ∧ Resting st'
      ∧ st'.rs = some false ∧ st'.phase = st.phase ∧ st'.pollIter = n ∧ st'.lastBF = some true
      ∧ writeFrames st'.trace = writeFrames st.trace ++ (pack b c.width).map (fun p => (kindLevel k, p)) := by
  obtain ⟨t1, s1, r1, L1, S1, R1, q1, g1, p1, e1, w1, c1, n1⟩ := h.transferPolls hc hb hu hd
  obtain ⟨t2, s2, r2, L2, a2, k2, P2, m2⟩ := L1.pollTimesOut R1 q1 g1 hn h0 hl (S1.answers.trans hx)
  exact ⟨t2, s2, r1.trans r2, L2, a2, k2.trans S1.caller, P2.rest, P2.rs, P2.phase.trans p1, P2.pollIter, P2.lastBF, P2.writes.trans w1⟩

end Sys2Proof.Machine
end

