-- ==== Sys2Proof/Laws/Init.lean ====
section
/-! SUPPORT. What a run does with the steps of InitSequencer (42_init_sequencer.md): one lemma for each, and one for all that come before the
first settled transfer. -/

set_option Elab.async false

namespace Sys2Proof.Machine

/-- The init frames before the first settled transfer (R163, R166). -/
def firstFrames (c : Cfg) : List (Bit × Pattern) :=
  (List.replicate 3 (initPattern c.width init8BitByte)
    ++ (match c.width with | .fourBit => [.nibble (upperNibble mode4BitByte)] | .eightBit => [])).map fun p => (false, p)

/-- A blind attempt (R163, R164). -/
theorem Live.blind {s : State} {c : Cfg} {st : St} {k : Attempt} {rest : List Act} (h : Live s c st (blindSteps c k ++ rest))
    (hb : BusFree c st) :
    ∃ t st' τ, Runs s t ∧ Live t c st' rest ∧ Same s t ∧ st'.trace = st.trace ++ [.wFrame false (initPattern c.width init8BitByte) τ]
      ∧ BusFree c st' ∧ st'.rs = some false ∧ st'.phase = st.phase.next ∧ st.now + tBlind c k ≤ st'.now := by
  obtain ⟨t2, s2, r2, L2, S2, E2, ⟨⟨he, hw, hd, hh⟩, -, hg, hq⟩, q2, h2⟩ := Live.selectWrite (v := false) h hb
  obtain ⟨t3, s3, τ, r3, L3, S3, F3⟩ := Live.sendFrame L2 he hw hd q2 hg hq
  obtain ⟨t4, n, r4, L4, S4, b4⟩ := L3.delay
  obtain ⟨t5, r5, L5, S5⟩ := L4.advance
  have := F3.high
  have := F3.low
  refine ⟨t5, _, τ, r2.trans (r3.trans (r4.trans r5)), L5, S2.trans (S3.trans (S4.trans S5)), ?_, ⟨⟨F3.e, F3.rw, F3.dir, ?_⟩, ?_, ?_, ?_⟩,
    F3.rs, ?_, ?_⟩
  · show s3.trace = _
    rw [F3.sent.trace, E2.trace]
    simp
  · show s3.halfByte = false
    rw [F3.half]
    exact hh
  · show s3.rs ≠ none
    rw [F3.rs]
    simp
  · refine ⟨.inl F3.anyRise, fun tf tg ht => ?_⟩
    have ht : s3.mon.lastFall = some (tf, tg) := ht
    rw [F3.lastFall] at ht
    cases ht
    show max _ _ ≤ n - τ
    omega
  · exact Settled.later (s := s3) (by simp only [Settled, F3.settle, settleAfter]) rfl (by show s3.now ≤ n; omega)
  · show s3.phase.next = _
    rw [F3.sent.phase, E2.phase]
  · show _ ≤ n
    omega

/-- The mode select: a nibble frame under FourBit, nothing under EightBit (R166, R167). -/
theorem Live.modeSelect {s : State} {c : Cfg} {st : St} {rest : List Act} (h : Live s c st (modeSteps c ++ rest)) (hb : BusFree c st)
    (hrs : st.rs = some false) :
    ∃ t st' w, Runs s t ∧ Live t c st' rest ∧ Same s t ∧ st'.trace = st.trace ++ w ∧ readCycles w = []
      ∧ writeFrames w = (match c.width with | .fourBit => [(false, .nibble (upperNibble mode4BitByte))] | .eightBit => [])
      ∧ w.length = (match c.width with | .fourBit => 1 | .eightBit => 0) ∧ BusFree c st' ∧ st'.rs = some false
      ∧ st'.phase = st.phase.next ∧ st.now ≤ st'.now := by
  cases hwd : c.width with
  | eightBit =>
    simp only [modeSteps, hwd] at h
    obtain ⟨t2, r2, L2, S2⟩ := Live.advance h
    exact ⟨t2, _, [], r2, L2, S2, by simp, rfl, rfl, rfl, ⟨hb.rest, hb.rs, hb.gap.later rfl rfl (Nat.le_refl _),
      hb.settled.later rfl (Nat.le_refl _)⟩, hrs, rfl, Nat.le_refl _⟩
  | fourBit =>
    simp only [modeSteps, hwd] at h
    obtain ⟨⟨he, hw, hd, hh⟩, -, hg, hq⟩ := hb
    obtain ⟨t3, s3, τ, r3, L3, S3, F3⟩ := Live.sendFrame h he hw hd hrs hg hq
    obtain ⟨t4, n, r4, L4, S4, b4⟩ := L3.delay
    obtain ⟨t5, r5, L5, S5⟩ := L4.advance
    have := F3.high
    have := F3.low
    refine ⟨t5, _, [.wFrame false (.nibble (upperNibble mode4BitByte)) τ], r3.trans (r4.trans r5), L5, S3.trans (S4.trans S5),
      F3.sent.trace, rfl, rfl, rfl, ⟨⟨F3.e, F3.rw, F3.dir, ?_⟩, ?_, ?_, ?_⟩, F3.rs, ?_, ?_⟩
    · show s3.halfByte = false
      rw [F3.half]
      exact hh
    · show s3.rs ≠ none
      rw [F3.rs]
      simp
    · refine ⟨.inl F3.anyRise, fun tf tg ht => ?_⟩
      have ht : s3.mon.lastFall = some (tf, tg) := ht
      rw [F3.lastFall] at ht
      cases ht
      show max _ _ ≤ n - τ
      omega
    · exact Settled.later (s := s3) (by simp only [Settled, F3.settle, settleAfter]) rfl (by show s3.now ≤ n; omega)
    · show s3.phase.next = _
      rw [F3.sent.phase]
    · show _ ≤ n
      omega

/-- A settled instruction transfer under FixedDelay, and the next phase (R168, R174). -/
theorem Live.configFixed {s : State} {c : Cfg} {st : St} {b : Byte} {rest : List Act} (h : Live s c st (configSteps b ++ rest))
    (hc : c.strategy = .fixedDelay) (hb : BusFree c st) :
    ∃ t st' w, Runs s t ∧ Live t c st' rest ∧ Same s t ∧ st'.trace = st.trace ++ w
      ∧ writeFrames w = (pack b c.width).map (fun p => (false, p)) ∧ w.length = (pack b c.width).length ∧ BusFree c st'
      ∧ st'.rs = some false ∧ st'.phase = st.phase.next ∧ st.now ≤ st'.now := by
  obtain ⟨t1, s1, w, r1, L1, S1, E1, B1, q1, f1, l1, n1⟩ := Live.transferFixed (k := .instruction) h hc hb
  obtain ⟨t2, r2, L2, S2⟩ := L1.advance
  refine ⟨t2, _, w, r1.trans r2, L2, S1.trans S2, E1.trace, f1, l1, ⟨B1.rest, B1.rs, B1.gap.later rfl rfl (Nat.le_refl _),
    B1.settled.later rfl (Nat.le_refl _)⟩, q1, ?_, by show st.now ≤ s1.now; omega⟩
  show s1.phase.next = _
  rw [E1.phase]

/-- The same under BusyPoll, with a device that is busy for `j` iterations and then ready. -/
theorem Live.configPolls {s : State} {c : Cfg} {st : St} {b : Byte} {rest : List Act} {more : List Byte} (j : Nat)
    (h : Live s c st (configSteps b ++ rest)) (hc : c.strategy = .busyPoll) (hb : BusFree c st) (hu : st.phase.pollUsable = true)
    (hd : st.phase.dead = false) (hj : ∀ n, c.pollBound = some n → j < n) {l : List Byte} (hl : BusyThenReady c.width j l)
    (hx : s.answers = l ++ more) :
    ∃ t st', Runs s t ∧ Live t c st' rest ∧ t.answers = more ∧ t.caller = s.caller ∧ BusFree c st' ∧ st'.rs = some false
      ∧ st'.phase = st.phase.next ∧ st'.pollIter = j ∧ st'.lastBF = some false ∧ st'.mon.settle = .noSettle
      ∧ writeFrames st'.trace = writeFrames st.trace ++ (pack b c.width).map (fun p => (false, p))
      ∧ (readCycles st'.trace).length = (readCycles st.trace).length + (j + 1) * cyclesOf c.width ∧ st.now ≤ st'.now := by
  obtain ⟨t1, s1, r1, L1, a1, c1, B1, q1, p1, e1, i1, l1, m1, w1, d1, n1⟩ := Live.transferEnds (k := .instruction) j h hc hb hu hd hj hl hx
  obtain ⟨t2, r2, L2, S2⟩ := L1.advance
  refine ⟨t2, _, r1.trans r2, L2, S2.answers.trans a1, S2.caller.trans c1, ⟨B1.rest, B1.rs, B1.gap.later rfl rfl (Nat.le_refl _),
    B1.settled.later rfl (Nat.le_refl _)⟩, q1, ?_, i1, l1, m1, w1, d1, n1⟩
  show s1.phase.next = _
  rw [p1]

/-- `initialize` from a new instance up to its first settled transfer: the lines are configured and the first init frames are sent. -/
theorem Live.initStart {s : State} {c : Cfg} {t0 : Nat} (h : Live s c { St.init with now := t0 } (initialiseSteps c)) :
    ∃ t st w, Runs s t ∧ Live t c st (configSteps (fsByte c) ++ (configSteps c.displayOffByte ++ (configSteps clearByte
        ++ (configSteps c.entryModeByte ++ [.finish .ok])))) ∧ Same s t ∧ st.trace = w ∧ writeFrames w = firstFrames c
      ∧ readCycles w = [] ∧ w.length = (firstFrames c).length ∧ BusFree c st ∧ st.phase = .functionSetting
      ∧ t0 + c.tPower + c.tBlind1 + c.tBlind2 + c.tBlind3 ≤ st.now := by
  simp only [initialiseSteps, configureSteps, powerSteps, List.append_assoc, List.cons_append, List.nil_append] at h
  obtain ⟨t1, n1, r1, L1, S1, b1⟩ := h.micro (f := none) (eff := { St.init with e := some false, now := t0 }) (fun _ => rfl) rfl rfl
  obtain ⟨t2, n2, r2, L2, S2, b2⟩ := L1.micro (f := none) (eff := { St.init with e := some false, rs := some false, now := n1 })
    (fun _ => rfl) rfl rfl
  obtain ⟨t3, n3, r3, L3, S3, b3⟩ := L2.micro (f := none)
    (eff := { St.init with e := some false, rs := some false, rw := some false, now := n2 }) (fun _ => rfl) rfl rfl
  obtain ⟨t4, n4, r4, L4, S4, b4⟩ := L3.micro (f := none)
    (eff := configDataEffect c.width { St.init with e := some false, rs := some false, rw := some false, now := n3 }) (fun _ => rfl) rfl rfl
  obtain ⟨t5, n5, r5, L5, S5, b5⟩ := L4.delay
  obtain ⟨t6, r6, L6, S6⟩ := L5.advance
  replace b1 : t0 ≤ n1 := b1
  replace b2 : n1 ≤ n2 := b2
  replace b3 : n2 ≤ n3 := b3
  replace b4 : n3 ≤ n4 := b4
  replace b5 : n4 + c.tPower ≤ n5 := b5
  have B6 : BusFree c ({ ((configDataEffect c.width { St.init with e := some false, rs := some false, rw := some false, now := n3 }).setNow
      n4).setNow n5 with phase := Phase.poweringUp.next }) := by
    refine ⟨⟨rfl, rfl, rfl, rfl⟩, by simp [configDataEffect], ⟨.inr ?_, ?_⟩, trivial⟩
    · show c.tPower ≤ n5
      omega
    · intro tf tag h
      cases h
  obtain ⟨t7, s7, τ1, r7, L7, S7, T7, B7, q7, p7, m7⟩ := L6.blind B6
  obtain ⟨t8, s8, τ2, r8, L8, S8, T8, B8, q8, p8, m8⟩ := L7.blind B7
  obtain ⟨t9, s9, τ3, r9, L9, S9, T9, B9, q9, p9, m9⟩ := L8.blind B8
  obtain ⟨ta, sa, wa, ra, La, Sa, Ta, ga, fa, la, Ba, qa, pa, ma⟩ := L9.modeSelect B9 q9
  refine ⟨ta, sa, [.wFrame false (initPattern c.width init8BitByte) τ1, .wFrame false (initPattern c.width init8BitByte) τ2,
    .wFrame false (initPattern c.width init8BitByte) τ3] ++ wa,
    r1.trans (r2.trans (r3.trans (r4.trans (r5.trans (r6.trans (r7.trans (r8.trans (r9.trans ra)))))))), La,
    S1.trans (S2.trans (S3.trans (S4.trans (S5.trans (S6.trans (S7.trans (S8.trans (S9.trans Sa)))))))), ?_, ?_, ?_, ?_, Ba, ?_, ?_⟩
  · rw [Ta, T9, T8, T7]
    simp [configDataEffect, St.init]
  · rw [writeFrames_append, fa]
    unfold firstFrames
    cases c.width <;> rfl
  · have : ∀ xs ys, readCycles (xs ++ ys) = readCycles xs ++ readCycles ys := fun _ _ => List.filterMap_append
    rw [this, ga]
    rfl
  · rw [List.length_append, la]
    unfold firstFrames
    cases c.width <;> rfl
  · rw [pa, p9, p8, p7]
    rfl
  · have e7 : ({ ((configDataEffect c.width { St.init with e := some false, rs := some false, rw := some false, now := n3 }).setNow
        n4).setNow n5 with phase := Phase.poweringUp.next } : St).now = n5 := rfl
    simp only [tBlind] at m7 m8 m9
    have m7' : n5 + c.tBlind1 ≤ s7.now := m7
    omega

end Sys2Proof.Machine
end

