-- ==== Sys2Proof/Laws/PerInstr.lean ====
section
/-! SUPPORT. Statements made of every instruction, one lemma for each constructor. `TableRow`: the encoder's word is a word of the instruction's row
of spec/opcode_table.json. -/

set_option Elab.async false

namespace Sys2Proof.Laws.TableRow

/-- A row of the opcode table: the list it stands in, and the bits that are fixed. -/
structure Row where
  level : Level
  mask : Nat
  word : Nat
  deriving DecidableEq, Repr

/-- The row of each instruction, as spec/opcode_table.json gives it. -/
def row : Instr → Row
  | .construct _ => ⟨.operation, 0xFF, 0x00⟩
  | .configureLines => ⟨.operation, 0xFF, 0x01⟩
  | .setControlLine _ _ => ⟨.operation, 0xFF, 0x02⟩
  | .setDataLines _ => ⟨.operation, 0xFF, 0x03⟩
  | .setDataDirection _ => ⟨.operation, 0xFF, 0x04⟩
  | .pulseEnable _ _ => ⟨.operation, 0xFF, 0x05⟩
  | .sample => ⟨.operation, 0xFF, 0x06⟩
  | .wait _ => ⟨.operation, 0xFF, 0x07⟩
  | .encode _ => ⟨.operation, 0xFF, 0x08⟩
  | .decode _ => ⟨.operation, 0xFF, 0x09⟩
  | .selectRegister _ => ⟨.operation, 0xFF, 0x0A⟩
  | .writeFrame _ _ => ⟨.operation, 0xFF, 0x0B⟩
  | .transfer _ _ => ⟨.operation, 0xFF, 0x0C⟩
  | .settle _ _ => ⟨.operation, 0xFF, 0x0D⟩
  | .sendInstruction _ => ⟨.operation, 0xFF, 0x0E⟩
  | .sendData _ => ⟨.operation, 0xFF, 0x0F⟩
  | .waitUntilReady => ⟨.operation, 0xFF, 0x10⟩
  | .pollIteration => ⟨.operation, 0xFF, 0x11⟩
  | .initialise => ⟨.operation, 0xFF, 0x12⟩
  | .abort => ⟨.operation, 0xFF, 0x13⟩
  | .iw8 _ => ⟨.busWord8, 0x300, 0x000⟩
  | .dw8 _ => ⟨.busWord8, 0x300, 0x200⟩
  | .br8 _ => ⟨.busWord8, 0x300, 0x100⟩
  | .rsv8 _ => ⟨.busWord8, 0x300, 0x300⟩
  | .iw4 _ => ⟨.busWord4, 0x30, 0x00⟩
  | .dw4 _ => ⟨.busWord4, 0x30, 0x20⟩
  | .br4 _ => ⟨.busWord4, 0x30, 0x10⟩
  | .rsv4 _ => ⟨.busWord4, 0x30, 0x30⟩
  | .init8Bit => ⟨.initFrame, 0xFF, 0x30⟩
  | .mode4Bit => ⟨.initFrame, 0xFF, 0x20⟩
  | .functionSet _ _ _ _ => ⟨.command, 0xE0, 0x20⟩
  | .clear => ⟨.command, 0xFF, 0x01⟩
  | .returnHome _ => ⟨.command, 0xFE, 0x02⟩
  | .displayOffByte => ⟨.command, 0xFF, 0x08⟩
  | .entryModeByte => ⟨.command, 0xFF, 0x06⟩

/-- The first word of a call, numbered as the table numbers it: two bytes for a 10-bit bus word, else one. -/
def firstWord (c : Call) : Nat :=
  match c.bytes with
  | [] => 0
  | b :: rest => if c.level = .busWord8 then b.toNat + 256 * (rest.headD 0#8).toNat else b.toNat

/-- The encoder's word stands in its row's list and has the row's fixed bits (30_encoding.md R81 to R84, R89, R93). -/
def Statement (i : Instr) : Prop := (encode i).level = (row i).level ∧ firstWord (encode i) &&& (row i).mask = (row i).word

theorem construct (cfg : Cfg) : Statement (.construct cfg) := ⟨rfl, (rfl : 0x00 &&& 0xFF = 0x00)⟩

theorem configureLines : Statement (.configureLines) := ⟨rfl, (rfl : 0x01 &&& 0xFF = 0x01)⟩

theorem setControlLine (l : CtrlLine) (v : Bit) : Statement (.setControlLine l v) := ⟨rfl, (rfl : 0x02 &&& 0xFF = 0x02)⟩

theorem setDataLines (p : Pattern) : Statement (.setDataLines p) := ⟨rfl, (rfl : 0x03 &&& 0xFF = 0x03)⟩

theorem setDataDirection (d : Dir) : Statement (.setDataDirection d) := ⟨rfl, (rfl : 0x04 &&& 0xFF = 0x04)⟩

theorem pulseEnable (t : Nat) (tag : FallTag) : Statement (.pulseEnable t tag) := ⟨rfl, (rfl : 0x05 &&& 0xFF = 0x05)⟩

theorem sample : Statement (.sample) := ⟨rfl, (rfl : 0x06 &&& 0xFF = 0x06)⟩

theorem wait (d : Nat) : Statement (.wait d) := ⟨rfl, (rfl : 0x07 &&& 0xFF = 0x07)⟩

theorem encode (b : Byte) : Statement (.encode b) := ⟨rfl, (rfl : 0x08 &&& 0xFF = 0x08)⟩

theorem decode (fs : List Pattern) : Statement (.decode fs) := ⟨rfl, (rfl : 0x09 &&& 0xFF = 0x09)⟩

theorem selectRegister (k : Kind) : Statement (.selectRegister k) := ⟨rfl, (rfl : 0x0A &&& 0xFF = 0x0A)⟩

theorem writeFrame (p : Pattern) (tag : FallTag) : Statement (.writeFrame p tag) := ⟨rfl, (rfl : 0x0B &&& 0xFF = 0x0B)⟩

theorem transfer (k : Kind) (b : Byte) : Statement (.transfer k b) := ⟨rfl, (rfl : 0x0C &&& 0xFF = 0x0C)⟩

theorem settle (k : Kind) (b : Byte) : Statement (.settle k b) := ⟨rfl, (rfl : 0x0D &&& 0xFF = 0x0D)⟩

theorem sendInstruction (b : Byte) : Statement (.sendInstruction b) := ⟨rfl, (rfl : 0x0E &&& 0xFF = 0x0E)⟩

theorem sendData (b : Byte) : Statement (.sendData b) := ⟨rfl, (rfl : 0x0F &&& 0xFF = 0x0F)⟩

theorem waitUntilReady : Statement (.waitUntilReady) := ⟨rfl, (rfl : 0x10 &&& 0xFF = 0x10)⟩

theorem pollIteration : Statement (.pollIteration) := ⟨rfl, (rfl : 0x11 &&& 0xFF = 0x11)⟩

theorem initialise : Statement (.initialise) := ⟨rfl, (rfl : 0x12 &&& 0xFF = 0x12)⟩

theorem abort : Statement (.abort) := ⟨rfl, (rfl : 0x13 &&& 0xFF = 0x13)⟩

theorem iw8 (b : Byte) : Statement (.iw8 b) := by
  refine ⟨rfl, ?_⟩
  revert b
  decide

theorem dw8 (b : Byte) : Statement (.dw8 b) := by
  refine ⟨rfl, ?_⟩
  revert b
  decide

theorem br8 (b : Byte) : Statement (.br8 b) := by
  refine ⟨rfl, ?_⟩
  revert b
  decide

theorem rsv8 (b : Byte) : Statement (.rsv8 b) := by
  refine ⟨rfl, ?_⟩
  revert b
  decide

theorem iw4 (n : Nibble) : Statement (.iw4 n) := by
  refine ⟨rfl, ?_⟩
  revert n
  decide

theorem dw4 (n : Nibble) : Statement (.dw4 n) := by
  refine ⟨rfl, ?_⟩
  revert n
  decide

theorem br4 (n : Nibble) : Statement (.br4 n) := by
  refine ⟨rfl, ?_⟩
  revert n
  decide

theorem rsv4 (n : Nibble) : Statement (.rsv4 n) := by
  refine ⟨rfl, ?_⟩
  revert n
  decide

theorem init8Bit : Statement (.init8Bit) := ⟨rfl, (rfl : 0x30 &&& 0xFF = 0x30)⟩

theorem mode4Bit : Statement (.mode4Bit) := ⟨rfl, (rfl : 0x20 &&& 0xFF = 0x20)⟩

theorem functionSet (dl n f : Bit) (x : BitVec 2) : Statement (.functionSet dl n f x) := by
  refine ⟨rfl, ?_⟩
  revert dl n f x
  decide

theorem clear : Statement (.clear) := ⟨rfl, (rfl : 0x01 &&& 0xFF = 0x01)⟩

theorem returnHome (x : Bit) : Statement (.returnHome x) := by
  refine ⟨rfl, ?_⟩
  revert x
  decide

theorem displayOffByte : Statement (.displayOffByte) := ⟨rfl, (rfl : 0x08 &&& 0xFF = 0x08)⟩

theorem entryModeByte : Statement (.entryModeByte) := ⟨rfl, (rfl : 0x06 &&& 0xFF = 0x06)⟩

end Sys2Proof.Laws.TableRow
end

