-- ==== Sys2Proof/Machine/Text.lean ====
section
/-! DEFINITION. How operations (30_encoding.md R93) and trace events (R95) are written. No step of the machine reads it. -/

namespace Sys2Proof.Machine

/-- One hexadecimal digit, in capitals as R95's vectors have them. -/
def hexDigit (n : Nat) : String :=
  ["0", "1", "2", "3", "4", "5", "6", "7", "8", "9", "A", "B", "C", "D", "E", "F"].getD (n % 16) ""

/-- A byte in two hexadecimal digits. -/
def hexByte (b : Byte) : String := "0x" ++ hexDigit (b.toNat / 16) ++ hexDigit b.toNat

/-- A pattern: two digits under EightBit, one under FourBit (R95). -/
def hexPattern : Pattern → String
  | .byte b => hexByte b
  | .nibble n => "0x" ++ hexDigit n.toNat

def bitText (v : Bit) : String := if v then "1" else "0"

def lineText : CtrlLine → String
  | .e => "E"
  | .rs => "RS"
  | .rw => "RW"

def dirText : Dir → String
  | .output => "Output"
  | .inputWithPullup => "InputWithPullup"

def kindText : Kind → String
  | .instruction => "Instruction"
  | .data => "Data"

def outcomeText : OpOutcome → String
  | .ok => "Ok"
  | .configurationError => "ConfigurationError"
  | .busyFlagTimeout => "BusyFlagTimeout"
  | .aborted => "Aborted"

def attemptText : Attempt → String
  | .first => "1"
  | .second => "2"
  | .third => "3"

/-- A ghost tag as R32 writes it. -/
def tagText : FallTag → String
  | .blind k => "Blind(" ++ attemptText k ++ ")"
  | .modeSel => "ModeSel"
  | .innerNibble => "InnerNibble"
  | .final k b => "Final(" ++ kindText k ++ ", " ++ hexByte b ++ ")"
  | .read => "Read"

/-- A trace event, without its time (R95). -/
def Event.text : Event → String
  | .wFrame rs bits _ => "W rs=" ++ bitText rs ++ " " ++ hexPattern bits
  | .rCycle rs bits _ => "R rs=" ++ bitText rs ++ " " ++ hexPattern bits
  | .dirChange d _ => "DIR " ++ dirText d
  | .outcome o _ => "RET " ++ outcomeText o

/-- A frame list (R93, 95_test_vectors.md). -/
def framesText (fs : List Pattern) : String := "[" ++ ", ".intercalate (fs.map hexPattern) ++ "]"

/-- An operation in the syntax of R93, none for a bus word or a command byte. The text of a configuration is not given: `cfg` stands for
it, as in the programs of 95_test_vectors.md. -/
def opText : Instr → Option String
  | .construct _ => some "construct(cfg)"
  | .configureLines => some "configureLines"
  | .setControlLine l v => some ("setControlLine(" ++ lineText l ++ ", " ++ bitText v ++ ")")
  | .setDataLines p => some ("setDataLines(" ++ hexPattern p ++ ")")
  | .setDataDirection d => some ("setDataDirection(" ++ dirText d ++ ")")
  | .pulseEnable t tag => some ("pulseEnable(" ++ t.repr ++ ", " ++ tagText tag ++ ")")
  | .sample => some "sample"
  | .wait d => some ("wait(" ++ d.repr ++ ")")
  | .encode b => some ("encode(" ++ hexByte b ++ ")")
  | .decode fs => some ("decode(" ++ framesText fs ++ ")")
  | .selectRegister k => some ("selectRegister(" ++ kindText k ++ ")")
  | .writeFrame p tag => some ("writeFrame(" ++ hexPattern p ++ ", " ++ tagText tag ++ ")")
  | .transfer k b => some ("transfer(" ++ kindText k ++ ", " ++ hexByte b ++ ")")
  | .settle k b => some ("settle(" ++ kindText k ++ ", " ++ hexByte b ++ ")")
  | .sendInstruction b => some ("sendInstruction(" ++ hexByte b ++ ")")
  | .sendData b => some ("sendData(" ++ hexByte b ++ ")")
  | .waitUntilReady => some "waitUntilReady"
  | .pollIteration => some "pollIteration"
  | .initialise => some "initialize"
  | .abort => some "abort"
  | .iw8 _ | .dw8 _ | .br8 _ | .rsv8 _ | .iw4 _ | .dw4 _ | .br4 _ | .rsv4 _ => none
  | .init8Bit | .mode4Bit | .functionSet _ _ _ _ | .clear | .returnHome _ | .displayOffByte | .entryModeByte => none

end Sys2Proof.Machine
end

