-- ==== Sys2Proof/Tests/Slice0.lean ====
section
/-! SUPPORT. Tests of the model: ill-formed terms and bytes are refused; words of the spec decode; one-step vectors of 95_test_vectors.md (each
named in its docstring); a witness for the hypotheses of every statement. -/

set_option Elab.async false

namespace Sys2Proof.Tests

open Sys2Proof.Machine

/-! ### Helpers -/

/-- A free driver on an instance, in the exact run of 95_test_vectors.md: every draw of time is 0. -/
def free (c : Cfg) (st : St) (answers : List Byte := []) : State :=
  { State.reset with inst := some ⟨c, st⟩, delays := List.replicate 8 0, answers := answers, latches := List.replicate 8 0#8 }

def c8 : Cfg := Config.resetCfg

def pins8 : List (Signal × Nat) := c8.pins

def c4 : Cfg := { c8 with width := .fourBit, pins := [(.e, 0), (.rs, 1), (.rw, 2), (.db 4, 3), (.db 5, 4), (.db 6, 5), (.db 7, 6)] }

/-- "Configured" (95_test_vectors.md 3.3). -/
def configured (w : Width) : St :=
  { St.init with e := some false, rs := some false, rw := some false, dir := some .output, data := some (zeroPattern w) }

/-- BT6's end: configured, the lines inputs. -/
def inputs (w : Width) : St := { configured w with dir := some .inputWithPullup, trace := [.dirChange .inputWithPullup 0] }

/-- Configured at `T_POWER`, Enable raised for a write with a tag. -/
def pulsing (w : Width) (tag : FallTag) (p : Pattern) (now : Nat) : St :=
  { configured w with
    e := some true, data := some p, now := now
    mon := { Monitor.init with riseAt := some 15000000, riseKind := some .write, curTag := tag, anyRise := true } }

/-- A read cycle, Enable raised at 15 000 000. -/
def reading (w : Width) (now : Nat) : St :=
  { inputs w with
    e := some true, rw := some true, now := now
    mon := { Monitor.init with riseAt := some 15000000, riseKind := some .read, anyRise := true } }

/-- At rest after a transfer, every minimum time just over. -/
def rest (w : Width) (phase : Phase) : St :=
  { configured w with
    phase := phase, now := 20000000
    mon := { Monitor.init with
      anyRise := true, curTag := .final .instruction 0x06#8, lastFall := some (19999500, .final .instruction 0x06#8)
      lastChange := 20000000, settle := .untilTime 20000000 } }

/-- At rest, the lines inputs and a read selected. -/
def restReading (w : Width) : St := { rest w .ready with rw := some true, dir := some .inputWithPullup }

def stAfter : Res → Option St
  | .next t => t.inst.map (·.st)
  | _ => none

def contAfter : Res → List Act
  | .next t => t.cont
  | _ => []

def retAfter : Res → Option Ret
  | .next t => some t.ret
  | _ => none

def raised (r : Res) : List ModelFault := ((stAfter r).map (·.faults)).getD []

def refusal : Res → Option Refusal
  | .refused e => some e
  | _ => none

def fault : Res → Option Fault
  | .fault e => some e
  | _ => none

/-! ### WellFormed and the decoder's refusals -/

theorem test_wf_two_widths : wellFormed (.decode [.nibble 2#4, .byte 8#8]) = false := by decide
theorem test_wf_signal_mapped_twice : wellFormed (.construct { c4 with pins := (.e, 9) :: c4.pins }) = false := by decide
theorem test_wf_reset_configuration : wellFormed (.construct c4) = true := by decide

theorem test_refuse_two_widths : decode ⟨.operation, [0x09#8, 2#8, 0#8, 2#8, 1#8, 8#8]⟩ = .error .mixedWidths := by decide
theorem test_refuse_signal_twice :
    decode (encode (.construct { c4 with pins := [(.e, 0), (.e, 1)] })) = .error .notAPinMap := by decide
/-- 95_test_vectors.md 3.2: "0x12 is not a nibble". -/
theorem test_refuse_wide_nibble : decode ⟨.operation, [0x09#8, 2#8, 0#8, 0x12#8, 0#8, 0#8]⟩ = .error .nibbleTooWide := by decide
theorem test_refuse_unknown_operation : decode ⟨.operation, [0x14#8]⟩ = .error .unknownOperation := by decide
theorem test_refuse_bad_operand : decode ⟨.operation, [0x02#8, 3#8, 0#8]⟩ = .error .badOperand := by decide
theorem test_refuse_truncated : decode ⟨.operation, [0x0F#8]⟩ = .error .truncated := by decide
theorem test_refuse_trailing : decode ⟨.operation, [0x0F#8, 0x41#8, 0#8]⟩ = .error .trailingBytes := by decide
theorem test_refuse_number : decode ⟨.operation, [0x07#8, 0x80#8, 0#8]⟩ = .error .nonCanonicalNumber := by decide
theorem test_refuse_stray_bits : decode ⟨.busWord4, [0x40#8]⟩ = .error .strayBits := by decide
theorem test_refuse_opaque_byte : decode ⟨.command, [0x41#8]⟩ = .error .opaqueByte := by decide
theorem test_refuse_init_frame : decode ⟨.initFrame, [0x38#8]⟩ = .error .notAnInitFrame := by decide

/-! ### Words of the spec decode: R93's codes, R81 to R83's words, R89's bytes -/

theorem test_decode_construct :
    decode ⟨.operation, [0x00#8, 0#8, 2#8, 0#8, 0#8, 0#8, 1#8, 8#8, 5#8, 0#8, 0#8, 0#8, 0#8, 0#8, 0#8, 0#8, 0#8, 0#8, 0#8, 0#8, 0#8, 8#8,
      6#8]⟩
      = .ok (.construct
          { width := .fourBit, rows := 2, font := .font5x8, pins := [(.e, 5)], tPower := 0, tBlind1 := 0, tBlind2 := 0, tBlind3 := 0
            tMode := 0, tPollHigh := 0, tPollLow := 0, tPwEn := 0, tEnLow := 0, tSettleCmd := 0, tSettleLong := 0 }) := by decide
theorem test_decode_configure_lines : decode ⟨.operation, [0x01#8]⟩ = .ok .configureLines := by decide
theorem test_decode_set_control_line : decode ⟨.operation, [0x02#8, 2#8, 1#8]⟩ = .ok (.setControlLine .rw true) := by decide
theorem test_decode_set_data_lines : decode ⟨.operation, [0x03#8, 0#8, 0x3#8]⟩ = .ok (.setDataLines (.nibble 3#4)) := by decide
theorem test_decode_set_data_direction : decode ⟨.operation, [0x04#8, 1#8]⟩ = .ok (.setDataDirection .inputWithPullup) := by decide
theorem test_decode_pulse_enable :
    decode ⟨.operation, [0x05#8, 0xF4#8, 0x03#8, 7#8, 0x41#8]⟩ = .ok (.pulseEnable 500 (.final .data 0x41#8)) := by decide
theorem test_decode_sample : decode ⟨.operation, [0x06#8]⟩ = .ok .sample := by decide
theorem test_decode_wait : decode ⟨.operation, [0x07#8, 0xF4#8, 0x03#8]⟩ = .ok (.wait 500) := by decide
theorem test_decode_encode : decode ⟨.operation, [0x08#8, 0xA5#8]⟩ = .ok (.encode 0xA5#8) := by decide
theorem test_decode_decode :
    decode ⟨.operation, [0x09#8, 2#8, 0#8, 0xA#8, 0#8, 5#8]⟩ = .ok (.decode [.nibble 0xA#4, .nibble 5#4]) := by decide
theorem test_decode_select_register : decode ⟨.operation, [0x0A#8, 1#8]⟩ = .ok (.selectRegister .data) := by decide
theorem test_decode_write_frame :
    decode ⟨.operation, [0x0B#8, 0#8, 3#8, 2#8]⟩ = .ok (.writeFrame (.nibble 3#4) (.blind .first)) := by decide
theorem test_decode_transfer : decode ⟨.operation, [0x0C#8, 1#8, 0x41#8]⟩ = .ok (.transfer .data 0x41#8) := by decide
theorem test_decode_settle : decode ⟨.operation, [0x0D#8, 0#8, 0x01#8]⟩ = .ok (.settle .instruction 0x01#8) := by decide
theorem test_decode_send_instruction : decode ⟨.operation, [0x0E#8, 0x01#8]⟩ = .ok (.sendInstruction 0x01#8) := by decide
theorem test_decode_send_data : decode ⟨.operation, [0x0F#8, 0x41#8]⟩ = .ok (.sendData 0x41#8) := by decide
theorem test_decode_wait_until_ready : decode ⟨.operation, [0x10#8]⟩ = .ok .waitUntilReady := by decide
theorem test_decode_poll_iteration : decode ⟨.operation, [0x11#8]⟩ = .ok .pollIteration := by decide
theorem test_decode_initialise : decode ⟨.operation, [0x12#8]⟩ = .ok .initialise := by decide
theorem test_decode_abort : decode ⟨.operation, [0x13#8]⟩ = .ok .abort := by decide
/-- 95_test_vectors.md 3.1: 0x030, 0x241, 0x180, 0x300. -/
theorem test_decode_bus_words_8 :
    decodeTableWord 10 0x030 = some (.iw8 0x30#8) ∧ decodeTableWord 16 0x241 = some (.dw8 0x41#8)
      ∧ decodeTableWord 16 0x180 = some (.br8 0x80#8) ∧ decodeTableWord 16 0x300 = some (.rsv8 0x00#8) := by decide
/-- 95_test_vectors.md 3.1: 0x03, 0x24, 0x18, 0x30. -/
theorem test_decode_bus_words_4 :
    decodeTableWord 6 0x03 = some (.iw4 3#4) ∧ decodeTableWord 6 0x24 = some (.dw4 4#4) ∧ decodeTableWord 6 0x18 = some (.br4 8#4)
      ∧ decodeTableWord 6 0x30 = some (.rsv4 0#4) := by decide
theorem test_decode_init_8bit : decode ⟨.initFrame, [0x30#8]⟩ = .ok .init8Bit := by decide
theorem test_decode_mode_4bit : decode ⟨.initFrame, [0x20#8]⟩ = .ok .mode4Bit := by decide
theorem test_decode_function_set : decode ⟨.command, [0x28#8]⟩ = .ok (.functionSet false true false 0#2) := by decide
theorem test_decode_clear : decode ⟨.command, [0x01#8]⟩ = .ok .clear := by decide
theorem test_decode_return_home : decode ⟨.command, [0x03#8]⟩ = .ok (.returnHome true) := by decide
theorem test_decode_display_off : decode ⟨.command, [0x08#8]⟩ = .ok .displayOffByte := by decide
theorem test_decode_entry_mode : decode ⟨.command, [0x06#8]⟩ = .ok .entryModeByte := by decide

/-! ### One step each -/

/-- X1 -/
theorem test_construct_x1 :
    (match exec (.construct { c4 with pollBound := some 0 }) State.reset with | .next t => (t.inst, t.ret) | _ => (none, .nothing))
      = (none, .outcome .configurationError) := by decide
/-- X2, X3, X4 -/
theorem test_construct_x2_x3_x4 :
    configOk { c4 with pins := pins8 } = false ∧ configOk { c4 with pins := [(.e, 0), (.rs, 4), (.rw, 2), (.db 4, 3), (.db 5, 4), (.db 6, 5),
      (.db 7, 6)] } = false ∧ stAfter (exec (.construct c8) State.reset) = some St.init := by decide

/-- BT1: the last micro-step of `configureLines`. -/
theorem test_configure_lines_bt1 :
    stAfter (step { free c4 { configured .fourBit with dir := none, data := none } with cont := [.configData] })
      = some (configured .fourBit) := by decide

/-- BT3 -/
theorem test_set_control_line_bt3 : raised (exec (.setControlLine .e true) (free c4 St.init)) = [.unconfiguredLine .e] := by decide
/-- R22: a rise reads RW, here unwritten. -/
theorem test_set_control_line_rw_unwritten :
    raised (exec (.setControlLine .e true) (free c4 { St.init with e := some false })) = [.unconfiguredLine .rw] := by decide
/-- R111: `configureLines` checks F9 alone, so its RS step goes on in the middle of a byte. -/
theorem test_configure_lines_mid_byte :
    stAfter (step { free c4 { configured .fourBit with rs := some true, halfByte := true } with cont := [.configRS] })
      = some { configured .fourBit with halfByte := true } := by decide
/-- BT13: the rise passes; the write of RS then does not. -/
theorem test_set_control_line_bt13 :
    (stAfter (exec (.setControlLine .e true) (free c4 { configured .fourBit with now := 15000000 }))).map (·.mon.riseAt) = some (some 15000000)
      ∧ raised (exec (.setControlLine .rs true) (free c4 (pulsing .fourBit .innerNibble (.nibble 0#4) 15000000)))
        = [.lineChangeWhileEnableHigh] := by decide

/-- BT8 -/
theorem test_set_data_lines_bt8 : raised (exec (.setDataLines (.nibble 3#4)) (free c4 (inputs .fourBit))) = [.writeWhileInput] := by decide
/-- BT18's third step. -/
theorem test_set_data_lines_bt18 :
    stAfter (exec (.setDataLines (.byte 0x41#8)) (free c8 (configured .eightBit)))
      = some { configured .eightBit with data := some (.byte 0x41#8) } := by decide

/-- BT6 -/
theorem test_set_data_direction_bt6 :
    stAfter (exec (.setDataDirection .inputWithPullup) (free c4 (configured .fourBit))) = some (inputs .fourBit) := by decide
/-- BT9 -/
theorem test_set_data_direction_bt9 :
    raised (exec (.setDataDirection .output) (free c4 { inputs .fourBit with rw := some true })) = [.busContention] := by decide

/-- BT11 -/
theorem test_pulse_enable_bt11 :
    raised (exec (.pulseEnable 500 .innerNibble) (free c4 { inputs .fourBit with rw := some true })) = [.pulseInReadMode] := by decide
/-- BT14 -/
theorem test_pulse_enable_bt14 :
    raised (exec (.pulseEnable 500 .innerNibble) (free c4 (pulsing .fourBit .read (.nibble 0#4) 15000000)))
      = [.enableNotLowAtFrameStart] := by decide

/-- BT12 -/
theorem test_sample_bt12 : raised (exec .sample (free c4 (configured .fourBit))) = [.sampleOutsideReadCycle] := by decide
/-- TM6: 0 < 500; at 500 the sample is taken (R249). -/
theorem test_sample_tm6 :
    raised (exec .sample (free c4 (reading .fourBit 15000000))) = [.timingViolation .pollHigh]
      ∧ retAfter (exec .sample (free c4 (reading .fourBit 15000500) [0x8F#8])) = some (.pattern (.nibble 8#4)) := by decide

/-- BT20 -/
theorem test_wait_bt20 : (stAfter (exec (.wait 41000) (free c4 { St.init with now := 100 }))).map (·.now) = some 41100 := by decide

/-- 3.2: 0xA5. -/
theorem test_encode_a5 :
    retAfter (exec (.encode 0xA5#8) (free c4 St.init)) = some (.frames [.nibble 0xA#4, .nibble 5#4])
      ∧ retAfter (exec (.encode 0xA5#8) (free c8 St.init)) = some (.frames [.byte 0xA5#8]) := by decide

/-- 3.2: 0x28 back from its nibbles; one nibble is refused. -/
theorem test_decode_28 :
    retAfter (exec (.decode [.nibble 2#4, .nibble 8#4]) (free c4 St.init)) = some (.byte 0x28#8)
      ∧ refusal (exec (.decode [.nibble 2#4]) (free c4 St.init)) = some .decodeDomain := by decide

/-- R133, R23: Data selects RS = 1; BT15: not in the middle of a byte. -/
theorem test_select_register_bt15 :
    (stAfter (exec (.selectRegister .data) (free c4 (configured .fourBit)))).map (·.rs) = some (some true)
      ∧ raised (exec (.selectRegister .data) (free c4 { configured .fourBit with halfByte := true })) = [.registerSelectMidByte] := by decide

/-- BT15: the fall of its frame. -/
theorem test_write_frame_bt15 :
    (stAfter (step { free c4 (pulsing .fourBit .innerNibble (.nibble 2#4) 15000500) with cont := [.line .e false] })).map
      (fun st => (st.trace, st.halfByte, st.e)) = some ([.wFrame false (.nibble 2#4) 15000500], true, some false) := by decide
/-- R112: the fall of an upper nibble sets `halfByte` under EightBit too. -/
theorem test_write_frame_half_8 :
    (stAfter (step { free c8 (pulsing .eightBit .innerNibble (.byte 2#8) 15000500) with cont := [.line .e false] })).map (·.halfByte)
      = some true := by decide
/-- R92 -/
theorem test_write_frame_width : refusal (exec (.writeFrame (.byte 0x12#8) .modeSel) (free c4 (configured .fourBit))) = some .wrongWidth := by
  decide

/-- E3: the upper nibble strictly before the lower. -/
theorem test_transfer_e3 :
    (contAfter (exec (.transfer .data 0x41#8) (free c4 (configured .fourBit)))).filter (fun a => match a with | .frame _ _ => true | _ => false)
      = [.frame (.nibble 4#4) .innerNibble, .frame (.nibble 1#4) (.final .data 0x41#8)] := by decide

/-- 3.2: the settle durations under FixedDelay. -/
theorem test_settle_table :
    contAfter (exec (.settle .instruction 0x03#8) (free { c8 with strategy := .fixedDelay } (configured .eightBit)))
        = [.delay 2000000, .finish .ok]
      ∧ contAfter (exec (.settle .data 0x01#8) (free { c8 with strategy := .fixedDelay } (configured .eightBit)))
        = [.delay 50000, .finish .ok] := by decide

/-- X5 -/
theorem test_send_instruction_x5 : raised (exec (.sendInstruction 0x30#8) (free c4 St.init)) = [.notReady] := by decide
/-- X7, and 0x3F of the guard's table; under EightBit it is allowed. -/
theorem test_send_instruction_x7 :
    raised (exec (.sendInstruction 0x38#8) (free c4 (rest .fourBit .ready))) = [.widthChangeRefused]
      ∧ raised (exec (.sendInstruction 0x3F#8) (free c4 (rest .fourBit .ready))) = [.widthChangeRefused]
      ∧ raised (exec (.sendInstruction 0x3F#8) (free c8 (rest .eightBit .ready))) = [] := by decide

/-- X6, X8 -/
theorem test_send_data_x6_x8 :
    raised (exec (.sendData 0x41#8) (free c4 St.init)) = [.notReady]
      ∧ raised (exec (.sendData 0x41#8) (free c4 (rest .fourBit (.failed .busyFlagTimeout)))) = [.instanceDead] := by decide

/-- BF8, BF9 -/
theorem test_wait_until_ready_bf8_bf9 :
    raised (exec .waitUntilReady (free c4 St.init)) = [.pollBeforeModeSelect]
      ∧ raised (exec .waitUntilReady (free c4 (rest .fourBit (.failed .busyFlagTimeout)))) = [.instanceDead] := by decide
/-- BF5: the third busy answer reaches the bound. -/
theorem test_wait_until_ready_bf5 :
    contAfter (step { free { c8 with pollBound := some 3 } { restReading .eightBit with pollIter := 2 } with
      bf := true, cont := [.pollTest, .finish .ok] })
      = [.line .rw false, .direction .output, .finish .busyFlagTimeout] := by decide

/-- 3.5: the busy flag of an iteration. -/
theorem test_poll_iteration_flag :
    busyFlag [.byte 0x7F#8] .eightBit = some false ∧ busyFlag [.nibble 0x7#4, .nibble 0xF#4] .fourBit = some false
      ∧ busyFlag [.nibble 0x0#4, .nibble 0x8#4] .fourBit = some false ∧ busyFlag [.nibble 0xF#4, .nibble 0xF#4] .fourBit = some true := by
  decide
/-- 3.5: the sample that keeps the flag, [0x8, 0x0] under FourBit; R254: BF = 0 discharges the obligation, also in a lone iteration. -/
theorem test_poll_iteration_sample :
    (match step { free c4 (reading .fourBit 15000500) [0x80#8] with cont := [.read none true] } with | .next t => t.bf | _ => false) = true
      ∧ (stAfter (step { free c4 { restReading .fourBit with mon := { Monitor.init with settle := .untilBusyClear } } with
          bf := false, cont := [.giveFlag] })).map (·.mon.settle) = some .noSettle := by decide

/-- IS6, IS7 -/
theorem test_initialise_is6_is7 :
    raised (exec .initialise (free c4 (rest .fourBit .ready))) = [.initializeTwice]
      ∧ raised (exec .initialise (free c4 (rest .fourBit .aborted))) = [.instanceDead] := by decide

/-- E4: the first line of the abort path, after the rise of `pulseEnable(500, InnerNibble)`. -/
theorem test_abort_e4 :
    (stAfter (step { free c4 (pulsing .fourBit .innerNibble (.nibble 2#4) 15000000) with
      caller := .abortPath, cont := abortSteps })).map (fun st => (st.trace, st.halfByte, st.e))
      = some ([.wFrame false (.nibble 2#4) 15000000], true, some false) := by decide
/-- R215: the obligation of a final frame is dropped. -/
theorem test_abort_settle :
    (stAfter (step { free c4 { rest .fourBit .ready with mon := { Monitor.init with settle := .untilBusyClear } } with
      caller := .abortPath, cont := [.abortFinish] })).map (·.mon.settle) = some .noSettle := by decide
/-- X9 -/
theorem test_abort_x9 :
    stAfter (exec .abort (free c4 (rest .fourBit .aborted))) = some (rest .fourBit .aborted) := by decide

theorem test_iw8 :
    contAfter (exec (.iw8 0x30#8) (free c8 (configured .eightBit)))
      = [.line .rs false, .line .rw false, .frame (.byte 0x30#8) (.blind .first)] := by decide
theorem test_dw8 :
    contAfter (exec (.dw8 0x41#8) (free c8 (configured .eightBit)))
      = [.line .rs true, .line .rw false, .frame (.byte 0x41#8) (.final .data 0x41#8)] := by decide
theorem test_br8 :
    contAfter (exec (.br8 0x80#8) (free c8 (configured .eightBit)))
      = [.line .rs false, .line .rw true, .delay 0, .line .e true, .delay 500, .read (some (.byte 0x80#8)) false, .line .e false,
        .delay 500] := by decide
/-- P1, bus event 6: the lower nibble of 0x28. -/
theorem test_iw4 :
    contAfter (exec (.iw4 0x8#4) (free c4 { configured .fourBit with
      halfByte := true, trace := [.wFrame false (.nibble 3#4) 0, .wFrame false (.nibble 3#4) 0, .wFrame false (.nibble 3#4) 0,
        .wFrame false (.nibble 2#4) 0, .wFrame false (.nibble 2#4) 0] }))
      = [.line .rs false, .line .rw false, .frame (.nibble 8#4) (.final .instruction 0x28#8)] := by decide
theorem test_dw4 :
    contAfter (exec (.dw4 0x4#4) (free c4 (configured .fourBit)))
      = [.line .rs true, .line .rw false, .frame (.nibble 4#4) .innerNibble] := by decide
theorem test_br4 :
    contAfter (exec (.br4 0x8#4) (free c4 (configured .fourBit)))
      = [.line .rs false, .line .rw true, .delay 0, .line .e true, .delay 500, .read (some (.nibble 8#4)) false, .line .e false,
        .delay 500] := by decide
theorem test_rsv : refusal (exec (.rsv8 0#8) State.reset) = some .reservedBusWord
    ∧ refusal (exec (.rsv4 0#4) State.reset) = some .reservedBusWord := by decide

/-- IS1's second frame. -/
theorem test_init_8bit :
    contAfter (exec .init8Bit (free c4 { configured .fourBit with phase := .blindInit .second }))
      = [.line .rs false, .line .rw false, .frame (.nibble 3#4) (.blind .second), .delay 100000, .advance] := by decide
/-- IS1's fourth frame. -/
theorem test_mode_4bit :
    contAfter (exec .mode4Bit (free c4 { configured .fourBit with phase := .modeSelecting }))
      = [.frame (.nibble 2#4) .modeSel, .delay 41000, .advance] := by decide
theorem test_function_set :
    contAfter (exec (.functionSet false true false 0#2) (free c4 (rest .fourBit .functionSetting))) = [.transfer .instruction 0x28#8, .advance]
      ∧ raised (exec (.functionSet true true true 3#2) (free c4 (rest .fourBit .ready))) = [.widthChangeRefused] := by decide
theorem test_clear :
    contAfter (exec .clear (free c4 (rest .fourBit .ready))) = [.transfer .instruction 0x01#8, .finish .ok]
      ∧ contAfter (exec .clear (free c4 (rest .fourBit .clearing))) = [.transfer .instruction 0x01#8, .advance] := by decide
theorem test_return_home :
    contAfter (exec (.returnHome true) (free c4 (rest .fourBit .ready))) = [.transfer .instruction 0x03#8, .finish .ok] := by decide
theorem test_display_off_byte :
    contAfter (exec .displayOffByte (free c4 (rest .fourBit .displayConfiguring))) = [.transfer .instruction 0x08#8, .advance] := by decide
theorem test_entry_mode_byte :
    contAfter (exec .entryModeByte (free c4 (rest .fourBit .entryModeSetting))) = [.transfer .instruction 0x06#8, .advance] := by decide

/-- 3.2: function-set bytes. -/
theorem test_function_set_bytes :
    fsByte { c4 with rows := 1 } = 0x20#8 ∧ fsByte c4 = 0x28#8 ∧ fsByte { c4 with font := .font5x10 } = 0x2C#8
      ∧ fsByte { c8 with rows := 1 } = 0x30#8 ∧ fsByte c8 = 0x38#8 ∧ fsByte { c8 with rows := 1, font := .font5x10 } = 0x34#8 := by decide

/-- TM1, TM7, TM11: what a rise finds. -/
theorem test_monitor_rise :
    riseFault c4 (configured .fourBit) = some (.timingViolation .power)
      ∧ riseFault { c4 with tSetup := 1000 } { configured .fourBit with
          now := 15000000, mon := { Monitor.init with lastChange := 15000000 } } = some (.timingViolation .setup)
      ∧ riseFault c4 { configured .fourBit with
          now := 15000500, mon := { Monitor.init with anyRise := true, lastFall := some (15000500, .blind .first) } }
        = some (.timingViolation (.blind .first)) := by decide
/-- TM2 at the fall; TM5; TM8; TM9. -/
theorem test_monitor_more :
    raised (exec (.setControlLine .e false) (free c4 (pulsing .fourBit .innerNibble (.nibble 0#4) 15000100))) = [.timingViolation .pw]
      ∧ riseFault c4 { configured .fourBit with
          now := 15002000, mon := { Monitor.init with anyRise := true, lastFall := some (15000500, .modeSel) } } = some (.timingViolation .mode)
      ∧ settleFault { rest .eightBit .ready with now := 21450000, mon := { Monitor.init with settle := .untilTime 23449500 } }
        = some (.timingViolation .settleTime)
      ∧ settleFault { rest .fourBit .ready with mon := { Monitor.init with settle := .untilBusyClear } }
        = some (.timingViolation .settleBusy) := by decide

/-- R95: how events are written. -/
theorem test_event_text :
    Event.text (.wFrame true (.byte 0x41#8) 0) = "W rs=1 0x41" ∧ Event.text (.rCycle false (.nibble 8#4) 0) = "R rs=0 0x8"
      ∧ Event.text (.dirChange .inputWithPullup 0) = "DIR InputWithPullup" ∧ Event.text (.outcome .ok 0) = "RET Ok" := by decide

/-! ### Witnesses: for every statement with hypotheses, a state and operands that meet them, each clause at a boundary -/

theorem idle_free (c : Cfg) (st : St) (a : List Byte) (h : st.faults = []) : Idle (free c st a) ⟨c, st⟩ := ⟨rfl, rfl, h⟩

theorem rest_resting (w : Width) (p : Phase) : Resting (rest w p) := ⟨rfl, rfl, rfl, rfl⟩

/-- The low time ends exactly now. -/
theorem rest_gapOver (c : Cfg) (w : Width) (p : Phase) (h : c.tEnLow = 500) : GapOver c (rest w p) := by
  refine ⟨.inl rfl, fun tf tag e => ?_⟩
  obtain ⟨rfl, rfl⟩ := Prod.mk.inj (Option.some.inj e)
  simp only [gap, rest, h]
  decide

/-- The settle time ends exactly now. -/
theorem rest_settled (w : Width) (p : Phase) : Settled (rest w p) := by simp [Settled, rest]

/-- The upper nibble of 0x41 is sent and the low time ends exactly now. -/
def midByte : St :=
  { configured .fourBit with
    phase := .ready, now := 20000000, halfByte := true, data := some (.nibble 4#4)
    mon := { Monitor.init with anyRise := true, curTag := .innerNibble, lastFall := some (19999500, .innerNibble), lastChange := 20000000 }
    trace := [.wFrame false (.nibble 4#4) 19999500] }

theorem midByte_gapOver : GapOver c4 midByte := by
  refine ⟨.inl rfl, fun tf tag e => ?_⟩
  obtain ⟨rfl, rfl⟩ := Prod.mk.inj (Option.some.inj e)
  decide

/-- A device busy twice and then ready under FourBit, and busy once under EightBit: DB7 is given, every other level is not the oracle's. -/
theorem busy_twice : BusyThenReady .fourBit 2 [0xFF#8, 0x7F#8, 0x81#8, 0xFF#8, 0x7F#8, 0xFF#8] :=
  ⟨[0xFF#8, 0x7F#8] ++ ([0x81#8, 0xFF#8] ++ []), [0x7F#8, 0xFF#8],
    ⟨_, _, ⟨_, _, rfl, rfl⟩, ⟨_, _, ⟨_, _, rfl, rfl⟩, rfl, rfl⟩, rfl⟩, ⟨_, _, rfl, rfl⟩, rfl⟩
theorem busy_once : BusyThenReady .eightBit 1 [0xFF#8, 0x7F#8] :=
  ⟨[0xFF#8] ++ [], [0x7F#8], ⟨_, _, ⟨_, rfl, rfl⟩, rfl, rfl⟩, ⟨_, rfl, rfl⟩, rfl⟩
theorem ready_at_once : BusyThenReady .fourBit 0 [0x7F#8, 0xFF#8] := ⟨[], _, rfl, ⟨_, _, rfl, rfl⟩, rfl⟩
theorem stays_busy : BusyAnswers .fourBit 2 [0xFF#8, 0x7F#8, 0x81#8, 0xFF#8] :=
  ⟨[0xFF#8, 0x7F#8], [0x81#8, 0xFF#8] ++ [], ⟨_, _, rfl, rfl⟩, ⟨_, _, ⟨_, _, rfl, rfl⟩, rfl, rfl⟩, rfl⟩

theorem restReading_gapOver (c : Cfg) (w : Width) (h : c.tEnLow = 500) : GapOver c (restReading w) := rest_gapOver c w .ready h

theorem not_constructs (c : Cfg) (st : St) (a : List Byte) : ¬ ConstructsNext (free c st a) := by
  rintro ⟨_, _, _, _, h⟩
  cases h

theorem not_sendsInner (c : Cfg) (st : St) (a : List Byte) : ¬ SendsInnerNext (free c st a) := by
  rintro ⟨_, _, _, _, h, _⟩
  cases h

/-- The state for every statement that asks for a free driver alone: `ControlLineFaults`, `RaiseRecordsAndStops`, `WaitLastsAtLeastItsArgument`,
`PulseEnableGuards`, `TransferAndSettleExpand`, `PublicTransferGuards`, `PollGuards`, `InitialiseGuards`, `BusWordsStartTheirCycle`,
`CommandByteRunsItsInitStep`, `CommandByteInReadyIsSent`. -/
theorem witness_Idle : Idle (free c4 St.init) ⟨c4, St.init⟩ ∧ (free c4 St.init).abortIn = none ∧ (free c4 St.init).inst = some ⟨c4, St.init⟩ :=
  ⟨⟨rfl, rfl, rfl⟩, rfl, rfl⟩

theorem witness_DecodeReadsBackEncode : wellFormed (.decode [.nibble 2#4, .nibble 8#4]) = true ∧ wellFormed (.construct c4) = true := by decide
theorem witness_DecodedCallIsItsEncoding : decode ⟨.operation, [0x0F#8, 0x41#8]⟩ = .ok (.sendData 0x41#8) := by decide
theorem witness_FourBitTraceReadsBackItsBytes : ((initFrames c4).take 4).length = 4 := by decide
theorem witness_CodecRoundTrip :
    (∃ t, exec (.decode [.nibble 0xF#4, .nibble 0#4]) (free c4 St.init) = .next t)
      ∧ ∃ t, exec (.decode [.byte 0xFF#8]) (free c8 St.init) = .next t := ⟨⟨_, rfl⟩, _, rfl⟩
theorem witness_CodecResults : (free c4 St.init).inst = some ⟨c4, St.init⟩ ∧ c4.width = .fourBit ∧ c8.width = .eightBit := by decide
/-- No frame, one nibble and three. -/
theorem witness_DecodeRefusedOutsideItsDomain :
    (∀ p ∈ ([] : List Pattern), p.width = c8.width) ∧ ([] : List Pattern).length ≠ 1
      ∧ (∀ p ∈ [Pattern.nibble 2#4], p.width = c4.width) ∧ [Pattern.nibble 2#4].length ≠ 2
      ∧ (∀ p ∈ [Pattern.nibble 2#4, .nibble 8#4, .nibble 0#4], p.width = c4.width)
      ∧ [Pattern.nibble 2#4, .nibble 8#4, .nibble 0#4].length ≠ 2 := by decide
theorem witness_FunctionSetByteTable : ({ c4 with rows := 1 } : Cfg).rows = 1 ∧ c4.rows = 2 := by decide
theorem witness_PatternBitsOnWiredLines : (3 : Fin 8) ∉ wiredLines .fourBit := by decide

theorem witness_ConstructLeavesResetValues :
    (free c4 St.init).cont = [] ∧ isPinMap c4.pins = true ∧ (c4.rows = 1 ∨ c4.rows = 2) ∧ ({ c4 with pollBound := some 1 } : Cfg).pollBound ≠ some 0
      ∧ (∀ x, x ∈ c4.pins.map (·.1) ↔ x ∈ [Signal.e, .rs, .rw] ++ (wiredLines c4.width).map .db) ∧ (c4.pins.map (·.2)).Nodup :=
  ⟨rfl, by decide, by decide, by decide, fun _ => Iff.rfl, by decide⟩
/-- X1 to X3 and rows 0 and 3. -/
theorem witness_ConstructRejectsBadConfiguration :
    (({ c4 with rows := 0 } : Cfg).rows ≠ 1 ∧ ({ c4 with rows := 3 } : Cfg).rows ≠ 2) ∧ ({ c4 with pollBound := some 0 } : Cfg).pollBound = some 0
      ∧ (Signal.db 0 ∈ (wiredLines c8.width).map Signal.db ∧ Signal.db 0 ∉ c4.pins.map (·.1))
      ∧ (isPinMap pins8 = true ∧ Signal.db 3 ∈ pins8.map (·.1) ∧ Signal.db 3 ∉ [Signal.e, .rs, .rw] ++ (wiredLines .fourBit).map .db)
      ∧ ¬ ([(Signal.rs, 4), (.db 5, 4)].map (·.2)).Nodup := by decide

/-- A half-sent byte with RS at its level; RW with the lines inputs, and as outputs with RW to 0. -/
theorem witness_ControlLineGetsItsLevel :
    Idle (free c4 { configured .fourBit with halfByte := true }) ⟨c4, { configured .fourBit with halfByte := true }⟩
      ∧ ({ configured .fourBit with halfByte := true } : St).rs = some false ∧ (configured .fourBit).e ≠ some true
      ∧ (inputs .fourBit).rw ≠ none ∧ (inputs .fourBit).dir = some .inputWithPullup := ⟨⟨rfl, rfl, rfl⟩, by decide⟩
theorem witness_EnableAtItsLevelHasNoEdge :
    (Idle (free c4 (configured .fourBit)) ⟨c4, configured .fourBit⟩ ∧ (configured .fourBit).e = some false)
      ∧ Idle (free c4 (reading .fourBit 15000000)) ⟨c4, reading .fourBit 15000000⟩ ∧ (reading .fourBit 15000000).e = some true :=
  ⟨⟨⟨rfl, rfl, rfl⟩, rfl⟩, ⟨rfl, rfl, rfl⟩, rfl⟩
/-- A read rise and a write rise, each the moment its times are over. -/
theorem witness_EnableRises :
    (Idle (free c4 (restReading .fourBit)) ⟨c4, restReading .fourBit⟩ ∧ (restReading .fourBit).e = some false
      ∧ GapOver c4 (restReading .fourBit) ∧ (restReading .fourBit).rw = some true)
    ∧ (Idle (free c4 (rest .fourBit .ready)) ⟨c4, rest .fourBit .ready⟩ ∧ GapOver c4 (rest .fourBit .ready)
      ∧ c4.tSetup ≤ (rest .fourBit .ready).now - (rest .fourBit .ready).mon.lastChange ∧ (rest .fourBit .ready).rw = some false
      ∧ (rest .fourBit .ready).dir = some .output ∧ Settled (rest .fourBit .ready)) :=
  ⟨⟨⟨rfl, rfl, rfl⟩, rfl, restReading_gapOver _ _ rfl, rfl⟩,
    ⟨rfl, rfl, rfl⟩, rest_gapOver _ _ _ rfl, by decide, rfl, by decide, rest_settled _ _⟩
/-- A pulse of exactly `T_PW_EN`. -/
theorem witness_WritePulseFallEmitsItsFrame :
    Idle (free c4 (pulsing .fourBit .innerNibble (.nibble 2#4) 15000500)) ⟨c4, pulsing .fourBit .innerNibble (.nibble 2#4) 15000500⟩
      ∧ (pulsing .fourBit .innerNibble (.nibble 2#4) 15000500).e = some true
      ∧ (pulsing .fourBit .innerNibble (.nibble 2#4) 15000500).mon.riseKind = some .write ∧ c4.tPwEn ≤ 15000500 - 15000000 :=
  ⟨⟨rfl, rfl, rfl⟩, rfl, rfl, by decide⟩
theorem witness_ReadPulseFallIsRecorded :
    Idle (free c4 (reading .fourBit 15000500)) ⟨c4, reading .fourBit 15000500⟩ ∧ (reading .fourBit 15000500).e = some true
      ∧ (reading .fourBit 15000500).mon.riseKind = some .read := ⟨⟨rfl, rfl, rfl⟩, rfl, rfl⟩
/-- Each clause's state: no line written; Enable high; a half byte; the lines outputs; the lines inputs with a write selected; `configureLines`
cut short after its first and after its third line; a write pulse with RS or the latch unwritten. -/
theorem witness_ControlLineFaults :
    St.init.e = none ∧ St.init.rs = none ∧ St.init.rw = none
      ∧ ((reading .fourBit 0).rs ≠ none ∧ (reading .fourBit 0).rw ≠ none ∧ (reading .fourBit 0).e = some true)
      ∧ (({ configured .fourBit with halfByte := true } : St).rs = some (!true) ∧ (configured .fourBit).e ≠ some true)
      ∧ ((configured .fourBit).rw ≠ none ∧ (configured .fourBit).dir = some .output)
      ∧ ((inputs .fourBit).e = some false ∧ (inputs .fourBit).rw = some false ∧ (inputs .fourBit).dir = some .inputWithPullup)
      ∧ (({ St.init with e := some false } : St).e = some false ∧ ({ St.init with e := some false } : St).rw = none)
      ∧ ({ configured .fourBit with dir := none } : St).e = some false ∧ ({ configured .fourBit with dir := none } : St).rw = some false
      ∧ ({ configured .fourBit with dir := none } : St).dir = none
      ∧ (({ pulsing .fourBit .innerNibble (.nibble 2#4) 0 with rs := none } : St).e = some true
        ∧ (pulsing .fourBit .innerNibble (.nibble 2#4) 0).mon.riseKind = some .write
        ∧ (pulsing .fourBit .innerNibble (.nibble 2#4) 0).rs ≠ none
        ∧ ({ pulsing .fourBit .innerNibble (.nibble 2#4) 0 with data := none } : St).data = none) := by decide
theorem witness_DataLinesGetTheirPattern :
    Idle (free c4 (configured .fourBit)) ⟨c4, configured .fourBit⟩ ∧ (Pattern.nibble 15#4).width = c4.width
      ∧ ((configured .fourBit).dir = some .output ∧ (configured .fourBit).e ≠ some true) ∧ St.init.dir = none
      ∧ ((reading .fourBit 0).dir ≠ none ∧ (reading .fourBit 0).e = some true)
      ∧ (inputs .fourBit).dir = some .inputWithPullup ∧ (inputs .fourBit).e ≠ some true := ⟨⟨rfl, rfl, rfl⟩, by decide⟩
theorem witness_DataDirectionChanges :
    Idle (free c4 (inputs .fourBit)) ⟨c4, inputs .fourBit⟩ ∧ (inputs .fourBit).dir = some .inputWithPullup ∧ (inputs .fourBit).dir ≠ some .output
      ∧ (inputs .fourBit).rw ≠ some true ∧ (configured .fourBit).dir ≠ some .inputWithPullup ∧ (configured .fourBit).e ≠ some true
      ∧ St.init.dir = none ∧ (reading .fourBit 0).e = some true
      ∧ (restReading .fourBit).e ≠ some true ∧ (restReading .fourBit).rw = some true := ⟨⟨rfl, rfl, rfl⟩, by decide⟩
/-- The hold is over exactly now, and one nanosecond before; an unwritten line; a line that is no read's. -/
theorem witness_SampleReadsTheDevice :
    Idle (free c4 (reading .fourBit 15000500) [0xFF#8]) ⟨c4, reading .fourBit 15000500⟩
      ∧ ((reading .fourBit 0).dir = some .inputWithPullup ∧ (reading .fourBit 0).rw = some true ∧ (reading .fourBit 0).e = some true
        ∧ (reading .fourBit 0).rs = some false ∧ (reading .fourBit 0).mon.riseAt = some 15000000)
      ∧ c4.tPollHigh ≤ 15000500 - 15000000 ∧ 15000499 - 15000000 < c4.tPollHigh ∧ St.init.dir = none
      ∧ ((configured .fourBit).dir ≠ none ∧ (configured .fourBit).rs ≠ none ∧ (configured .fourBit).e ≠ none
        ∧ (configured .fourBit).rw ≠ some true) := ⟨⟨rfl, rfl, rfl⟩, by decide⟩
/-- A new instance; in the middle of a byte with RS high; Enable high. -/
theorem witness_ConfigureLinesDrivesAllLow :
    (Idle (free c4 { configured .fourBit with halfByte := true, rs := some true })
        ⟨c4, { configured .fourBit with halfByte := true, rs := some true }⟩
      ∧ (configured .fourBit).e ≠ some true)
    ∧ Idle (free c4 St.init) ⟨c4, St.init⟩ ∧ (free c4 St.init).abortIn = none ∧ St.init.e ≠ some true
      ∧ Idle (free c4 (reading .fourBit 0)) ⟨c4, reading .fourBit 0⟩ ∧ (reading .fourBit 0).e = some true :=
  ⟨⟨⟨rfl, rfl, rfl⟩, by decide⟩, ⟨rfl, rfl, rfl⟩, rfl, by decide, ⟨rfl, rfl, rfl⟩, rfl⟩
theorem witness_PulseEnableGuards :
    St.init.e = none ∧ ((reading .fourBit 0).e = some true ∧ (reading .fourBit 0).rw ≠ none ∧ (reading .fourBit 0).dir ≠ none)
      ∧ ((restReading .fourBit).e = some false ∧ (restReading .fourBit).rw = some true ∧ (restReading .fourBit).dir ≠ none)
      ∧ (configured .fourBit).e = some false ∧ (configured .fourBit).rw = some false ∧ (configured .fourBit).dir ≠ none := by decide
/-- `PulseEnableReturnsEnableLow` and `WriteFrameStrobesItsPattern`: every time is over exactly now, the pulse is `T_PW_EN` long; at rest, and in
the middle of a byte. -/
theorem witness_PulseEnableReturnsEnableLow :
    Idle (free c4 (rest .fourBit .ready)) ⟨c4, rest .fourBit .ready⟩ ∧ (free c4 (rest .fourBit .ready)).abortIn = none
      ∧ Resting (rest .fourBit .ready) ∧ (rest .fourBit .ready).rs = some false ∧ (rest .fourBit .ready).data = some (.nibble 0#4)
      ∧ GapOver c4 (rest .fourBit .ready) ∧ c4.tSetup ≤ (rest .fourBit .ready).now - (rest .fourBit .ready).mon.lastChange
      ∧ Settled (rest .fourBit .ready) ∧ c4.tPwEn ≤ 500 :=
  ⟨⟨rfl, rfl, rfl⟩, rfl, rest_resting _ _, rfl, rfl, rest_gapOver _ _ _ rfl, by decide, rest_settled _ _, by decide⟩
theorem witness_WriteFrameStrobesItsPattern :
    Idle (free c4 midByte) ⟨c4, midByte⟩ ∧ (Pattern.nibble 1#4).width = c4.width ∧ midByte.e = some false ∧ midByte.rw = some false
      ∧ midByte.dir = some .output ∧ midByte.rs = some false ∧ midByte.halfByte = true ∧ GapOver c4 midByte ∧ Settled midByte :=
  ⟨⟨rfl, rfl, rfl⟩, rfl, rfl, rfl, rfl, rfl, rfl, midByte_gapOver, trivial⟩
/-- The phases of the three clauses, and bytes on both sides of the width guard under FourBit: 0x30 and 0x2F. -/
theorem witness_PublicTransferGuards :
    (rest .fourBit .ready).phase = .ready
      ∧ ((0x30#8).extractLsb' 5 3 = 0b001#3 ∧ (0x30#8).getLsbD 4 ≠ decide (c4.width = .eightBit))
      ∧ ¬ ((0x2F#8).extractLsb' 5 3 = 0b001#3 ∧ (0x2F#8).getLsbD 4 ≠ decide (c4.width = .eightBit))
      ∧ (rest .fourBit (.failed .busyFlagTimeout)).phase = .failed .busyFlagTimeout ∧ (rest .fourBit .aborted).phase = .aborted
      ∧ ((rest .fourBit .entryModeSetting).phase ≠ .aborted ∧ (rest .fourBit .entryModeSetting).phase ≠ .ready) := by decide
theorem witness_FixedDelayTransferSendsItsByte :
    Idle (free { c4 with strategy := .fixedDelay } (rest .fourBit .ready)) ⟨{ c4 with strategy := .fixedDelay }, rest .fourBit .ready⟩
      ∧ (rest .fourBit .ready).phase = .ready ∧ Resting (rest .fourBit .ready) ∧ (rest .fourBit .ready).rs ≠ none
      ∧ GapOver { c4 with strategy := .fixedDelay } (rest .fourBit .ready) ∧ Settled (rest .fourBit .ready)
      ∧ ¬ ((0x2F#8).extractLsb' 5 3 = 0b001#3 ∧ (0x2F#8).getLsbD 4 ≠ decide (c4.width = .eightBit)) :=
  ⟨⟨rfl, rfl, rfl⟩, rfl, rest_resting _ _, by decide, rest_gapOver _ _ _ rfl, rest_settled _ _, by decide⟩
/-- Two busy iterations with the bound 3. -/
theorem witness_BusyPollTransferSendsItsByte :
    Idle (free { c4 with pollBound := some 3 } (rest .fourBit .ready) [0xFF#8, 0x7F#8, 0x81#8, 0xFF#8, 0x7F#8, 0xFF#8])
        ⟨{ c4 with pollBound := some 3 }, rest .fourBit .ready⟩
      ∧ c4.strategy = .busyPoll ∧ Resting (rest .fourBit .ready) ∧ (rest .fourBit .ready).rs ≠ none
      ∧ GapOver { c4 with pollBound := some 3 } (rest .fourBit .ready) ∧ Settled (rest .fourBit .ready)
      ∧ (∀ n, ({ c4 with pollBound := some 3 } : Cfg).pollBound = some n → 2 < n)
      ∧ BusyThenReady c4.width 2 [0xFF#8, 0x7F#8, 0x81#8, 0xFF#8, 0x7F#8, 0xFF#8] :=
  ⟨⟨rfl, rfl, rfl⟩, rfl, rest_resting _ _, by decide, rest_gapOver _ _ _ rfl, rest_settled _ _,
    fun n h => by cases h; decide, busy_twice⟩
theorem witness_PollGuards :
    (rest .fourBit (.failed .busyFlagTimeout)).phase = .failed .busyFlagTimeout ∧ St.init.phase = .poweringUp
      ∧ (rest .fourBit .modeSelecting).phase = .modeSelecting ∧ (rest .fourBit .functionSetting).phase = .functionSetting := by decide
theorem witness_PollIterationReturnsTheBusyFlag :
    Idle (free c4 (restReading .fourBit) [0x80#8, 0x00#8]) ⟨c4, restReading .fourBit⟩ ∧ (restReading .fourBit).e = some false
      ∧ (restReading .fourBit).rw = some true ∧ (restReading .fourBit).dir = some .inputWithPullup ∧ (restReading .fourBit).rs = some false
      ∧ GapOver c4 (restReading .fourBit) ∧ c4.tSetup ≤ (restReading .fourBit).now - (restReading .fourBit).mon.lastChange :=
  ⟨⟨rfl, rfl, rfl⟩, rfl, rfl, rfl, rfl, restReading_gapOver _ _ rfl, by decide⟩
theorem witness_PollEndsAfterTheBusyIterations :
    Idle (free c8 (rest .eightBit .functionSetting) [0xFF#8, 0x7F#8]) ⟨c8, rest .eightBit .functionSetting⟩
      ∧ Resting (rest .eightBit .functionSetting) ∧ (rest .eightBit .functionSetting).rs ≠ none ∧ GapOver c8 (rest .eightBit .functionSetting)
      ∧ (rest .eightBit .functionSetting).phase.pollUsable = true ∧ (rest .eightBit .functionSetting).phase.dead = false
      ∧ BusyThenReady c8.width 1 [0xFF#8, 0x7F#8] ∧ ∀ n, c8.pollBound = some n → 1 < n :=
  ⟨⟨rfl, rfl, rfl⟩, rest_resting _ _, by decide, rest_gapOver _ _ _ rfl, rfl, rfl, busy_once, fun _ h => by cases h⟩
/-- The bound 2, in Ready: `waitUntilReady` and the transfers; `initialize` at its third transfer. -/
theorem witness_BoundedPollTimesOut :
    Idle (free { c4 with pollBound := some 2 } (rest .fourBit .ready) [0xFF#8, 0x7F#8, 0x81#8, 0xFF#8])
        ⟨{ c4 with pollBound := some 2 }, rest .fourBit .ready⟩
      ∧ BusyAnswers c4.width 2 [0xFF#8, 0x7F#8, 0x81#8, 0xFF#8]
      ∧ (rest .fourBit .ready).phase.pollUsable = true ∧ (rest .fourBit .ready).phase.dead = false ∧ Resting (rest .fourBit .ready)
      ∧ (rest .fourBit .ready).rs ≠ none ∧ GapOver { c4 with pollBound := some 2 } (rest .fourBit .ready)
      ∧ (rest .fourBit .ready).phase = .ready ∧ c4.strategy = .busyPoll ∧ Settled (rest .fourBit .ready)
      ∧ ¬ ((0x2F#8).extractLsb' 5 3 = 0b001#3 ∧ (0x2F#8).getLsbD 4 ≠ decide (c4.width = .eightBit))
      ∧ (Idle (free { c4 with pollBound := some 2 } St.init
            ([[0x7F#8, 0xFF#8], [0x7F#8, 0xFF#8]].flatten ++ [0xFF#8, 0x7F#8, 0x81#8, 0xFF#8] ++ []))
          ⟨{ c4 with pollBound := some 2 }, { St.init with now := 0 }⟩
        ∧ [0, 0].length < 4 ∧ (∀ k ∈ [0, 0], k < 2)
        ∧ List.Forall₂ (BusyThenReady c4.width) [0, 0] [[0x7F#8, 0xFF#8], [0x7F#8, 0xFF#8]]) :=
  ⟨⟨rfl, rfl, rfl⟩, stays_busy, rfl, rfl, rest_resting _ _, by decide, rest_gapOver _ _ _ rfl, rfl, rfl, rest_settled _ _, by decide,
    ⟨rfl, rfl, rfl⟩, by decide, by decide, .cons ready_at_once (.cons ready_at_once .nil)⟩
/-- A state as the last clause asks for. -/
theorem witness_TimedOut :
    TimedOut { free { c4 with pollBound := some 1 } { rest .fourBit (.failed .busyFlagTimeout) with
        result := some .busyFlagTimeout, pollIter := 1, lastBF := some true } with ret := .outcome .busyFlagTimeout }
      ⟨{ c4 with pollBound := some 1 }, { rest .fourBit (.failed .busyFlagTimeout) with
        result := some .busyFlagTimeout, pollIter := 1, lastBF := some true }⟩ 1 :=
  ⟨⟨rfl, rfl, rfl⟩, rfl, rfl, rfl, rfl, rfl, ⟨rfl, rfl, rfl, rfl⟩, rfl⟩
theorem witness_UnboundedPollKeepsPolling :
    Idle (free c4 (rest .fourBit .ready) [0xFF#8, 0x7F#8, 0x81#8, 0xFF#8]) ⟨c4, rest .fourBit .ready⟩ ∧ Resting (rest .fourBit .ready)
      ∧ (rest .fourBit .ready).rs ≠ none ∧ GapOver c4 (rest .fourBit .ready) ∧ (rest .fourBit .ready).phase.pollUsable = true
      ∧ (rest .fourBit .ready).phase.dead = false ∧ c4.pollBound = none ∧ BusyAnswers c4.width 2 [0xFF#8, 0x7F#8, 0x81#8, 0xFF#8] :=
  ⟨⟨rfl, rfl, rfl⟩, rest_resting _ _, by decide, rest_gapOver _ _ _ rfl, rfl, rfl, rfl, stays_busy⟩
theorem witness_InitialiseGuards :
    (rest .fourBit .aborted).phase = .aborted ∧ ((rest .fourBit .ready).phase ≠ .aborted ∧ (rest .fourBit .ready).phase ≠ .poweringUp)
      ∧ St.init.phase = .poweringUp := by decide
/-- A new instance; under BusyPoll a device busy twice, never, never and twice, with the bound 3. -/
theorem witness_InitialiseCompletes :
    Idle (free { c4 with strategy := .fixedDelay } St.init) ⟨{ c4 with strategy := .fixedDelay }, St.init⟩
      ∧ ({ c4 with strategy := .fixedDelay } : Cfg).strategy = .fixedDelay ∧ St.init = { St.init with now := 0 }
      ∧ c4.strategy = .busyPoll ∧ (2 < 3 ∧ 0 < 3)
      ∧ ∃ ls, List.Forall₂ (BusyThenReady c4.width) [2, 0, 0, 2] ls
        ∧ Idle (free { c4 with pollBound := some 3 } St.init ls.flatten) ⟨{ c4 with pollBound := some 3 }, St.init⟩ :=
  ⟨⟨rfl, rfl, rfl⟩, rfl, rfl, rfl, by decide, _,
    .cons busy_twice (.cons ready_at_once (.cons ready_at_once (.cons busy_twice .nil))), ⟨rfl, rfl, rfl⟩⟩
theorem witness_AbortStartsItsPath :
    (rest .fourBit .aborted).phase = .aborted ∧ ((rest .fourBit .ready).phase ≠ .aborted ∧ (rest .fourBit .ready).faults = [])
      ∧ (free c4 (rest .fourBit .ready)).caller ≠ .abortPath
      ∧ ({ free c4 (rest .fourBit .ready) with caller := .abortPath, cont := abortSteps } : State).cont ≠ [] := by decide
/-- Mid-pulse, in the middle of an operation; in a read. -/
theorem witness_AbortRestoresTheBus :
    ({ free c4 (pulsing .fourBit .innerNibble (.nibble 2#4) 15000000) with abortIn := some 0, cont := [.delay 500, .line .e false] } : State).abortIn
        = some 0
      ∧ (pulsing .fourBit .innerNibble (.nibble 2#4) 15000000).faults = []
      ∧ (pulsing .fourBit .innerNibble (.nibble 2#4) 15000000).phase.dead = false
      ∧ ({ free c4 (pulsing .fourBit .innerNibble (.nibble 2#4) 15000000) with
          abortIn := some 0, cont := [.delay 500, .line .e false] } : State).caller ≠ .abortPath
      ∧ (reading .fourBit 15000000).dir = some .inputWithPullup ∧ (reading .fourBit 15000000).phase.dead = false := by decide
theorem witness_BusWordsStartTheirCycle :
    Idle (free c8 (configured .eightBit)) ⟨c8, configured .eightBit⟩ ∧ c8.width = .eightBit
      ∧ Idle (free c4 (configured .fourBit)) ⟨c4, configured .fourBit⟩ ∧ c4.width = .fourBit := ⟨⟨rfl, rfl, rfl⟩, rfl, ⟨rfl, rfl, rfl⟩, rfl⟩
/-- At rest; in the middle of a byte, the lower nibble of an instruction word after the first upper nibble. -/
theorem witness_WriteWordPutsItselfOnTheBus :
    (Idle (free c4 (rest .fourBit .ready)) ⟨c4, rest .fourBit .ready⟩ ∧ (Pattern.nibble 4#4).width = c4.width ∧ Resting (rest .fourBit .ready)
      ∧ (rest .fourBit .ready).rs ≠ none ∧ GapOver c4 (rest .fourBit .ready) ∧ Settled (rest .fourBit .ready))
    ∧ Idle (free c4 midByte) ⟨c4, midByte⟩ ∧ midByte.e = some false ∧ midByte.rw ≠ none ∧ midByte.dir = some .output
      ∧ (midByte.halfByte = true ∧ midByte.rs = some (Kind.instruction == .data)) ∧ GapOver c4 midByte ∧ Settled midByte
      ∧ (writeFrames midByte.trace).getLast? = some (false, .nibble 4#4) :=
  ⟨⟨⟨rfl, rfl, rfl⟩, rfl, rest_resting _ _, by decide, rest_gapOver _ _ _ rfl, rest_settled _ _⟩,
    ⟨rfl, rfl, rfl⟩, rfl, by decide, rfl, ⟨rfl, rfl⟩, midByte_gapOver, trivial, rfl⟩
theorem witness_ReadWordPutsItselfOnTheBus :
    Idle (free c8 (restReading .eightBit)) ⟨c8, restReading .eightBit⟩ ∧ (Pattern.byte 0x80#8).width = c8.width
      ∧ (restReading .eightBit).e = some false ∧ (restReading .eightBit).rw ≠ none ∧ (restReading .eightBit).rs ≠ none
      ∧ (restReading .eightBit).dir = some .inputWithPullup ∧ (restReading .eightBit).halfByte = false ∧ GapOver c8 (restReading .eightBit) :=
  ⟨⟨rfl, rfl, rfl⟩, rfl, rfl, by decide, by decide, rfl, rfl, restReading_gapOver _ _ rfl⟩
theorem witness_WrongWidthRefused : (Pattern.byte 0x12#8).width ≠ c4.width ∧ (Pattern.nibble 2#4).width ≠ c8.width := by decide
theorem witness_CommandByteRunsItsInitStep :
    Idle (free c4 (rest .fourBit .functionSetting)) ⟨c4, rest .fourBit .functionSetting⟩ ∧ functionSetByte false true false 0#2 = fsByte c4
      ∧ (rest .fourBit (.blindInit .third)).phase = .blindInit .third ∧ (rest .fourBit .modeSelecting).phase = .modeSelecting
      ∧ (rest .fourBit .clearing).phase = .clearing ∧ (rest .fourBit .displayConfiguring).phase = .displayConfiguring
      ∧ (rest .fourBit .entryModeSetting).phase = .entryModeSetting := ⟨⟨rfl, rfl, rfl⟩, by decide⟩
/-- Ready, with a configured byte on each side of the width guard; a phase foreign to every command byte; dead phases. -/
theorem witness_CommandByteInReadyIsSent :
    Idle (free c4 (rest .fourBit .ready)) ⟨c4, rest .fourBit .ready⟩ ∧ (rest .fourBit .ready).phase = .ready
      ∧ ¬ (c4.displayOffByte.extractLsb' 5 3 = 0b001#3 ∧ c4.displayOffByte.getLsbD 4 ≠ decide (c4.width = .eightBit))
      ∧ (({ c4 with entryModeByte := 0x30#8 } : Cfg).entryModeByte.extractLsb' 5 3 = 0b001#3
        ∧ ({ c4 with entryModeByte := 0x30#8 } : Cfg).entryModeByte.getLsbD 4 ≠ decide (c4.width = .eightBit))
      ∧ c4.width = .fourBit ∧ c8.width = .eightBit
      ∧ Idle (free c4 St.init) ⟨c4, St.init⟩
      ∧ ((∀ o, St.init.phase ≠ .failed o) ∧ St.init.phase ≠ .aborted ∧ St.init.phase ≠ .ready ∧ (∀ k, St.init.phase ≠ .blindInit k)
        ∧ St.init.phase ≠ .modeSelecting ∧ St.init.phase ≠ .functionSetting ∧ St.init.phase ≠ .clearing
        ∧ St.init.phase ≠ .displayConfiguring ∧ St.init.phase ≠ .entryModeSetting)
      ∧ Idle (free c4 (rest .fourBit .aborted)) ⟨c4, rest .fourBit .aborted⟩ ∧ (rest .fourBit .aborted).phase = .aborted :=
  ⟨⟨rfl, rfl, rfl⟩, rfl, by decide, by decide, rfl, rfl, ⟨rfl, rfl, rfl⟩,
    ⟨fun o h => (by cases h), by decide, by decide, fun k h => (by cases h), by decide, by decide, by decide, by decide, by decide⟩,
    ⟨rfl, rfl, rfl⟩, rfl⟩
/-- Each clause one nanosecond before its time is over; TC-LOW also after a blind attempt whose own gap of 0 is over. -/
theorem witness_RiseChecksInOrder :
    (Idle (free c4 { configured .fourBit with now := 14999999 }) ⟨c4, { configured .fourBit with now := 14999999 }⟩
      ∧ (configured .fourBit).e = some false ∧ ((configured .fourBit).rw = some false ∧ (configured .fourBit).dir = some .output)
      ∧ (configured .fourBit).mon.anyRise = false ∧ 14999999 < c4.tPower)
    ∧ 4099999 - 0 < c4.tBlind1 ∧ 99999 - 0 < c4.tBlind2 ∧ 40999 - 0 < c4.tBlind3 ∧ 40999 - 0 < c4.tMode
    ∧ (499 - 0 < c4.tPollLow ∧ 499 - 0 < c4.tEnLow) ∧ (FallTag.read ≠ .modeSel ∧ ∀ k, FallTag.read ≠ .blind k)
    ∧ (({ c4 with tBlind1 := 0 } : Cfg).tBlind1 ≤ 499 - 0 ∧ 499 - 0 < ({ c4 with tBlind1 := 0 } : Cfg).tEnLow ∧ FallTag.blind .first ≠ .read)
    ∧ ((∀ tf tag, (rest .fourBit .ready).mon.lastFall = some (tf, tag) → gap c4 tag ≤ (rest .fourBit .ready).now - tf)
      ∧ (rest .fourBit .ready).now - (rest .fourBit .ready).mon.lastChange < ({ c4 with tSetup := 1 } : Cfg).tSetup
      ∧ c4.tSetup ≤ (rest .fourBit .ready).now - (rest .fourBit .ready).mon.lastChange ∧ (rest .fourBit .ready).rw ≠ some true
      ∧ ({ rest .fourBit .ready with now := 19999999 } : St).now < 20000000) :=
  ⟨⟨⟨rfl, rfl, rfl⟩, by decide⟩, by decide, by decide, by decide, by decide, by decide, ⟨by decide, fun k => by cases k <;> decide⟩,
    by decide, (rest_gapOver c4 .fourBit .ready rfl).2, by decide⟩
theorem witness_ShortPulseIsViolation :
    Idle (free c4 (pulsing .fourBit .innerNibble (.nibble 0#4) 15000499)) ⟨c4, pulsing .fourBit .innerNibble (.nibble 0#4) 15000499⟩
      ∧ (pulsing .fourBit .innerNibble (.nibble 0#4) 0).rs ≠ none ∧ (pulsing .fourBit .innerNibble (.nibble 0#4) 0).data ≠ none
      ∧ 15000499 - 15000000 < c4.tPwEn := ⟨⟨rfl, rfl, rfl⟩, by decide⟩
theorem witness_StepRunsTheDecodedCall :
    ({ free c4 St.init with calls := [⟨.operation, [0x12#8]⟩] } : State).abortIn ≠ some 0 ∧ decode ⟨.operation, [0x12#8]⟩ = .ok .initialise
      ∧ decode ⟨.operation, [0x14#8]⟩ = .error .unknownOperation := by decide
theorem witness_FetchWordRunsNext : decodeTableWord 8 0x12 = some .initialise ∧ decodeTableWord 16 0x241 = some (.dw8 0x41#8) := by decide
theorem witness_StepTakesTheNextAction :
    (free c4 St.init).inst = some ⟨c4, St.init⟩ ∧ St.init.faults = []
      ∧ ({ free c4 St.init with abortIn := some 1, cont := [.configE] } : State).abortIn ≠ some 0
      ∧ ({ free c4 St.init with abortIn := some 0 } : State).abortIn = some 0 := by decide

/-- The invariant's statement and the four on whole steps: a state in the middle of a write pulse that makes a step, and a free driver under
EightBit whose host waits. -/
theorem witness_StepKeepsInv :
    (NeverHalf (free c8 (rest .eightBit .ready)) ∧ ¬ SendsInnerNext (free c8 (rest .eightBit .ready))
      ∧ ∃ t, step (free c8 (rest .eightBit .ready)) = .next t)
    ∧ Inv { free c4 (pulsing .fourBit .innerNibble (.nibble 2#4) 15000500) with cont := [.line .e false] }
      ∧ ∃ t, step { free c4 (pulsing .fourBit .innerNibble (.nibble 2#4) 15000500) with cont := [.line .e false] } = .next t := by
  refine ⟨⟨fun m h _ => ?_, not_sendsInner _ _ _, _, rfl⟩, fun m h => ?_, _, rfl⟩
  · cases h; decide
  cases h
  refine ⟨fun h => (by cases h.2), ⟨fun p h => (by cases h; rfl), by decide⟩, ⟨by decide, by decide⟩,
    ⟨fun t h => (by cases h; decide), fun _ _ h => (by cases h), by decide, by decide⟩, fun o h => (by cases h),
    ⟨.inr (by decide), fun h => (by cases h), fun h => (by cases h)⟩, by unfold PollKept; decide, by decide⟩
theorem witness_PhaseMovesOnlyAsTheTableSays :
    (∃ t, step (free c4 (pulsing .fourBit .innerNibble (.nibble 2#4) 15000500)) = .next t)
      ∧ ¬ ConstructsNext (free c4 (pulsing .fourBit .innerNibble (.nibble 2#4) 15000500))
      ∧ (pulsing .fourBit .innerNibble (.nibble 2#4) 15000500).e = some true := ⟨⟨_, rfl⟩, not_constructs _ _ _, rfl⟩
theorem witness_HistoryOnlyGrows :
    (∃ t, step (free c4 (rest .fourBit .ready)) = .next t) ∧ ¬ ConstructsNext (free c4 (rest .fourBit .ready)) :=
  ⟨⟨_, rfl⟩, not_constructs _ _ _⟩
theorem witness_FaultedInstanceIsStuck :
    ({ St.init with faults := [.notReady] } : St).faults ≠ [] ∧ (∃ t, step (free c4 { St.init with faults := [.notReady] }) = .next t)
      ∧ ¬ ConstructsNext (free c4 { St.init with faults := [.notReady] }) := ⟨by decide, ⟨_, rfl⟩, not_constructs _ _ _⟩
theorem witness_LinesStableWhileEnableHigh :
    Inv (free c4 (pulsing .fourBit .innerNibble (.nibble 2#4) 15000500))
      ∧ (∃ t, step (free c4 (pulsing .fourBit .innerNibble (.nibble 2#4) 15000500)) = .next t)
      ∧ (pulsing .fourBit .innerNibble (.nibble 2#4) 15000500).e = some true
      ∧ ¬ ConstructsNext (free c4 (pulsing .fourBit .innerNibble (.nibble 2#4) 15000500)) := by
  refine ⟨fun m h => ?_, ⟨_, rfl⟩, rfl, not_constructs _ _ _⟩
  cases h
  refine ⟨fun h => (by cases h.2), ⟨fun p h => (by cases h; rfl), by decide⟩, ⟨by decide, by decide⟩,
    ⟨fun t h => (by cases h; decide), fun _ _ h => (by cases h), by decide, by decide⟩, fun o h => (by cases h),
    ⟨.inr (by decide), fun h => (by cases h), fun h => (by cases h)⟩, by unfold PollKept; decide, by decide⟩
theorem witness_ReentrantCallRefused :
    (free c4 St.init).inst = some ⟨c4, St.init⟩ ∧ ({ free c4 St.init with cont := [.delay 500] } : State).cont ≠ []
      ∧ Instr.sample ∈ [Instr.configureLines, .sample] ∧ (Pattern.nibble 2#4).width = c4.width := by decide

end Sys2Proof.Tests
end

section
/-! PROOFS. Scope (00_scope.md): a step of a busy driver takes its next action, every step keeps the invariant, and no step takes history
back. What one action does to `St` and to the continuation is said here once, by cases on the action; the steps follow from it. -/

namespace Sys2Proof.Machine

/-! ### A busy driver -/

/-- Settles O53: the second clause is `step_act`. -/
theorem stepTakesTheNextAction : Obligations.StepTakesTheNextAction := by
  unfold Obligations.StepTakesTheNextAction
  intro s m hm hf
  exact ⟨fun ha => by simp [step, State.abortNow, ha], fun a rest ha hc => step_act hm hf ha hc⟩

/-! ### The part of the invariant that speaks of `St` alone -/

/-- The clauses of `Inv` on `St`, under the width `w`. -/
structure St.Sound (w : Width) (s : St) : Prop where
  noContention : ¬ Contention s
  width : WidthKept w s
  edge : EdgeKept s
  clock : ClockKept s
  legal : PhaseLegal s

theorem St.Sound.initial (w : Width) : St.init.Sound w where
  noContention := by simp [Contention, St.init]
  width := by simp [WidthKept, St.init]
  edge := by simp [EdgeKept, St.init, Monitor.init]
  clock := by simp [ClockKept, St.init, Monitor.init]
  legal := by simp [PhaseLegal, St.init]

section Sound

variable {w : Width} {s : St}

/-- Time may pass. -/
theorem St.Sound.later (h : s.Sound w) (δ : Nat) : St.Sound w { s with now := s.now + δ } where
  noContention := h.noContention
  width := h.width
  edge := h.edge
  clock :=
    let ⟨hrise, hfall, hchange, htrace⟩ := h.clock
    ⟨fun t ht => Nat.le_add_right_of_le (hrise t ht), fun t tag ht => Nat.le_add_right_of_le (hfall t tag ht),
      Nat.le_add_right_of_le hchange, fun ev hev => Nat.le_add_right_of_le (htrace ev hev)⟩
  legal := h.legal

/-- Events of now may be recorded. -/
theorem St.Sound.record (h : s.Sound w) {evs : List Event} (hev : ∀ ev ∈ evs, ev.fits w = true ∧ ev.time = s.now) :
    St.Sound w { s with trace := s.trace ++ evs } where
  noContention := h.noContention
  width := ⟨h.width.1, fun ev hm => (List.mem_append.1 hm).elim (h.width.2 ev) fun hm => (hev ev hm).1⟩
  edge := h.edge
  clock :=
    let ⟨hrise, hfall, hchange, htrace⟩ := h.clock
    ⟨hrise, hfall, hchange, fun ev hm => (List.mem_append.1 hm).elim (htrace ev) fun hm => (hev ev hm).2.le⟩
  legal := h.legal

/-- The data latch may take a pattern of the configured width. -/
theorem St.Sound.latch (h : s.Sound w) {p : Pattern} (hp : p.width = w) : St.Sound w { s with data := some p } where
  noContention := h.noContention
  width := ⟨fun q hq => by cases hq; exact hp, h.width.2⟩
  edge := h.edge
  clock := h.clock
  legal := h.legal

/-- The direction may change where it makes no contention. -/
theorem St.Sound.turn (h : s.Sound w) {d : Dir} (hd : d = .output → s.rw ≠ some true) : St.Sound w { s with dir := some d } where
  noContention hc := hd (Option.some.inj hc.1) hc.2
  width := h.width
  edge := h.edge
  clock := h.clock
  legal := h.legal

/-- RW may change where it makes no contention. -/
theorem St.Sound.readWrite (h : s.Sound w) {v : Bit} (hv : v = true → s.dir ≠ some .output) : St.Sound w { s with rw := some v } where
  noContention hc := hv (Option.some.inj hc.2) hc.1
  width := h.width
  edge := h.edge
  clock := h.clock
  legal := h.legal

/-- A line change may be noted now. -/
theorem St.Sound.changed (h : s.Sound w) : St.Sound w { s with mon := { s.mon with lastChange := s.now } } where
  noContention := h.noContention
  width := h.width
  edge := h.edge
  clock := ⟨h.clock.1, h.clock.2.1, Nat.le_refl _, h.clock.2.2.2⟩
  legal := h.legal

/-- Enable may be driven low where it is not high: no edge. -/
theorem St.Sound.stayLow (h : s.Sound w) (he : s.e ≠ some true) : St.Sound w { s with e := some false } where
  noContention := h.noContention
  width := h.width
  edge := by
    obtain ⟨hat, hkind⟩ := h.edge
    exact ⟨by simpa [he] using hat, by simpa [he] using hkind⟩
  clock := h.clock
  legal := h.legal

theorem St.Sound.rise (h : s.Sound w) : s.rise.Sound w where
  noContention := h.noContention
  width := h.width
  edge := by simp [EdgeKept]
  clock := ⟨fun t ht => by cases ht; exact Nat.le_refl _, h.clock.2⟩
  legal := h.legal

/-- A falling edge now, whatever its tag, its event and what it leaves of `halfByte` and the settle obligation. -/
theorem St.Sound.lower (h : s.Sound w) {half : Bool} {evs : List Event} {tag : FallTag} {q : SettleReq}
    (hev : ∀ ev ∈ evs, ev.fits w = true ∧ ev.time = s.now) :
    St.Sound w { s with
      e := some false
      halfByte := half
      trace := s.trace ++ evs
      mon := { s.mon with lastFall := some (s.now, tag), riseAt := none, riseKind := none, settle := q } } where
  noContention := h.noContention
  width := (h.record hev).width
  edge := by simp [EdgeKept]
  clock :=
    let ⟨_, _, hchange, htrace⟩ := (h.record hev).clock
    ⟨nofun, fun t _ ht => by cases ht; exact Nat.le_refl _, hchange, htrace⟩
  legal := h.legal

/-- The event of a write pulse has the latch's width and the present time. -/
theorem pulseEvent_fits (hw : ∀ p, s.data = some p → p.width = w) : ∀ ev ∈ s.pulseEvent, ev.fits w = true ∧ ev.time = s.now := by
  intro ev hev
  unfold St.pulseEvent at hev
  split at hev
  · cases List.mem_singleton.1 hev
    exact ⟨by simpa [Event.fits] using hw _ ‹s.data = _›, rfl⟩
  · cases hev

theorem St.Sound.fall (h : s.Sound w) (c : Cfg) : (s.fall c).Sound w := by
  unfold St.fall
  split
  · exact h.lower (pulseEvent_fits h.width.1)
  · simpa using h.lower (evs := []) (fun _ hev => nomatch hev)

theorem St.Sound.abortEnable (h : s.Sound w) : s.abortEnable.Sound w := by
  unfold St.abortEnable
  split
  · split
    · exact h.lower (pulseEvent_fits h.width.1)
    · simpa using h.lower (evs := []) (fun _ hev => nomatch hev)
  · exact h

theorem St.Sound.abortReadWrite (h : s.Sound w) : s.abortReadWrite.Sound w := by
  unfold St.abortReadWrite
  split
  · exact h.readWrite nofun
  · exact h

theorem St.Sound.abortDirection (h : s.Sound w) {x : Pattern} (hx : x.width = w) (hr : s.rw ≠ some true) :
    (s.abortDirection x).Sound w := by
  unfold St.abortDirection
  split
  · exact ((h.latch hx).turn fun _ => hr).record (by simp [Event.fits, Event.time])
  · exact h

theorem St.Sound.directionEffect (h : s.Sound w) {d : Dir} {x : Pattern} (hx : x.width = w) (hf : directionFault d s = none) :
    (directionEffect d x s).Sound w := by
  have hd : d = .output → s.rw ≠ some true := by
    rintro rfl hr
    simp [directionFault, hr, ite_eq_iff] at hf
  unfold Machine.directionEffect
  split
  · exact h
  · have hev : ∀ ev ∈ [Event.dirChange d s.now], ev.fits w = true ∧ ev.time = s.now := by simp [Event.fits, Event.time]
    by_cases ho : d = .output
    · simpa [ho] using ((h.latch hx).turn hd).record hev
    · simpa [ho] using (h.turn hd).record hev

theorem St.Sound.sampleEffect (h : s.Sound w) {p : Pattern} (hp : p.width = w) : (sampleEffect p s).Sound w := by
  refine h.record fun ev hev => ?_
  split at hev
  · cases List.mem_singleton.1 hev
    exact ⟨by simpa [Event.fits] using hp, rfl⟩
  · cases hev

/-- A line that `setControlLine` writes without a fault has been written before. -/
theorem line_written {c : Cfg} {l : CtrlLine} {v : Bit} (hf : lineFault c l v s = none) : s.line l ≠ none := by
  intro hl
  simp [lineFault, unwrittenLine, hl] at hf

/-- RW goes high without a fault only in input direction (F12). -/
theorem readWrite_free {c : Cfg} (hf : lineFault c .rw true s = none) : s.dir ≠ some .output := by
  intro hd
  unfold lineFault at hf
  split at hf
  · cases hf
  · simp [hd, ite_eq_iff] at hf

theorem St.Sound.lineEffect (h : s.Sound w) {c : Cfg} {l : CtrlLine} {v : Bit} (hf : lineFault c l v s = none) :
    (lineEffect c l v s).Sound w := by
  cases l with
  | e =>
    simp only [Machine.lineEffect]
    split
    · exact h.rise
    · split
      · exact h.fall c
      · have hs : s.e = some v := by
          have := line_written hf
          cases hv : v <;> cases he : s.e <;> simp_all [St.line]
        rw [← hs]
        exact h
  | rs => exact ⟨h.noContention, h.width, h.edge, h.changed.clock, h.legal⟩
  | rw => exact (h.readWrite fun hv => readWrite_free (hv ▸ hf)).changed

end Sound

/-! ### What an action leaves of the history and of a byte half sent -/

/-- `t` is later than `s` or as late, with everything that `s` has recorded (R10, R21, R35, R36). -/
def St.Extends (s t : St) : Prop := s.now ≤ t.now ∧ s.trace <+: t.trace ∧ s.faults <+: t.faults

/-- No byte is half sent, and the ghost tag is not that of an upper nibble (R29). -/
def St.WholeByte (s : St) : Prop := s.halfByte = false ∧ s.mon.curTag ≠ .innerNibble

theorem fall_trace (c : Cfg) (s : St) : s.trace <+: (s.fall c).trace := by
  unfold St.fall
  split
  · exact List.prefix_append _ _
  · exact List.prefix_refl _

theorem lineEffect_trace (c : Cfg) (l : CtrlLine) (v : Bit) (s : St) : s.trace <+: (lineEffect c l v s).trace := by
  cases l with
  | e =>
    simp only [lineEffect]
    split
    · exact List.prefix_refl _
    · split
      · exact fall_trace c s
      · exact List.prefix_refl _
  | rs => exact List.prefix_refl _
  | rw => exact List.prefix_refl _

theorem directionEffect_trace (d : Dir) (x : Pattern) (s : St) : s.trace <+: (directionEffect d x s).trace := by
  unfold directionEffect
  split
  · exact List.prefix_refl _
  · exact List.prefix_append _ _

theorem abortEnable_trace (s : St) : s.trace <+: s.abortEnable.trace := by
  unfold St.abortEnable
  split
  · split
    · exact List.prefix_append _ _
    · exact List.prefix_refl _
  · exact List.prefix_refl _

theorem abortDirection_trace (x : Pattern) (s : St) : s.trace <+: (s.abortDirection x).trace := by
  unfold St.abortDirection
  split
  · exact List.prefix_append _ _
  · exact List.prefix_refl _

theorem St.WholeByte.afterPulse {s : St} (h : s.WholeByte) : s.halfAfterPulse = false := by
  obtain ⟨hhalf, htag⟩ := h
  unfold St.halfAfterPulse
  split
  · exact absurd ‹_› htag
  · rfl
  · exact hhalf

theorem St.WholeByte.fall {s : St} (h : s.WholeByte) (c : Cfg) : (s.fall c).WholeByte := by
  unfold St.fall
  split
  · exact ⟨h.afterPulse, h.2⟩
  · exact h

theorem St.WholeByte.lineEffect {s : St} (h : s.WholeByte) (c : Cfg) (l : CtrlLine) (v : Bit) : (lineEffect c l v s).WholeByte := by
  cases l with
  | e =>
    simp only [Machine.lineEffect]
    split
    · exact h
    · split
      · exact h.fall c
      · exact h
  | rs => exact h
  | rw => exact h

theorem St.WholeByte.abortEnable {s : St} (h : s.WholeByte) : s.abortEnable.WholeByte := by
  unfold St.abortEnable
  split
  · split
    · exact ⟨h.afterPulse, h.2⟩
    · exact h
  · exact h

/-! ### What an action does to `St` -/

section Does

variable {a : Act} {m : Instance} {st : St} {before after : List Act}

/-- An action that writes no line, no ghost tag, no phase and no event: a wait, an expansion, or the bookkeeping of a poll. -/
def Act.silent : Act → Bool
  | .delay _ | .pulse _ _ | .frame _ _ | .transfer _ _ | .settle _ _ | .poll | .pollReset | .pollIteration | .pollTest | .giveFlag => true
  | _ => false

/-- A silent action writes the poll's counter, `lastBF` and the settle obligation at most. -/
theorem Act.Does.of_silent (h : a.Does m st before after) (ha : a.silent = true) :
    ∃ i b q, st = { m.st with pollIter := i, lastBF := b, mon := { m.st.mon with settle := q } } := by
  cases a with
  | delay _ | pulse _ _ | frame _ _ | transfer _ _ | settle _ _ | poll | pollIteration =>
    obtain ⟨rfl, -⟩ := h
    exact ⟨_, _, _, rfl⟩
  | pollReset =>
    obtain ⟨rfl, -⟩ := h
    exact ⟨0, _, _, rfl⟩
  | pollTest => exact h.1
  | giveFlag =>
    obtain ⟨rfl | rfl, -⟩ := h
    · exact ⟨_, _, _, rfl⟩
    · exact ⟨_, _, .noSettle, rfl⟩
  | _ => cases ha

/-- The phase after an action: as it was, the next step's, or one that ends the run of the controller. -/
theorem Act.Does.phase_cases (h : a.Does m st before after) :
    st.phase = m.st.phase ∨ st.phase = m.st.phase.next ∨ st.phase = m.st.phase.endIn (.failed .busyFlagTimeout)
      ∨ st.phase = m.st.phase.endIn .aborted := by
  cases a with
  | delay _ | pulse _ _ | frame _ _ | transfer _ _ | settle _ _ | poll | pollReset | pollIteration | pollTest | giveFlag =>
    obtain ⟨i, b, q, rfl⟩ := h.of_silent rfl
    exact .inl rfl
  | line _ _ | data _ | configE | configRS | configRW | configData | tag _ | abortEnable | abortReadWrite =>
    obtain ⟨rfl, -⟩ := h
    exact .inl (by simp)
  | direction _ | read _ _ | abortDirection =>
    obtain ⟨x, rfl, -⟩ := h
    exact .inl (by simp)
  | advance =>
    obtain ⟨rfl, -⟩ := h
    exact .inr (.inl rfl)
  | finish o =>
    obtain ⟨rfl | rfl, -⟩ := h
    · exact .inl rfl
    · by_cases ho : o = .busyFlagTimeout
      · exact .inr (.inr (.inl (by simp [ho])))
      · exact .inl (by simp [ho])
  | abortFinish =>
    obtain ⟨rfl, -⟩ := h
    exact .inr (.inr (.inr rfl))

/-- No action takes back time, events or faults. -/
theorem Act.Does.extends (h : a.Does m st before after) : m.st.Extends st := by
  have same : ∀ {t : St}, t.now = m.st.now → m.st.trace <+: t.trace → t.faults = m.st.faults → m.st.Extends t :=
    fun hn ht hf => ⟨hn.ge, ht, hf ▸ List.prefix_refl _⟩
  cases a with
  | delay _ | pulse _ _ | frame _ _ | transfer _ _ | settle _ _ | poll | pollReset | pollIteration | pollTest | giveFlag =>
    obtain ⟨i, b, q, rfl⟩ := h.of_silent rfl
    exact same rfl (List.prefix_refl _) rfl
  | data _ | configE | configRS | configRW | configData | tag _ | advance | abortReadWrite =>
    obtain ⟨rfl, -⟩ := h
    exact same (by simp) (by simp) (by simp)
  | line l v =>
    obtain ⟨rfl, -⟩ := h
    exact same (by simp) (lineEffect_trace _ l v _) (by simp)
  | direction d =>
    obtain ⟨x, rfl, -⟩ := h
    exact same (by simp) (directionEffect_trace d x _) (by simp)
  | read _ _ =>
    obtain ⟨p, rfl, -⟩ := h
    exact same rfl (List.prefix_append _ _) rfl
  | finish o =>
    obtain ⟨rfl | rfl, -⟩ := h
    · exact same rfl (List.prefix_refl _) rfl
    · exact same rfl (List.prefix_append _ _) rfl
  | abortEnable =>
    obtain ⟨rfl, -⟩ := h
    exact same (by simp) (abortEnable_trace _) (by simp)
  | abortDirection =>
    obtain ⟨x, rfl, -⟩ := h
    exact same (by simp) (abortDirection_trace x _) (by simp)
  | abortFinish =>
    obtain ⟨rfl, -⟩ := h
    exact same rfl (List.prefix_append _ _) rfl

/-- Only an action that tags an upper nibble starts to leave a byte half sent. -/
theorem Act.Does.wholeByte (h : a.Does m st before after) (hm : m.st.WholeByte) (ha : a.tagsInner = false) : st.WholeByte := by
  cases a with
  | delay _ | pulse _ _ | frame _ _ | transfer _ _ | settle _ _ | poll | pollReset | pollIteration | pollTest | giveFlag =>
    obtain ⟨i, b, q, rfl⟩ := h.of_silent rfl
    exact hm
  | data _ | configE | configRS | configRW | configData | advance | abortFinish =>
    obtain ⟨rfl, -⟩ := h
    exact hm
  | line l v =>
    obtain ⟨rfl, -⟩ := h
    exact hm.lineEffect _ l v
  | direction _ | abortDirection =>
    obtain ⟨x, rfl, -⟩ := h
    simpa [St.WholeByte] using hm
  | read _ _ =>
    obtain ⟨p, rfl, -⟩ := h
    exact hm
  | tag g =>
    obtain ⟨rfl, -⟩ := h
    exact ⟨hm.1, by rintro rfl; cases ha⟩
  | finish o =>
    obtain ⟨rfl | rfl, -⟩ := h
    · exact hm
    · exact hm
  | abortEnable =>
    obtain ⟨rfl, -⟩ := h
    exact hm.abortEnable
  | abortReadWrite =>
    obtain ⟨rfl, -⟩ := h
    simpa [St.WholeByte] using hm

theorem endIn_failed {p : Phase} {o : OpOutcome} {q : Phase} (h : p.endIn q = .failed o) : p = .failed o ∨ q = .failed o := by
  unfold Phase.endIn at h
  split at h
  · exact .inl h
  · exact .inr h

theorem next_failed {p : Phase} {o : OpOutcome} (h : p.next = .failed o) : p = .failed o := by
  cases p with
  | blindInit k => cases k <;> cases h
  | failed _ => exact h
  | _ => cases h

/-- No action brings an illegal failure. -/
theorem Act.Does.phaseLegal (h : a.Does m st before after) (hm : PhaseLegal m.st) : PhaseLegal st := by
  intro o ho
  obtain hp | hp | hp | hp := h.phase_cases
  · exact hm o (hp ▸ ho)
  · exact hm o (next_failed (hp ▸ ho))
  · rcases endIn_failed (hp ▸ ho) with ho | ho
    · exact hm o ho
    · cases ho
      rfl
  · rcases endIn_failed (hp ▸ ho) with ho | ho
    · exact hm o ho
    · cases ho

/-- An action keeps `St` sound, where its pattern fits and RW is low when the abort path turns the lines (R118). -/
theorem Act.Does.sound (h : a.Does m st before after) (hm : m.st.Sound m.cfg.width) (hf : a.fits m.cfg.width = true)
    (hr : a = .abortDirection → m.st.rw ≠ some true) : st.Sound m.cfg.width := by
  have hl := h.phaseLegal hm.legal
  cases a with
  | delay _ | pulse _ _ | frame _ _ | transfer _ _ | settle _ _ | poll | pollReset | pollIteration | pollTest | giveFlag =>
    obtain ⟨i, b, q, rfl⟩ := h.of_silent rfl
    exact ⟨hm.noContention, hm.width, hm.edge, hm.clock, hm.legal⟩
  | configRS | tag _ | advance =>
    obtain ⟨rfl, -⟩ := h
    exact ⟨hm.noContention, hm.width, hm.edge, hm.clock, hl⟩
  | line l v =>
    obtain ⟨rfl, hn, -⟩ := h
    exact hm.lineEffect hn
  | data p =>
    obtain ⟨rfl, -⟩ := h
    exact (hm.latch (by simpa [Act.fits] using hf)).changed
  | direction d =>
    obtain ⟨x, rfl, hx, hn, -⟩ := h
    exact hm.directionEffect hx hn
  | read device keep =>
    obtain ⟨p, rfl, rfl | hp, -⟩ := h
    · exact hm.sampleEffect (by simpa [Act.fits] using hf)
    · exact hm.sampleEffect hp
  | configE =>
    obtain ⟨rfl, he, -⟩ := h
    exact hm.stayLow he
  | configRW =>
    obtain ⟨rfl, -⟩ := h
    exact hm.readWrite nofun
  | configData =>
    obtain ⟨rfl, -, hw, -⟩ := h
    exact ((hm.turn fun _ => hw).latch (zeroPattern_width _)).changed
  | finish o =>
    obtain ⟨rfl | rfl, -⟩ := h
    · exact hm
    · have hs := hm.record (evs := [.outcome o m.st.now]) (by simp [Event.fits, Event.time])
      exact ⟨hs.noContention, hs.width, hs.edge, hs.clock, hl⟩
  | abortEnable =>
    obtain ⟨rfl, -⟩ := h
    exact hm.abortEnable
  | abortReadWrite =>
    obtain ⟨rfl, -⟩ := h
    exact hm.abortReadWrite
  | abortDirection =>
    obtain ⟨x, rfl, hx, -⟩ := h
    exact hm.abortDirection hx (hr rfl)
  | abortFinish =>
    obtain ⟨rfl, -⟩ := h
    have hs := hm.record (evs := [.outcome .aborted m.st.now]) (by simp [Event.fits, Event.time])
    exact ⟨hs.noContention, hs.width, hs.edge, hs.clock, hl⟩

theorem pollUsable_next {p : Phase} (h : p.pollUsable = true) : p.next.pollUsable = true := by
  cases p with
  | blindInit _ => cases h
  | poweringUp | modeSelecting => cases h
  | _ => rfl

theorem pollUsable_endIn {p q : Phase} (h : p.pollUsable = true) (hq : q.pollUsable = true) : (p.endIn q).pollUsable = true := by
  unfold Phase.endIn
  split
  · exact h
  · exact hq

/-- Where the phase allows a poll, it does so after every action (R28). -/
theorem Act.Does.pollUsable (h : a.Does m st before after) (hm : m.st.phase.pollUsable = true) : st.phase.pollUsable = true := by
  obtain hp | hp | hp | hp := h.phase_cases <;> rw [hp]
  · exact hm
  · exact pollUsable_next hm
  · exact pollUsable_endIn hm rfl
  · exact pollUsable_endIn hm rfl

/-! ### What an action does to the continuation -/

/-- The actions that an action may leave to do beside those that were (R94). -/
def Act.spawned (c : Cfg) : Act → List Act
  | .pulse d g => pulseSteps d g
  | .frame p g => frameSteps c p g
  | .transfer k b => transferSteps c k b
  | .settle k b => settleSteps c k b
  | .poll => pollSteps c
  | .pollIteration => iterationSteps c
  | .pollTest => exitReadSteps ++ [.finish .busyFlagTimeout] ++ [.pollIteration, .pollTest]
  | _ => []

theorem Act.Does.mem_after (h : a.Does m st before after) {b : Act} (hb : b ∈ after) : b ∈ before ∨ b ∈ a.spawned m.cfg := by
  cases a with
  | pulse _ _ | frame _ _ | transfer _ _ | settle _ _ | pollIteration =>
    obtain ⟨-, rfl⟩ := h
    exact (List.mem_append.1 hb).symm
  | poll =>
    obtain ⟨-, -, rfl⟩ := h
    exact (List.mem_append.1 hb).symm
  | pollTest =>
    obtain ⟨-, rfl | rfl | rfl⟩ := h
    · exact (List.mem_append.1 hb).symm.imp_right fun hx => by simp [Act.spawned, hx]
    · exact .inr (List.mem_append_left _ hb)
    · exact (List.mem_append.1 hb).symm.imp_right fun hx => List.mem_append_right _ hx
  | delay _ | tag _ | pollReset | giveFlag | advance | finish _ | abortEnable | abortReadWrite | abortFinish =>
    obtain ⟨-, rfl⟩ := h
    exact .inl hb
  | line _ _ | data _ | configE | configRS | configRW =>
    obtain ⟨-, -, rfl⟩ := h
    exact .inl hb
  | configData =>
    obtain ⟨-, -, -, rfl⟩ := h
    exact .inl hb
  | abortDirection =>
    obtain ⟨_, -, -, rfl⟩ := h
    exact .inl hb
  | direction _ | read _ _ =>
    obtain ⟨_, -, -, -, rfl⟩ := h
    exact .inl hb

/-- What an action spawns may stand in a continuation. -/
theorem clean_spawned (c : Cfg) {poll : Prop} (hf : a.fits c.width = true) (hp : a = .poll ∨ a.ofPoll = true → poll) :
    Clean c.width poll True (a.spawned c) := by
  cases a with
  | pulse t tag => exact clean_pulse _ _ _ t tag fun _ _ => trivial
  | frame p tag => exact clean_frame c _ _ _ tag (by simpa [Act.fits] using hf) fun _ _ => trivial
  | transfer k b => exact clean_transfer c _ _ k b
  | settle k b => exact clean_settle c _ _ _ k b
  | poll => exact clean_poll c _ _ _ (hp (.inl rfl))
  | pollIteration => exact clean_iteration c _ _ _
  | pollTest =>
    have hq := hp (.inr rfl)
    exact ((clean_exitRead _ _ _).append (clean_timeout _ _ _ hq)).append (clean_again _ _ _ hq)
  | _ => exact clean_nil _ _ _

/-- Under EightBit only an action that tags an upper nibble spawns one (R135). -/
theorem spawned_tagsInner {c : Cfg} (hw : c.width = .eightBit) (ha : a.tagsInner = false) {b : Act} (hb : b ∈ a.spawned c) :
    b.tagsInner = false := by
  have clean : ∀ {xs : List Act}, Clean .eightBit True False xs → b ∈ xs → b.tagsInner = false :=
    fun h hx => Bool.eq_false_iff.2 fun ht => (h b hx).2.2.2 rfl ht
  cases a with
  | pulse t tag =>
    have hg : tag ≠ .innerNibble := by rintro rfl; cases ha
    exact clean (clean_pulse _ _ _ t tag fun _ h => hg h) hb
  | frame p tag =>
    simp only [Act.spawned, frameSteps, List.mem_cons, List.not_mem_nil, or_false] at hb
    obtain rfl | rfl | rfl | rfl := hb
    · rfl
    · rfl
    · cases tag <;> simp_all [Act.tagsInner]
    · rfl
  | transfer k b => exact clean (hw ▸ clean_transfer c _ _ k b) hb
  | settle k b => exact clean (clean_settle c _ _ _ k b) hb
  | poll => exact clean (clean_poll c _ _ _ trivial) hb
  | pollIteration => exact clean (clean_iteration c _ _ _) hb
  | pollTest => exact clean (((clean_exitRead _ _ _).append (clean_timeout _ _ _ trivial)).append (clean_again _ _ _ trivial)) hb
  | _ => cases hb

end Does

/-! ### The continuation part of the invariant -/

/-- The clauses of `Inv` on the continuation, under the width `w`. -/
structure ContKept (w : Width) (cont : List Act) (s : St) : Prop where
  order : AbortInOrder cont s
  poll : PollKept cont s
  fits : ∀ a ∈ cont, a.fits w = true

/-- A continuation that is none of the abort path is in order. -/
theorem abortInOrder_of_none {cont : List Act} (h : ∀ a ∈ cont, a.ofAbort = false) (s : St) : AbortInOrder cont s :=
  ⟨.inr h, fun hc => (by simp [hc, Act.ofAbort] at h), fun hc => (by simp [hc, Act.ofAbort] at h)⟩

theorem Clean.contKept {w : Width} {inner : Prop} {cont : List Act} {s : St} (h : Clean w (s.phase.pollUsable = true) inner cont) :
    ContKept w cont s where
  order := abortInOrder_of_none (fun a ha => (h a ha).1) s
  poll a ha := (h a ha).2.2.1
  fits a ha := (h a ha).2.1

theorem contKept_abortSteps (w : Width) (s : St) : ContKept w abortSteps s where
  order := ⟨.inl List.suffix_rfl, nofun, nofun⟩
  poll := by simp [PollKept, abortSteps, Act.ofPoll]
  fits := by simp [abortSteps, Act.fits]

/-- What is left of the abort path begins with one of its actions, and the rest follows. -/
theorem suffix_abortSteps {a : Act} {before : List Act} (h : a :: before <:+ abortSteps) :
    (a = .abortEnable ∧ before = [.abortReadWrite, .abortDirection, .abortFinish])
      ∨ (a = .abortReadWrite ∧ before = [.abortDirection, .abortFinish]) ∨ (a = .abortDirection ∧ before = [.abortFinish])
      ∨ (a = .abortFinish ∧ before = []) := by
  simpa [abortSteps, List.suffix_cons_iff] using h

/-- RW is low when the abort path turns the lines (R118). -/
theorem ContKept.abortDirection {w : Width} {before : List Act} {s : St} (h : ContKept w (.abortDirection :: before) s) :
    s.rw ≠ some true := by
  obtain ⟨hs | hn, -, hd⟩ := h.order
  · obtain ⟨ha, -⟩ | ⟨ha, -⟩ | ⟨-, hb⟩ | ⟨ha, -⟩ := suffix_abortSteps hs
    · cases ha
    · cases ha
    · exact (hd (by rw [hb])).2
    · cases ha
  · cases hn _ (List.mem_cons_self ..)

/-- After the first line of the abort path Enable is not high. -/
theorem abortEnable_e (s : St) : s.abortEnable.e ≠ some true := by
  unfold St.abortEnable
  split
  · split <;> nofun
  · assumption

/-- After the second RW is not. -/
theorem abortReadWrite_rw (s : St) : s.abortReadWrite.rw ≠ some true := by
  unfold St.abortReadWrite
  split
  · nofun
  · assumption

section Does

variable {a : Act} {m : Instance} {st : St} {before after : List Act}

/-- The abort path stays in order: each of its actions brings about what the next one needs. -/
theorem Act.Does.abortInOrder (h : a.Does m st before after) (ho : AbortInOrder (a :: before) m.st)
    (hs : ∀ b ∈ a.spawned m.cfg, b.ofAbort = false) : AbortInOrder after st := by
  obtain ⟨hab | hab, he, -⟩ := ho
  · have hleft : before <:+ abortSteps := (List.suffix_cons a before).trans hab
    obtain ⟨rfl, rfl⟩ | ⟨rfl, rfl⟩ | ⟨rfl, rfl⟩ | ⟨rfl, rfl⟩ := suffix_abortSteps hab
    · obtain ⟨rfl, rfl⟩ := h
      exact ⟨.inl hleft, fun _ => abortEnable_e _, nofun⟩
    · obtain ⟨rfl, rfl⟩ := h
      exact ⟨.inl hleft, nofun, fun _ => ⟨by simpa using he rfl, abortReadWrite_rw _⟩⟩
    · obtain ⟨x, rfl, -, rfl⟩ := h
      exact ⟨.inl hleft, nofun, nofun⟩
    · obtain ⟨rfl, rfl⟩ := h
      exact ⟨.inl hleft, nofun, nofun⟩
  · refine abortInOrder_of_none (fun b hb => ?_) st
    rcases h.mem_after hb with hb | hb
    · exact hab b (List.mem_cons_of_mem _ hb)
    · exact hs b hb

/-- An action keeps the continuation part of the invariant. -/
theorem Act.Does.contKept (h : a.Does m st before after) (hk : ContKept m.cfg.width (a :: before) m.st) :
    ContKept m.cfg.width after st := by
  have hpoll : a = .poll ∨ a.ofPoll = true → m.st.phase.pollUsable = true := by
    rintro (rfl | ha)
    · exact (pollFault_none h.2.1).2
    · exact hk.poll a (List.mem_cons_self ..) ha
  have hs : Clean m.cfg.width (st.phase.pollUsable = true) True (a.spawned m.cfg) :=
    (clean_spawned m.cfg (hk.fits a (List.mem_cons_self ..)) hpoll).mono h.pollUsable id
  refine ⟨h.abortInOrder hk.order fun b hb => (hs b hb).1, fun b hb hp => ?_, fun b hb => ?_⟩
  · rcases h.mem_after hb with hb | hb
    · exact h.pollUsable (hk.poll b (List.mem_cons_of_mem _ hb) hp)
    · exact (hs b hb).2.2.1 hp
  · rcases h.mem_after hb with hb | hb
    · exact hk.fits b (List.mem_cons_of_mem _ hb)
    · exact (hs b hb).2.1

/-- Under EightBit no action leaves one to do that tags an upper nibble, where none stood. -/
theorem Act.Does.tagsInner (h : a.Does m st before after) (hw : m.cfg.width = .eightBit)
    (hk : ∀ b ∈ a :: before, b.tagsInner = false) : ∀ b ∈ after, b.tagsInner = false := by
  intro b hb
  rcases h.mem_after hb with hb | hb
  · exact hk b (List.mem_cons_of_mem _ hb)
  · exact spawned_tagsInner hw (hk a (List.mem_cons_self ..)) hb

end Does

/-- An action that is an operation by itself may stand in a continuation. -/
theorem clean_direct {a : Act} {w : Width} (hd : a.direct = true) (hf : a.fits w = true) (poll inner : Prop) :
    Clean w poll inner [a] := by
  refine clean_cons.2 ⟨?_, clean_nil _ _ _⟩
  cases a with
  | line _ _ | direction _ | delay _ | data _ | read _ _ => exact ⟨rfl, hf, nofun, nofun⟩
  | _ => cases hd

/-! ### Steps -/

theorem inv_iff {s : State} :
    Inv s ↔ ∀ m, s.inst = some m → m.st.Sound m.cfg.width ∧ ContKept m.cfg.width s.cont m.st := by
  refine forall₂_congr fun m _ => ⟨?_, ?_⟩
  · rintro ⟨hc, hw, he, ht, hl, ho, hp, hf⟩
    exact ⟨⟨hc, hw, he, ht, hl⟩, ⟨ho, hp, hf⟩⟩
  · rintro ⟨⟨hc, hw, he, ht, hl⟩, ⟨ho, hp, hf⟩⟩
    exact ⟨hc, hw, he, ht, hl, ho, hp, hf⟩

/-- Construction leaves the driver free, and a controller only with the values of R39 (R212). -/
theorem exec_construct_initial {c : Cfg} {s t : State} (h : exec (.construct c) s = .next t) :
    t.cont = [] ∧ ∀ m, t.inst = some m → m.st = St.init := by
  obtain ⟨hcont, ⟨-, rfl⟩ | ⟨-, rfl⟩⟩ := construct_next (cfg := c) h
  · exact ⟨hcont, fun m hm => by cases hm; rfl⟩
  · exact ⟨hcont, fun m hm => by cases hm⟩

/-- A step from no controller, or that may construct one, does no more than construct one. -/
theorem step_constructs {s t : State} (h : step s = .next t) (hc : s.inst = none ∨ ConstructsNext s) :
    t.cont = [] ∧ ∀ m, t.inst = some m → m.st = St.init := by
  rcases hc with hn | ⟨ha, hcont, c, u, hu⟩
  · obtain ⟨-, hx⟩ | ⟨-, a, rest, -, hx⟩ | ⟨-, -, c, rest, i, -, -, hx⟩ | ⟨-, hcont, -, rfl⟩ := step_next h
    · obtain ⟨m, hm, -⟩ := abort_next hx
      cases hn.symm.trans hm
    · obtain ⟨m, hm, -⟩ := perform_next hx
      cases hn.symm.trans hm
    · obtain ⟨c, rfl⟩ | ⟨m, hm, -⟩ := exec_next hx
      · exact exec_construct_initial hx
      · cases hn.symm.trans hm
    · simp [State.idle, hn, hcont]
  · have hs : step s = exec (.construct c) u := by simp only [step, State.abortNow, if_neg ha, State.nextAct, hcont, hu]
    exact exec_construct_initial (hs ▸ h)

/-- What a step can do with a controller, construction apart: leave it, with a continuation as it was, of the abort path or of a call; raise
a fault; or take the effect of an action that stood first in the continuation or is a call by itself, and let time pass. -/
theorem step_effect {s t : State} {m : Instance} (hm : s.inst = some m) (hnc : ¬ ConstructsNext s) (h : step s = .next t) :
    (t.inst = some m ∧ (t.cont = s.cont ∨ t.cont = abortSteps
      ∨ Clean m.cfg.width (m.st.phase.pollUsable = true) (SendsInnerNext s) t.cont))
    ∨ (∃ f, t.inst = some { m with st := { m.st with faults := m.st.faults ++ [f] } } ∧ t.cont = [])
    ∨ ∃ a before st δ, t.inst = some { m with st := { st with now := st.now + δ } } ∧ a.Does m st before t.cont
      ∧ (s.cont = a :: before ∨ (before = [] ∧ a.direct = true ∧ a.fits m.cfg.width = true)) := by
  obtain hx | ⟨-, hx⟩ | ⟨-, a, u, hx, hu, hc⟩ := step_does hm hnc h
  · exact .inl hx
  · exact .inr (.inl hx)
  · obtain ⟨f, rfl⟩ | ⟨st, δ, ht, hd⟩ := act_next hu hx
    · exact .inr (.inl ⟨f, rfl, rfl⟩)
    · exact .inr (.inr ⟨a, u.cont, st, δ, ht, hd, hc.imp_right And.right⟩)

/-- A step keeps the invariant. -/
theorem step_keeps_inv {s t : State} (h : step s = .next t) (hi : Inv s) : Inv t := by
  rw [inv_iff] at hi ⊢
  intro m' hm'
  by_cases hc : s.inst = none ∨ ConstructsNext s
  · obtain ⟨hcont, hinit⟩ := step_constructs h hc
    rw [hcont, hinit m' hm']
    exact ⟨.initial _, (clean_nil _ _ True).contKept⟩
  · obtain ⟨hn, hnc⟩ := not_or.1 hc
    obtain ⟨m, hm⟩ := Option.ne_none_iff_exists'.1 hn
    obtain ⟨hs, hk⟩ := hi m hm
    obtain ⟨ht, hx⟩ | ⟨f, ht, hx⟩ | ⟨a, before, st, δ, ht, hd, hx⟩ := step_effect hm hnc h <;> cases ht.symm.trans hm'
    · refine ⟨hs, ?_⟩
      obtain hx | hx | hx := hx
      · exact hx ▸ hk
      · exact hx ▸ contKept_abortSteps _ _
      · exact hx.contKept
    · rw [hx]
      exact ⟨⟨hs.noContention, hs.width, hs.edge, hs.clock, hs.legal⟩, (clean_nil _ _ True).contKept⟩
    · have hk : ContKept m.cfg.width (a :: before) m.st := by
        obtain hx | ⟨rfl, hdir, hfit⟩ := hx
        · exact hx ▸ hk
        · exact (clean_direct hdir hfit _ True).contKept
      obtain ⟨order, poll, fits⟩ := hd.contKept hk
      exact ⟨(hd.sound hs (hk.fits a (List.mem_cons_self ..)) fun ha => (ha ▸ hk).abortDirection).later δ, order, poll, fits⟩

/-- A step keeps bytes whole under EightBit, unless it calls an operation with the tag of an upper nibble. -/
theorem step_keeps_neverHalf {s t : State} (h : step s = .next t) (hi : NeverHalf s) (hsend : ¬ SendsInnerNext s) : NeverHalf t := by
  intro m' hm' hw
  by_cases hc : s.inst = none ∨ ConstructsNext s
  · obtain ⟨hcont, hinit⟩ := step_constructs h hc
    rw [hcont, hinit m' hm']
    exact ⟨rfl, nofun, nofun⟩
  · obtain ⟨hn, hnc⟩ := not_or.1 hc
    obtain ⟨m, hm⟩ := Option.ne_none_iff_exists'.1 hn
    obtain ⟨ht, hx⟩ | ⟨f, ht, hx⟩ | ⟨a, before, st, δ, ht, hd, hx⟩ := step_effect hm hnc h <;> cases ht.symm.trans hm'
        <;> obtain ⟨hhalf, htag, hk⟩ := hi _ hm hw
    · refine ⟨hhalf, htag, fun a ha => ?_⟩
      obtain hx | hx | hx := hx
      · exact hk a (hx ▸ ha)
      · rw [hx] at ha
        exact (by decide : ∀ a ∈ abortSteps, a.tagsInner = false) a ha
      · exact Bool.eq_false_iff.2 fun hin => hsend ((hx a ha).2.2.2 hw hin)
    · rw [hx]
      exact ⟨hhalf, htag, nofun⟩
    · have hk : ∀ b ∈ a :: before, b.tagsInner = false := by
        obtain hx | ⟨rfl, hdir, hfit⟩ := hx
        · exact hx ▸ hk
        · exact fun b hb => Bool.eq_false_iff.2 ((clean_direct hdir hfit True False b hb).2.2.2 hw)
      obtain ⟨hhalf, htag⟩ := hd.wholeByte ⟨hhalf, htag⟩ (hk a (List.mem_cons_self ..))
      exact ⟨hhalf, htag, hd.tagsInner hw hk⟩

/-- Settles O55: `step_effect` says what a step does, and each clause of the invariant is kept by each effect. -/
theorem stepKeepsInv : Obligations.StepKeepsInv := by
  unfold Obligations.StepKeepsInv
  exact fun s t h => ⟨step_keeps_inv h, step_keeps_neverHalf h⟩

/-- Settles O57: no effect of a step takes history back. -/
theorem historyOnlyGrows : Obligations.HistoryOnlyGrows := by
  unfold Obligations.HistoryOnlyGrows
  intro s t m hm hnc h
  obtain ⟨ht, -⟩ | ⟨f, ht, -⟩ | ⟨a, before, st, δ, ht, hd, -⟩ := step_effect hm hnc h
  · exact ⟨m, ht, rfl, Nat.le_refl _, List.prefix_refl _, List.prefix_refl _⟩
  · exact ⟨_, ht, rfl, Nat.le_refl _, List.prefix_refl _, List.prefix_append _ _⟩
  · obtain ⟨hnow, htrace, hfaults⟩ := hd.extends
    exact ⟨_, ht, rfl, Nat.le_add_right_of_le hnow, htrace, hfaults⟩

end Sys2Proof.Machine
end

section
/-! PROOFS. State (10_state.md): construction and reset leave R39's values, a sample and the faults of `setControlLine`, the moves of the
phase, and a faulted controller. -/

namespace Sys2Proof.Machine

/-! ### Phases -/

/-- The moves of the phase that the steps of InitSequencer make (R175). -/
def Phase.moves : List (Phase × Phase) :=
  [(.poweringUp, .blindInit .first), (.blindInit .first, .blindInit .second), (.blindInit .second, .blindInit .third),
    (.blindInit .third, .modeSelecting), (.modeSelecting, .functionSetting), (.functionSetting, .displayConfiguring),
    (.displayConfiguring, .clearing), (.clearing, .entryModeSetting), (.entryModeSetting, .ready)]

theorem Phase.next_eq_or_moves (p : Phase) : p.next = p ∨ (p, p.next) ∈ Phase.moves := by
  cases p with
  | blindInit k => cases k <;> exact .inr (by decide)
  | ready | failed _ | aborted => exact .inl rfl
  | _ => exact .inr (by decide)

theorem Phase.endIn_eq_or (p q : Phase) : p.endIn q = p ∨ (p.dead = false ∧ p.endIn q = q) := by
  cases hd : p.dead <;> simp [Phase.endIn, hd]

/-- The phases in which a live controller may poll (R28). -/
theorem Phase.mem_of_live_pollUsable {p : Phase} (hd : p.dead = false) (hu : p.pollUsable = true) :
    p ∈ [Phase.functionSetting, .displayConfiguring, .clearing, .entryModeSetting, .ready] := by
  cases p with
  | poweringUp | blindInit _ | modeSelecting => cases hu
  | failed _ | aborted => cases hd
  | _ => decide

/-- Only an action of a poll in progress makes a live controller fail (R196, R213). -/
theorem Act.Does.ofPoll_of_failed {a : Act} {m : Instance} {st : St} {before after : List Act} {o : OpOutcome}
    (h : a.Does m st before after) (hd : m.st.phase.dead = false) (hf : st.phase = .failed o) : a.ofPoll = true := by
  have live : m.st.phase ≠ .failed o := fun hp => by rw [hp] at hd; cases hd
  cases a with
  | delay _ | pulse _ _ | frame _ _ | transfer _ _ | settle _ _ | poll | pollReset | pollIteration | pollTest | giveFlag =>
    obtain ⟨i, b, q, rfl⟩ := h.of_silent rfl
    exact absurd hf live
  | line _ _ | data _ | configE | configRS | configRW | configData | tag _ | abortEnable | abortReadWrite =>
    obtain ⟨rfl, -⟩ := h
    exact absurd (by simpa using hf) live
  | direction _ | read _ _ | abortDirection =>
    obtain ⟨x, rfl, -⟩ := h
    exact absurd (by simpa using hf) live
  | advance =>
    obtain ⟨rfl, -⟩ := h
    exact absurd (next_failed hf) live
  | abortFinish =>
    obtain ⟨rfl, -⟩ := h
    exact absurd ((endIn_failed hf).resolve_right nofun) live
  | finish r =>
    obtain ⟨rfl | rfl, -⟩ := h
    · exact absurd hf live
    · by_cases hr : r = .busyFlagTimeout
      · rw [hr]
        rfl
      · exact absurd (by simpa [hr] using hf) live

/-- In a state that satisfies the invariant, an action of a poll is taken only where the phase allows a poll: no call is one. -/
theorem Inv.pollUsable_of_ofPoll {s : State} {m : Instance} {a : Act} {before : List Act} (hi : Inv s) (hm : s.inst = some m)
    (hc : s.cont = a :: before ∨ (before = [] ∧ a.direct = true ∧ a.fits m.cfg.width = true)) (ha : a.ofPoll = true) :
    m.st.phase.pollUsable = true := by
  obtain hc | ⟨-, hdir, hfit⟩ := hc
  · exact (inv_iff.1 hi m hm).2.poll a (hc ▸ List.mem_cons_self ..) ha
  · exact ((clean_direct hdir hfit False True a (List.mem_singleton_self a)).2.2.1 ha).elim

/-- Settles O56: of the effects of a step, only that of an action writes the phase, and `Act.Does.phase_cases` says how. -/
theorem phaseMovesOnlyAsTheTableSays : Obligations.PhaseMovesOnlyAsTheTableSays := by
  unfold Obligations.PhaseMovesOnlyAsTheTableSays
  intro s t m hm hnc h
  obtain ⟨ht, -⟩ | ⟨f, ht, -⟩ | ⟨a, before, st, δ, ht, hd, hc⟩ := step_effect hm hnc h
  · exact ⟨m, ht, .inl rfl⟩
  · exact ⟨_, ht, .inl rfl⟩
  · refine ⟨_, ht, ?_⟩
    simp only
    obtain hp | hp | hp | hp := hd.phase_cases
    · exact .inl hp
    · rw [hp]
      exact (Phase.next_eq_or_moves _).imp_right .inl
    · obtain he | ⟨hlive, he⟩ := m.st.phase.endIn_eq_or (.failed .busyFlagTimeout)
      · exact .inl (hp.trans he)
      · refine .inr (.inr (.inr ⟨hlive, hp.trans he, fun hi => Phase.mem_of_live_pollUsable hlive ?_⟩))
        exact hi.pollUsable_of_ofPoll hm hc (hd.ofPoll_of_failed hlive (hp.trans he))
    · obtain he | ⟨hlive, he⟩ := m.st.phase.endIn_eq_or .aborted
      · exact .inl (hp.trans he)
      · exact .inr (.inr (.inl ⟨hlive, hp.trans he⟩))

/-! ### A faulted controller -/

/-- Settles O58: of what `step_does` lists, a step that raises a fault or takes an action needs a controller without one. -/
theorem faultedInstanceIsStuck : Obligations.FaultedInstanceIsStuck := by
  unfold Obligations.FaultedInstanceIsStuck
  intro s t m hm hfaulted hnc h
  obtain ⟨ht, -⟩ | ⟨hf, -⟩ | ⟨hf, -⟩ := step_does hm hnc h
  · exact ht
  · exact absurd hf hfaulted
  · exact absurd hf hfaulted

/-! ### Reset and construction -/

/-- Settles O54: R39's values are sound, and nothing is left to do. -/
theorem invHoldsAtReset : Obligations.InvHoldsAtReset := by
  unfold Obligations.InvHoldsAtReset
  refine ⟨inv_iff.2 fun m hm => ?_, fun m hm _ => ?_⟩ <;> cases hm
  · exact ⟨.initial _, (clean_nil _ _ True).contKept⟩
  · exact ⟨rfl, nofun, nofun⟩

theorem isPinMap_iff (ps : List (Signal × Nat)) : isPinMap ps = true ↔ (ps.map (·.1)).Nodup := by
  induction ps with
  | nil => simp [isPinMap]
  | cons q ps ih =>
    have hhead : (ps.all fun x => x.1 != q.1) = true ↔ q.1 ∉ ps.map (·.1) := by
      simp only [List.all_eq_true, bne_iff_ne, List.mem_map, not_exists, not_and, ne_eq]
    simp only [isPinMap, Bool.and_eq_true, hhead, ih, List.map_cons, List.nodup_cons]

theorem signals_nodup (w : Width) : (signals w).Nodup := by cases w <;> decide

/-- The checks of R212, for a pin map: it has the signals of the width as its domain, and is injective. -/
theorem configOk_of_pinMap {c : Cfg} (hmap : isPinMap c.pins = true) (hrows : c.rows = 1 ∨ c.rows = 2) (hbound : c.pollBound ≠ some 0)
    (hdom : ∀ x, x ∈ c.pins.map (·.1) ↔ x ∈ signals c.width) (hinj : (c.pins.map (·.2)).Nodup) : configOk c = true := by
  have hlen : c.pins.length = (signals c.width).length := by
    have hperm := (List.perm_ext_iff_of_nodup ((isPinMap_iff _).1 hmap) (signals_nodup _)).2 hdom
    simpa using hperm.length_eq
  have hall : ((signals c.width).all fun x => (c.pins.map (·.1)).contains x) = true :=
    List.all_eq_true.2 fun x hx => List.contains_iff_mem.2 ((hdom x).2 hx)
  simp only [configOk, hlen, hall]
  simp [hrows, hbound, hinj]

theorem construct_ok {c : Cfg} {s : State} (hcont : s.cont = []) (hc : configOk c = true) :
    exec (.construct c) s = .next { s with inst := some ⟨c, St.init⟩, ret := .outcome .ok } := by
  simp [exec, execConstruct, hcont, hc]

/-- Settles O11: the configuration passes the checks, and the new controller has `St.init`. -/
theorem constructLeavesResetValues : Obligations.ConstructLeavesResetValues := by
  unfold Obligations.ConstructLeavesResetValues
  intro s c hcont hmap hrows hbound hdom hinj
  refine ⟨St.init, construct_ok hcont (configOk_of_pinMap hmap hrows hbound hdom hinj), ?_⟩
  simp [St.init, Monitor.init]

/-! ### The faults of `setControlLine` -/

/-- A fault that `setControlLine` finds is raised, and changes nothing else (R220). -/
theorem setControlLine_raises {s : State} {m : Instance} (hi : Idle s m) {l : CtrlLine} {v : Bit} {f : ModelFault}
    (hf : lineFault m.cfg l v m.st = some f) : exec (.setControlLine l v) s = .next (s.raise m f) := by
  simp only [exec, execSetControlLine, once_idle hi, hf]
  rfl

section LineFault

variable (c : Cfg) (v : Bit) (s : St)

/-- A line that nothing has written is F6, whatever else is wrong. -/
theorem lineFault_unwritten {l : CtrlLine} (h : s.line l = none) : lineFault c l v s = some (.unconfiguredLine (lineName l)) := by
  simp [lineFault, unwrittenLine, h]

/-- RS, once written: F9, then F10. -/
theorem lineFault_rs (h : s.rs ≠ none) : lineFault c .rs v s =
    if s.e = some true then some .lineChangeWhileEnableHigh
    else if s.halfByte = true ∧ s.rs ≠ some v then some .registerSelectMidByte
    else none := by
  have hu : unwrittenLine .rs v s = none := by cases v <;> simp [unwrittenLine, St.line, h]
  simp [lineFault, hu]

/-- RW, once written: F6 of the direction, F9, then F12. -/
theorem lineFault_rw (h : s.rw ≠ none) : lineFault c .rw v s =
    if v = true ∧ s.dir = none then some (.unconfiguredLine .db)
    else if s.e = some true then some .lineChangeWhileEnableHigh
    else if v = true ∧ s.dir = some .output then some .busContention
    else none := by
  cases v <;> cases hd : s.dir <;> simp [lineFault, unwrittenLine, St.line, h, hd]

/-- A rise of Enable: F6 of RW, in a write cycle F6 of the direction and F11, then what the monitor finds. -/
theorem lineFault_rise (h : s.e = some false) : lineFault c .e true s =
    if s.rw = none then some (.unconfiguredLine .rw)
    else if s.rw = some false ∧ s.dir = none then some (.unconfiguredLine .db)
    else if s.rw = some false ∧ s.dir = some .inputWithPullup then some .writeWhileInput
    else riseFault c s := by
  rcases hw : s.rw with _ | _ | _ <;> cases hd : s.dir <;> simp [lineFault, unwrittenLine, St.line, h, hw, hd]

theorem lineFault_fall (h : s.e = some true) : lineFault c .e false s = fallFault c s := by
  simp [lineFault, unwrittenLine, St.line, h]

end LineFault

/-- Settles O18: `lineFault` finds each fault where no earlier one applies, and what it finds is raised. -/
theorem controlLineFaults : Obligations.ControlLineFaults := by
  unfold Obligations.ControlLineFaults
  intro s m v hi
  refine ⟨?_, ?_, ?_, ?_, ?_, ?_, ?_, ?_, ?_, ?_, ?_, ?_, ?_⟩
  · exact fun he => setControlLine_raises hi (lineFault_unwritten _ _ _ he)
  · exact fun hr => setControlLine_raises hi (lineFault_unwritten _ _ _ hr)
  · exact fun hw => setControlLine_raises hi (lineFault_unwritten _ _ _ hw)
  · exact fun hr he => setControlLine_raises hi (by simp [lineFault_rs _ _ _ hr, he])
  · exact fun hw hd he => setControlLine_raises hi (by simpa [lineFault_rw _ _ _ hw, he] using hd)
  · exact fun hr he hh => setControlLine_raises hi (by simp [lineFault_rs, hr, he, hh])
  · exact fun hw he hd => setControlLine_raises hi (by simp [lineFault_rw _ _ _ hw, he, hd])
  · exact fun he hw hd => setControlLine_raises hi (by simp [lineFault_rise _ _ he, hw, hd])
  · exact fun he hw => setControlLine_raises hi (by simp [lineFault_rise _ _ he, hw])
  · exact fun he hw hd => setControlLine_raises hi (by simp [lineFault_rise _ _ he, hw, hd])
  · exact fun hw hd => setControlLine_raises hi (by simp [lineFault_rw _ _ _ hw, hd])
  · exact fun he hk hr => setControlLine_raises hi (by simp [lineFault_fall _ _ he, fallFault, hk, hr])
  · exact fun he hk hr hp => setControlLine_raises hi (by simp [lineFault_fall _ _ he, fallFault, hk, hr, hp])

/-! ### Samples -/

theorem sample_raises {s : State} {m : Instance} (hi : Idle s m) {f : ModelFault} (hf : sampleFault m.cfg m.st = some f) :
    exec .sample s = .next (s.raise m f) := by
  simp only [exec, execSample, once_idle hi, State.sampled, hf]
  rfl

/-- A sample that finds no fault returns the wired part of the device's answer, and records it. -/
theorem sample_answers {s : State} {m : Instance} {r : Bit} (hi : Idle s m) (hf : sampleFault m.cfg m.st = none)
    (hr : m.st.rs = some r) :
    exec .sample s = .next (State.commit { s.answerUsed with ret := .pattern (wiredPart m.cfg.width s.nextAnswer) } m
      { m.st with trace := m.st.trace ++ [.rCycle r (wiredPart m.cfg.width s.nextAnswer) m.st.now] } 0) := by
  simp only [exec, execSample, once_idle hi, State.sampled, hf, sampleEffect, hr]
  rfl

/-- In a read cycle with RS written, only the time can be wrong (R116). -/
theorem sampleFault_readCycle (c : Cfg) {s : St} (hd : s.dir = some .inputWithPullup) (hw : s.rw = some true) (he : s.e = some true)
    (hr : s.rs ≠ none) : sampleFault c s = sampleTimeFault c s := by
  simp [sampleFault, hd, hw, he, hr]

theorem sampleTimeFault_of_riseAt (c : Cfg) {s : St} {tr : Nat} (h : s.mon.riseAt = some tr) :
    sampleTimeFault c s = if s.now - tr < c.tPollHigh then some (.timingViolation .pollHigh) else none := by
  simp [sampleTimeFault, h]

/-- A line that the sample reads and nothing has written is F6. -/
theorem sampleFault_unwritten (c : Cfg) {s : St} (h : s.dir = none ∨ s.rw = none ∨ s.e = none ∨ s.rs = none) :
    ∃ l, sampleFault c s = some (.unconfiguredLine l) := by
  unfold sampleFault
  split
  · exact ⟨_, rfl⟩
  split
  · exact ⟨_, rfl⟩
  split
  · exact ⟨_, rfl⟩
  split
  · exact ⟨_, rfl⟩
  · simp_all

/-- With its lines written, a sample outside a read cycle is F13. -/
theorem sampleFault_outside (c : Cfg) {s : St} (hd : s.dir ≠ none) (hr : s.rs ≠ none) (hw : s.rw ≠ none) (he : s.e ≠ none)
    (h : ¬ (s.dir = some .inputWithPullup ∧ s.rw = some true ∧ s.e = some true)) :
    sampleFault c s = some .sampleOutsideReadCycle := by
  simp [sampleFault, hd, hr, hw, he, h]

/-- Settles O22: the checks of `sample` in the order of R116, then its answer. -/
theorem sampleReadsTheDevice : Obligations.SampleReadsTheDevice := by
  unfold Obligations.SampleReadsTheDevice
  intro s m hi
  refine ⟨fun r tr hd hw he hr htr => ?_, fun h => ?_, fun hd hr hw he h => ?_⟩
  · have hf := (sampleFault_readCycle m.cfg hd hw he (by simp [hr])).trans (sampleTimeFault_of_riseAt m.cfg htr)
    refine ⟨fun hlong => ?_, fun hshort => sample_raises hi (hf.trans (if_pos hshort))⟩
    refine ⟨_, wiredPart m.cfg.width s.nextAnswer, _, sample_answers hi (hf.trans (if_neg hlong.not_gt)) hr, wiredPart_width _ _, rfl,
      rfl, hi.2.1, rfl, rfl, rfl, fun x rest hx => ⟨?_, ?_⟩⟩
    · simp [hx]
    · simp only [State.nextAnswer, hx]
      rfl
  · obtain ⟨l, hl⟩ := sampleFault_unwritten m.cfg h
    exact ⟨l, sample_raises hi hl⟩
  · exact sample_raises hi (sampleFault_outside m.cfg hd hr hw he h)

end Sys2Proof.Machine
end

section
/-! PROOFS. Memory (20_memory.md): which wired line carries which bit of a pattern, and the lines that no step moves while Enable is high. -/

namespace Sys2Proof.Machine

/-! ### Wired lines (R64) -/

theorem wiredLines_eightBit_getElem? (j : Fin 8) : (wiredLines .eightBit)[j.val]? = some j := by
  revert j
  decide

theorem wiredLines_fourBit_getElem? (j : Fin 4) : (wiredLines .fourBit)[j.val]? = some (j.natAdd 4) := by
  revert j
  decide

theorem mem_wiredLines_fourBit (k : Fin 8) : k ∈ wiredLines .fourBit ↔ 4 ≤ k.val := by
  revert k
  decide

theorem onLine_nibble_natAdd (n : Nibble) (j : Fin 4) : onLine (.nibble n) (j.natAdd 4) = some (n.getLsbD j.val) := by
  simp [onLine]

/-- DB7 carries the most significant bit of a pattern, which is where the busy flag is read (R88). -/
theorem onLine_db7 (p : Pattern) : onLine p 7 = some (db7 p) := by
  cases p <;> rfl

/-- Settles O10: under FourBit bit j is on the line numbered 4 + j, and the wired lines are those from 4 on. -/
theorem patternBitsOnWiredLines : Obligations.PatternBitsOnWiredLines := by
  unfold Obligations.PatternBitsOnWiredLines
  refine ⟨fun b j => ⟨wiredLines_eightBit_getElem? j, rfl⟩,
    fun n j => ⟨j.natAdd 4, wiredLines_fourBit_getElem? j, onLine_nibble_natAdd n j⟩, fun n k hk => ?_, onLine_db7⟩
  have hlow : ¬ 4 ≤ k.val := (mem_wiredLines_fourBit k).not.1 hk
  exact if_neg hlow

/-! ### Lines while Enable is high (R69, R119) -/

/-- `t` has the levels of RS and RW, the data latch and the direction of `s`. -/
def St.SameLines (s t : St) : Prop := t.rs = s.rs ∧ t.rw = s.rw ∧ t.data = s.data ∧ t.dir = s.dir

section EnableHigh

variable {s : St} (he : s.e = some true)
include he

/-- F9, unless an unwritten line is found first. -/
theorem lineFault_of_enableHigh (c : Cfg) {l : CtrlLine} (hl : l ≠ .e) (v : Bit) : lineFault c l v s ≠ none := by
  unfold lineFault
  split
  · nofun
  · simp [hl, he]

theorem dataFault_of_enableHigh : dataFault s ≠ none := by
  simp [dataFault, he, ite_eq_iff]

theorem directionFault_of_enableHigh (d : Dir) : directionFault d s ≠ none := by
  simp [directionFault, he, ite_eq_iff]

end EnableHigh

/-- Driving Enable moves no other line (R112). -/
theorem lineEffect_enable_sameLines (c : Cfg) (v : Bit) (s : St) : s.SameLines (lineEffect c .e v s) := by
  simp only [lineEffect]
  split
  · exact ⟨rfl, rfl, rfl, rfl⟩
  · split
    · simp [St.SameLines]
    · exact ⟨rfl, rfl, rfl, rfl⟩

/-- The lines of the abort path that move RW and the data lines come after Enable has gone low (R215). -/
theorem AbortInOrder.enable_not_high {a : Act} {before : List Act} {s : St} (h : AbortInOrder (a :: before) s)
    (ha : a = .abortReadWrite ∨ a = .abortDirection) : s.e ≠ some true := by
  obtain ⟨hleft | hnone, hreadWrite, hdirection⟩ := h
  · obtain ⟨rfl, -⟩ | ⟨rfl, rfl⟩ | ⟨rfl, rfl⟩ | ⟨rfl, -⟩ := suffix_abortSteps hleft
    · exact absurd ha (by decide)
    · exact hreadWrite rfl
    · exact (hdirection rfl).1
    · exact absurd ha (by decide)
  · have hno : a.ofAbort = false := hnone a (List.mem_cons_self ..)
    obtain rfl | rfl := ha <;> cases hno

/-- While Enable is high an action that would move a line faults (R119), or is of the abort path and not yet due. -/
theorem Act.Does.sameLines {a : Act} {m : Instance} {st : St} {before after : List Act} (h : a.Does m st before after)
    (he : m.st.e = some true) (ho : AbortInOrder (a :: before) m.st) : m.st.SameLines st := by
  cases a with
  | delay _ | pulse _ _ | frame _ _ | transfer _ _ | settle _ _ | poll | pollReset | pollIteration | pollTest | giveFlag =>
    obtain ⟨i, b, q, rfl⟩ := h.of_silent rfl
    exact ⟨rfl, rfl, rfl, rfl⟩
  | line l v =>
    obtain ⟨rfl, hf, -⟩ := h
    by_cases hl : l = .e
    · exact hl ▸ lineEffect_enable_sameLines _ v _
    · exact absurd hf (lineFault_of_enableHigh he _ hl v)
  | data _ =>
    obtain ⟨-, hf, -⟩ := h
    exact absurd hf (dataFault_of_enableHigh he)
  | direction d =>
    obtain ⟨-, -, -, hf, -⟩ := h
    exact absurd hf (directionFault_of_enableHigh he d)
  | configE | configRS | configRW | configData =>
    obtain ⟨-, hlow, -⟩ := h
    exact absurd he hlow
  | read _ _ =>
    obtain ⟨p, rfl, -⟩ := h
    exact ⟨rfl, rfl, rfl, rfl⟩
  | tag _ | advance | abortFinish =>
    obtain ⟨rfl, -⟩ := h
    exact ⟨rfl, rfl, rfl, rfl⟩
  | finish _ =>
    obtain ⟨rfl | rfl, -⟩ := h <;> exact ⟨rfl, rfl, rfl, rfl⟩
  | abortEnable =>
    obtain ⟨rfl, -⟩ := h
    simp [St.SameLines]
  | abortReadWrite => exact absurd he (ho.enable_not_high (.inl rfl))
  | abortDirection => exact absurd he (ho.enable_not_high (.inr rfl))

/-- In a state that satisfies the invariant, the action that a step takes stands in order: a call is none of the abort path. -/
theorem Inv.abortInOrder {s : State} {m : Instance} {a : Act} {before : List Act} (hi : Inv s) (hm : s.inst = some m)
    (hc : s.cont = a :: before ∨ (before = [] ∧ a.direct = true ∧ a.fits m.cfg.width = true)) : AbortInOrder (a :: before) m.st := by
  obtain hc | ⟨rfl, hdir, hfit⟩ := hc
  · exact hc ▸ (inv_iff.1 hi m hm).2.order
  · exact (clean_direct hdir hfit _ True).contKept.order

/-- Settles O59: of the effects of a step, only that of an action reaches the lines, and `Act.Does.sameLines` says it moves none. -/
theorem linesStableWhileEnableHigh : Obligations.LinesStableWhileEnableHigh := by
  unfold Obligations.LinesStableWhileEnableHigh
  intro s t m hi hm he hnc h
  obtain ⟨ht, -⟩ | ⟨f, ht, -⟩ | ⟨a, before, st, δ, ht, hd, hc⟩ := step_effect hm hnc h
  · exact ⟨m, ht, rfl, rfl, rfl, rfl⟩
  · exact ⟨_, ht, rfl, rfl, rfl, rfl⟩
  · exact ⟨_, ht, hd.sameLines he (hi.abortInOrder hm hc)⟩

end Sys2Proof.Machine
end

section
/-! PROOFS. Encoding (30_encoding.md), calls: the decoder reads back what the encoder wrote, and takes nothing else. -/

namespace Sys2Proof

/-! ### Words and command bytes -/

theorem functionSetByte_fields (dl n f : Bit) (x : BitVec 2) :
    (functionSetByte dl n f x).extractLsb' 5 3 = 0b001#3 ∧ (functionSetByte dl n f x).getLsbD 4 = dl
      ∧ (functionSetByte dl n f x).getLsbD 3 = n ∧ (functionSetByte dl n f x).getLsbD 2 = f
      ∧ (functionSetByte dl n f x).extractLsb' 0 2 = x := by
  revert dl n f x
  decide

theorem functionSetByte_class (dl n f : Bit) (x : BitVec 2) :
    (functionSetByte dl n f x).toNat / 32 = 1 ∧ (functionSetByte dl n f x).setWidth 2 = x := by
  revert dl n f x
  decide

theorem returnHomeByte_fields (x : Bit) :
    (returnHomeByte x).extractLsb' 1 7 = 0b0000001#7 ∧ (returnHomeByte x).getLsbD 0 = x := by
  cases x <;> decide

/-- Settles O48: the class bits and the fields of the two command bytes that have any. -/
theorem commandByteClasses : Obligations.CommandByteClasses := by
  unfold Obligations.CommandByteClasses
  exact ⟨functionSetByte_fields, returnHomeByte_fields⟩

/-- A byte of the function-set class is the byte of its fields (R89). -/
theorem functionSetByte_of_class {b : Byte} (h : b.toNat / 32 = 1) :
    functionSetByte (b.getLsbD 4) (b.getLsbD 3) (b.getLsbD 2) (b.setWidth 2) = b := by
  revert b
  decide

/-- A byte of the return-home class is the byte of its ignored bit (R89). -/
theorem returnHomeByte_of_class {b : Byte} (h : b.toNat / 2 = 1) : returnHomeByte (b.getLsbD 0) = b := by
  revert b
  decide

/-- A 6-bit word in a byte: the class above the nibble (R82, R83). -/
theorem append_toNat_div (k n : Nibble) : (k ++ n : Byte).toNat / 16 = k.toNat := by
  revert k n
  decide

theorem append_setWidth (k n : Nibble) : (k ++ n : Byte).setWidth 4 = n := by
  revert k n
  decide

theorem append_of_toNat_div {b : Byte} {k : Nibble} (h : b.toNat / 16 = k.toNat) : (k ++ b.setWidth 4 : Byte) = b := by
  apply BitVec.eq_of_toNat_eq
  rw [BitVec.toNat_append, ← h, ← Nat.shiftLeft_add_eq_or_of_lt (BitVec.isLt _), Nat.shiftLeft_eq, BitVec.toNat_setWidth]
  omega

/-! ### From an instruction to its call and back -/

theorem takeByte_reads : ReadsBack takeByte fun b => [b] := fun _ _ => rfl

theorem takeByte_only : TakesOnly takeByte fun b => [b] := by
  rintro (_ | ⟨b, bs⟩) x rest h <;> cases h
  rfl

section Reads

variable {α β : Type} {take : List Byte → Taken α} {put : α → List Byte} {take' : List Byte → Taken β} {put' : β → List Byte}

/-- An operation of one operand is read back. -/
theorem ReadsBack.one (h : ReadsBack take put) (f : α → Instr) (x : α) (rest : List Byte) :
    (take (put x ++ rest)).andThen (fun x bs => .ok (f x, bs)) = .ok (f x, rest) := by
  rw [h, andThen_ok]

/-- An operation of two operands is read back. -/
theorem ReadsBack.two (h : ReadsBack take put) (h' : ReadsBack take' put') (f : α → β → Instr) (x : α) (y : β) (rest : List Byte) :
    ((take (put x ++ put' y ++ rest)).andThen fun x bs => (take' bs).andThen fun y bs => .ok (f x y, bs)) = .ok (f x y, rest) := by
  rw [List.append_assoc, h, andThen_ok, h', andThen_ok]

end Reads

/-- The decoder reads an instruction back from the front of any bytes that begin with its encoding. -/
theorem takeAt_encode {i : Instr} (h : wellFormed i = true) (rest : List Byte) :
    takeAt (encode i).level ((encode i).bytes ++ rest) = .ok (i, rest) := by
  cases i with
  | construct c =>
    have hc := takeCfg_putCfg c rest h
    simp only [encode, takeAt, List.cons_append, takeOperation, hc]
    rfl
  | decode fs =>
    have hw : oneWidth fs = true := h
    have hfs := takeList_putList takePattern_putPattern fs rest
    simp only [encode, takeAt, List.cons_append, takeOperation, hfs]
    exact if_pos hw
  | setControlLine l v => exact takeLine_putLine.two takeBit_putBit .setControlLine l v rest
  | pulseEnable t g => exact takeNat_putNat.two takeTag_putTag .pulseEnable t g rest
  | writeFrame p g => exact takePattern_putPattern.two takeTag_putTag .writeFrame p g rest
  | transfer k b => exact takeKind_putKind.two takeByte_reads .transfer k b rest
  | settle k b => exact takeKind_putKind.two takeByte_reads .settle k b rest
  | setDataLines p => exact takePattern_putPattern.one .setDataLines p rest
  | setDataDirection d => exact takeDir_putDir.one .setDataDirection d rest
  | wait d => exact takeNat_putNat.one .wait d rest
  | selectRegister k => exact takeKind_putKind.one .selectRegister k rest
  | encode b => exact takeByte_reads.one .encode b rest
  | sendInstruction b => exact takeByte_reads.one .sendInstruction b rest
  | sendData b => exact takeByte_reads.one .sendData b rest
  | configureLines | sample | waitUntilReady | pollIteration | initialise | abort => rfl
  | iw8 b | dw8 b | br8 b | rsv8 b => rfl
  | iw4 n | br4 n | dw4 n | rsv4 n =>
    simp only [encode, takeAt, List.cons_append, List.nil_append, takeWord4, append_toNat_div, append_setWidth]
    rfl
  | init8Bit | mode4Bit | clear | displayOffByte | entryModeByte => rfl
  | functionSet dl n f x =>
    obtain ⟨-, hdl, hn, hf, -⟩ := functionSetByte_fields dl n f x
    obtain ⟨hclass, hx⟩ := functionSetByte_class dl n f x
    simp only [encode, takeAt, List.cons_append, List.nil_append, takeCommand, hclass, if_true, hdl, hn, hf, hx]
  | returnHome x => cases x <;> rfl

/-- Settles O1: the whole call is read back, and nothing is left of it. -/
theorem decodeReadsBackEncode : Obligations.DecodeReadsBackEncode := by
  unfold Obligations.DecodeReadsBackEncode
  intro i hi
  have h := takeAt_encode hi []
  rw [List.append_nil] at h
  simp only [decode, h]

/-! ### From a call to its instruction and back -/

/-- The bytes begin with the encoding of a well-formed instruction on this level, and `rest` follows. -/
def Encodes (l : Level) (bs : List Byte) (i : Instr) (rest : List Byte) : Prop :=
  (encode i).level = l ∧ bs = (encode i).bytes ++ rest ∧ wellFormed i = true

section Only

variable {α β : Type} {take : List Byte → Taken α} {put : α → List Byte} {take' : List Byte → Taken β} {put' : β → List Byte}
variable {op : Byte} {code : Nat} {bs rest : List Byte} {i : Instr}

theorem byte_of_toNat {b : Byte} {k : Nat} (h : b.toNat = k) : b = BitVec.ofNat 8 k := by
  rw [← h, BitVec.ofNat_toNat, BitVec.setWidth_eq]

/-- An operation without operands is taken only from its code. -/
theorem encodes_zero {j : Instr} (hop : op.toNat = code) (he : encode j = ⟨.operation, [BitVec.ofNat 8 code]⟩)
    (hw : wellFormed j = true) (h : (.ok (j, bs) : Taken Instr) = .ok (i, rest)) : Encodes .operation (op :: bs) i rest := by
  cases h
  exact ⟨by rw [he], by rw [he, byte_of_toNat hop]; rfl, hw⟩

/-- An operation of one operand is taken only from its encoding. -/
theorem TakesOnly.one (ht : TakesOnly take put) {f : α → Instr} (hop : op.toNat = code)
    (he : ∀ x, encode (f x) = ⟨.operation, BitVec.ofNat 8 code :: put x⟩) (hw : ∀ x, wellFormed (f x) = true)
    (h : ((take bs).andThen fun x bs => .ok (f x, bs)) = .ok (i, rest)) : Encodes .operation (op :: bs) i rest := by
  obtain ⟨x, b1, h1, h⟩ := andThen_eq_ok h
  cases h
  exact ⟨by rw [he], by rw [he, byte_of_toNat hop, ht _ _ _ h1]; rfl, hw x⟩

/-- An operation of two operands is taken only from its encoding. -/
theorem TakesOnly.two (ht : TakesOnly take put) (ht' : TakesOnly take' put') {f : α → β → Instr} (hop : op.toNat = code)
    (he : ∀ x y, encode (f x y) = ⟨.operation, BitVec.ofNat 8 code :: (put x ++ put' y)⟩) (hw : ∀ x y, wellFormed (f x y) = true)
    (h : ((take bs).andThen fun x bs => (take' bs).andThen fun y bs => .ok (f x y, bs)) = .ok (i, rest)) :
    Encodes .operation (op :: bs) i rest := by
  obtain ⟨x, b1, h1, h⟩ := andThen_eq_ok h
  obtain ⟨y, b2, h2, h⟩ := andThen_eq_ok h
  cases h
  exact ⟨by rw [he], by rw [he, byte_of_toNat hop, ht _ _ _ h1, ht' _ _ _ h2, List.cons_append, List.append_assoc], hw x y⟩

end Only

theorem takeOperation_only {bs rest : List Byte} {i : Instr} (h : takeOperation bs = .ok (i, rest)) :
    Encodes .operation bs i rest := by
  rcases bs with _ | ⟨op, bs⟩
  · cases h
  simp only [takeOperation] at h
  split at h <;> rename_i hop
  · obtain ⟨c, b1, h1, h⟩ := andThen_eq_ok h
    cases h
    obtain rfl := byte_of_toNat hop
    obtain ⟨rfl, hmap⟩ := takeCfg_only _ _ _ h1
    exact ⟨rfl, rfl, hmap⟩
  · exact encodes_zero hop rfl rfl h
  · exact takeLine_only.two takeBit_only hop (fun _ _ => rfl) (fun _ _ => rfl) h
  · exact takePattern_only.one hop (fun _ => rfl) (fun _ => rfl) h
  · exact takeDir_only.one hop (fun _ => rfl) (fun _ => rfl) h
  · exact takeNat_only.two takeTag_only hop (fun _ _ => rfl) (fun _ _ => rfl) h
  · exact encodes_zero hop rfl rfl h
  · exact takeNat_only.one hop (fun _ => rfl) (fun _ => rfl) h
  · exact takeByte_only.one hop (fun _ => rfl) (fun _ => rfl) h
  · obtain ⟨fs, b1, h1, h⟩ := andThen_eq_ok h
    split at h
    · cases h
      obtain rfl := byte_of_toNat hop
      obtain rfl := takeList_only takePattern_only _ _ _ h1
      exact ⟨rfl, rfl, ‹_›⟩
    · cases h
  · exact takeKind_only.one hop (fun _ => rfl) (fun _ => rfl) h
  · exact takePattern_only.two takeTag_only hop (fun _ _ => rfl) (fun _ _ => rfl) h
  · exact takeKind_only.two takeByte_only hop (fun _ _ => rfl) (fun _ _ => rfl) h
  · exact takeKind_only.two takeByte_only hop (fun _ _ => rfl) (fun _ _ => rfl) h
  · exact takeByte_only.one hop (fun _ => rfl) (fun _ => rfl) h
  · exact takeByte_only.one hop (fun _ => rfl) (fun _ => rfl) h
  · exact encodes_zero hop rfl rfl h
  · exact encodes_zero hop rfl rfl h
  · exact encodes_zero hop rfl rfl h
  · exact encodes_zero hop rfl rfl h
  · cases h

theorem takeWord8_only {bs rest : List Byte} {i : Instr} (h : takeWord8 bs = .ok (i, rest)) : Encodes .busWord8 bs i rest := by
  rcases bs with _ | ⟨lo, _ | ⟨hi, bs⟩⟩
  · cases h
  · cases h
  simp only [takeWord8] at h
  split at h <;> cases h <;> rename_i hhi <;> obtain rfl := byte_of_toNat hhi <;> exact ⟨rfl, rfl, rfl⟩

theorem takeWord4_only {bs rest : List Byte} {i : Instr} (h : takeWord4 bs = .ok (i, rest)) : Encodes .busWord4 bs i rest := by
  rcases bs with _ | ⟨b, bs⟩
  · cases h
  have word : ∀ k : Nibble, b.toNat / 16 = k.toNat → b :: bs = [k ++ b.setWidth 4] ++ bs := fun k hk => by
    rw [append_of_toNat_div hk]
    rfl
  simp only [takeWord4] at h
  split at h <;> rename_i hb <;> cases h
  · exact ⟨rfl, word 0 hb, rfl⟩
  · exact ⟨rfl, word 1 hb, rfl⟩
  · exact ⟨rfl, word 2 hb, rfl⟩
  · exact ⟨rfl, word 3 hb, rfl⟩

theorem takeInitFrame_only {bs rest : List Byte} {i : Instr} (h : takeInitFrame bs = .ok (i, rest)) :
    Encodes .initFrame bs i rest := by
  rcases bs with _ | ⟨b, bs⟩
  · cases h
  simp only [takeInitFrame] at h
  split_ifs at h with h30 h20 <;> cases h
  · exact ⟨rfl, by rw [h30]; rfl, rfl⟩
  · exact ⟨rfl, by rw [h20]; rfl, rfl⟩

theorem takeCommand_only {bs rest : List Byte} {i : Instr} (h : takeCommand bs = .ok (i, rest)) : Encodes .command bs i rest := by
  rcases bs with _ | ⟨b, bs⟩
  · cases h
  simp only [takeCommand] at h
  split_ifs at h with hfs hclear hhome hoff hmode <;> cases h
  · exact ⟨rfl, by simp only [encode, functionSetByte_of_class hfs]; rfl, rfl⟩
  · exact ⟨rfl, by rw [hclear]; rfl, rfl⟩
  · exact ⟨rfl, by simp only [encode, returnHomeByte_of_class hhome]; rfl, rfl⟩
  · exact ⟨rfl, by rw [hoff]; rfl, rfl⟩
  · exact ⟨rfl, by rw [hmode]; rfl, rfl⟩

/-- The decoder takes an instruction only from bytes that begin with its encoding. -/
theorem takeAt_only {l : Level} {bs rest : List Byte} {i : Instr} (h : takeAt l bs = .ok (i, rest)) : Encodes l bs i rest := by
  cases l with
  | operation => exact takeOperation_only h
  | busWord8 => exact takeWord8_only h
  | busWord4 => exact takeWord4_only h
  | initFrame => exact takeInitFrame_only h
  | command => exact takeCommand_only h

/-- The decoder takes a call where it reads an instruction and nothing is left. -/
theorem decode_eq_ok {c : Call} {i : Instr} (h : decode c = .ok i) : takeAt c.level c.bytes = .ok (i, []) := by
  unfold decode at h
  split at h <;> cases h
  assumption

/-- Settles O2: `takeAt_only` for each list of the table, with nothing left. -/
theorem decodedCallIsItsEncoding : Obligations.DecodedCallIsItsEncoding := by
  unfold Obligations.DecodedCallIsItsEncoding
  rintro ⟨l, bs⟩ i h
  obtain ⟨hl, hbs, hw⟩ := takeAt_only (decode_eq_ok h)
  exact ⟨congrArg₂ Call.mk hl (hbs.trans (List.append_nil _)).symm, hw⟩

end Sys2Proof
end

section
/-! PROOFS. Encoding (30_encoding.md), the bus: traces read back as bytes, public transfers, poll iterations and bus words run to their
end. -/

namespace Sys2Proof.Machine

/-! ### Nibbles and traces (R85, R86) -/

theorem joinNibbles_upper_lower (b : Byte) : joinNibbles (upperNibble b) (lowerNibble b) = b := by
  revert b
  decide

/-- Pairing the nibbles of packed bytes gives the bytes back, and leaves nothing over. -/
theorem pairNibbles_pack (bytes : List (Bit × Byte)) :
    pairNibbles (bytes.flatMap fun q => (pack q.2 .fourBit).map fun p => (q.1, p)) = (bytes, []) := by
  induction bytes with
  | nil => rfl
  | cons q bytes ih =>
    simp only [pack, List.map_cons, List.map_nil] at ih
    simp only [List.flatMap_cons, pack, List.map_cons, List.map_nil, List.cons_append, List.nil_append, pairNibbles, ih,
      joinNibbles_upper_lower]

/-- Settles O5: the init frames are the first four, and the rest pairs up (`pairNibbles_pack`). -/
theorem fourBitTraceReadsBackItsBytes : Obligations.FourBitTraceReadsBackItsBytes := by
  unfold Obligations.FourBitTraceReadsBackItsBytes
  intro init bytes hlen
  rw [readFourBitTrace, List.take_left' hlen, List.drop_left' hlen, pairNibbles_pack]

/-! ### How an operation of a free driver starts -/

/-- What a free driver runs when an operation has started, where no abort will come. -/
theorem Idle.live {s : State} {m : Instance} (hi : Idle s m) (ha : s.abortIn = none) (caller : Caller) (steps : List Act) :
    Live { s with cont := steps, caller := caller, ret := .nothing } m.cfg m.st steps :=
  ⟨hi.1, hi.2.2, ha, rfl⟩

theorem Phase.dead_iff (p : Phase) : p.dead = true ↔ (∃ o, p = .failed o) ∨ p = .aborted := by
  cases p <;> simp [Phase.dead]

theorem Phase.not_dead {p : Phase} (hf : ∀ o, p ≠ .failed o) (ha : p ≠ .aborted) : p.dead = false := by
  cases hd : p.dead
  · rfl
  · obtain ⟨o, ho⟩ | h := p.dead_iff.1 hd
    · exact absurd ho (hf o)
    · exact absurd h ha

theorem widthChange_iff (c : Cfg) (b : Byte) :
    widthChange c b = true ↔ b.extractLsb' 5 3 = 0b001#3 ∧ b.getLsbD 4 ≠ decide (c.width = .eightBit) := by
  have hw : (c.width == .eightBit) = decide (c.width = .eightBit) := rfl
  simp [widthChange, isFunctionSet, dlBit, hw]

section SendInstruction

variable {c : Cfg} {b : Byte} {s : St}

theorem sendInstructionFault_dead (h : s.phase.dead = true) : sendInstructionFault c b s = some .instanceDead := by
  simp [sendInstructionFault, h]

theorem sendInstructionFault_notReady (hd : s.phase.dead = false) (hr : s.phase ≠ .ready) :
    sendInstructionFault c b s = some .notReady := by
  simp [sendInstructionFault, hd, hr]

theorem sendInstructionFault_ready (hr : s.phase = .ready) :
    sendInstructionFault c b s = if widthChange c b then some .widthChangeRefused else none := by
  simp [sendInstructionFault, hr, Phase.dead]

end SendInstruction

/-- The public operation that transfers a byte of this kind (R137, R138). -/
def publicTransfer (b : Byte) : Kind → Instr
  | .instruction => .sendInstruction b
  | .data => .sendData b

/-- In Ready a public transfer starts, where the width guard lets its byte pass (R137 to R139). -/
theorem send_ready {s : State} {m : Instance} {k : Kind} {b : Byte} (hi : Idle s m) (hr : m.st.phase = .ready)
    (hb : k = .instruction → ¬ (b.extractLsb' 5 3 = 0b001#3 ∧ b.getLsbD 4 ≠ decide (m.cfg.width = .eightBit))) :
    exec (publicTransfer b k) s = .next { s with cont := sendSteps k b, caller := .publicOp, ret := .nothing } := by
  cases k with
  | instruction =>
    have hw : ¬ widthChange m.cfg b = true := (widthChange_iff _ _).not.2 (hb rfl)
    exact enter_idle hi _ _ _ ((sendInstructionFault_ready hr).trans (if_neg hw))
  | data => exact enter_idle hi _ _ _ (by simp [sendDataFault, hr, Phase.dead])

/-! ### Public transfers (R135 to R138) -/

theorem kindLevel_eq (k : Kind) : kindLevel k = (k == .data) := by cases k <;> rfl

theorem tSettle_eq (c : Cfg) (k : Kind) (b : Byte) : tSettle c k b =
    if k = .instruction ∧ (b = 0x01#8 ∨ b = 0x02#8 ∨ b = 0x03#8) then c.tSettleLong else c.tSettleCmd := by
  simp [tSettle, inLongSet, or_assoc]

/-- The frames of a transfer, with the level of its kind (R86, R133). -/
theorem pack_frames (c : Cfg) (k : Kind) (b : Byte) : (pack b c.width).map (fun p => (kindLevel k, p)) =
    (match c.width with
    | .eightBit => [(k == .data, .byte b)]
    | .fourBit => [(k == .data, .nibble (b.extractLsb' 4 4)), (k == .data, .nibble (b.extractLsb' 0 4))]) := by
  rw [kindLevel_eq]
  cases c.width <;> rfl

/-- Settles O30: the frames and the settle are `Live.transferFixed`, and `Live.finish` records the outcome. -/
theorem fixedDelayTransferSendsItsByte : Obligations.FixedDelayTransferSendsItsByte := by
  unfold Obligations.FixedDelayTransferSendsItsByte
  intro s m k b hi ha hp hc hrest hrs hg hq hb
  obtain ⟨t1, s1, w, r1, L1, S1, E1, B1, q1, f1, l1, n1⟩ :=
    Live.transferFixed (hi.live ha .publicOp (sendSteps k b)) hc ⟨hrest, hrs, hg, hq⟩
  obtain ⟨t2, n, r2, n2, ret2, calls2, answers2, L2⟩ := L1.finish S1.caller
  refine ⟨_, t2, _, w, s1.now, send_ready hi hp hb, r1.trans r2, L2.cont, L2.inst, ret2, rfl, calls2.trans S1.calls,
    answers2.trans S1.answers, congrArg (· ++ _) E1.trace, ?_, f1.trans (pack_frames _ _ _), rfl, L2.good, E1.phase.trans hp, B1.rest,
    q1.trans (congrArg some (kindLevel_eq k)), B1.gap.later rfl rfl n2, B1.settled.later rfl n2, E1.pollIter, E1.lastBF, ?_⟩
  · rw [l1]
    cases m.cfg.width <;> rfl
  · rw [← tSettle_eq]
    exact n1.trans n2

/-- Settles O31: the frames and the poll are `Live.transferEnds`, and `Live.finish` records the outcome. -/
theorem busyPollTransferSendsItsByte : Obligations.BusyPollTransferSendsItsByte := by
  unfold Obligations.BusyPollTransferSendsItsByte
  intro j s m k b l rest hi ha hp hc hrest hrs hg hq hb hj hl hx
  obtain ⟨t1, s1, r1, L1, a1, k1, B1, q1, p1, -, i1, f1, m1, w1, -, -⟩ :=
    Live.transferEnds j (hi.live ha .publicOp (sendSteps k b)) hc ⟨hrest, hrs, hg, hq⟩ (by rw [hp]; rfl) (by rw [hp]; rfl) hj hl hx
  obtain ⟨t2, n, r2, n2, ret2, -, answers2, L2⟩ := L1.finish k1
  refine ⟨_, t2, _, send_ready hi hp hb, r1.trans r2, L2.cont, L2.inst, ret2, rfl, answers2.trans a1, ?_, rfl, L2.good, p1.trans hp,
    B1.rest, q1, i1, f1, m1, B1.gap.later rfl rfl n2⟩
  calc writeFrames (s1.trace ++ [.outcome .ok s1.now])
    _ = writeFrames s1.trace := (writeFrames_append _ _).trans (List.append_nil _)
    _ = _ := w1.trans (congrArg _ (pack_frames _ _ _))

/-! ### Poll iterations (R193, R194) -/

theorem readCycles_append (w v : List Event) : readCycles (w ++ v) = readCycles w ++ readCycles v := List.filterMap_append

/-- A read cycle that draws the device's answer `x` (R193): what `Live.readCycle` gives, for a given answer. -/
theorem Live.readAnswer {s : State} {c : Cfg} {st : St} {keep : Bool} {rest : List Act} {r : Bit} {x : Byte} {more : List Byte}
    (h : Live s c st (Machine.readCycle c none keep ++ rest)) (he : st.e = some false) (hw : st.rw = some true)
    (hd : st.dir = some .inputWithPullup) (hr : st.rs = some r) (hg : GapOver c st) (hs : c.tSetup ≤ st.now - st.mon.lastChange)
    (hx : s.answers = x :: more) :
    ∃ t τ τ' n, Runs s t ∧ Live t c (st.afterRead (wiredPart c.width x) r τ τ' n) rest ∧ t.answers = more
      ∧ t.bf = (if keep then x.getLsbD 7 else s.bf) ∧ GapOver c (st.afterRead (wiredPart c.width x) r τ τ' n) ∧ st.now ≤ n := by
  obtain ⟨t, p, τ, τ', n, R, L, S, b1, b2, b3⟩ := h.readCycle he hw hd hr hg hs
  obtain ⟨-, ha, hp⟩ := S.drawn rfl
  obtain rfl := hp x more hx
  have hbit : db7 (wiredPart c.width x) = x.getLsbD 7 := by cases c.width <;> simp [wiredPart, db7, upperNibble]
  exact ⟨t, τ, τ', n, R, L, by rw [ha, hx]; rfl, by rw [S.bf, hbit], gapOver_afterRead b3, by omega⟩

/-- The samples that one iteration takes of the device's answers `x` and `y` (R193, R194). -/
def iterationSamples (w : Width) (x y : Byte) : List Pattern :=
  match w with
  | .eightBit => [.byte x]
  | .fourBit => [.nibble (upperNibble x), .nibble (upperNibble y)]

/-- What the read cycles of an iteration change of `St`: the samples' events, the time, and what the monitor holds of the edges. -/
structure Iterated (c : Cfg) (s t : St) (x y : Byte) : Prop where
  e : t.e = some false
  rs : t.rs = s.rs
  rw : t.rw = s.rw
  dir : t.dir = s.dir
  phase : t.phase = s.phase
  lastBF : t.lastBF = s.lastBF
  settle : t.mon.settle = s.mon.settle
  reads : readCycles t.trace = readCycles s.trace ++ iterationSamples c.width x y
  writes : writeFrames t.trace = writeFrames s.trace

/-- One iteration with any RS, in the middle of a byte too (R193, R194): its flag is DB7 of the first answer. -/
theorem Live.iterationSteps {s : State} {c : Cfg} {st : St} {rest : List Act} {r : Bit} {x y : Byte} {more : List Byte}
    (h : Live s c st (Machine.iterationSteps c ++ rest)) (he : st.e = some false) (hw : st.rw = some true)
    (hd : st.dir = some .inputWithPullup) (hr : st.rs = some r) (hg : GapOver c st) (hs : c.tSetup ≤ st.now - st.mon.lastChange)
    (hx : s.answers = x :: y :: more) :
    ∃ t st', Runs s t ∧ Live t c st' rest ∧ t.bf = x.getLsbD 7
      ∧ t.answers = (match c.width with | .eightBit => y :: more | .fourBit => more) ∧ Iterated c st st' x y := by
  unfold Machine.iterationSteps at h
  cases hwd : c.width with
  | eightBit =>
    rw [hwd] at h
    obtain ⟨t, τ, τ', n, R, L, ha, hb, -, -⟩ := h.readAnswer he hw hd hr hg hs hx
    refine ⟨t, _, R, L, hb, ha, he, rfl, rfl, rfl, rfl, rfl, rfl, ?_, ?_⟩
    · rw [hwd]
      exact readCycles_append _ _
    · exact (writeFrames_append _ _).trans (List.append_nil _)
  | fourBit =>
    rw [hwd] at h
    simp only [List.append_assoc] at h
    obtain ⟨t, τ, τ', n, R, L, ha, hb, hg1, hn⟩ := h.readAnswer he hw hd hr hg hs hx
    obtain ⟨t', σ, σ', n', R', L', ha', hb', -, -⟩ := L.readAnswer he hw hd hr hg1 (hs.trans (Nat.sub_le_sub_right hn _)) ha
    refine ⟨t', _, R.trans R', L', hb'.trans hb, ha', he, rfl, rfl, rfl, rfl, rfl, rfl, ?_, ?_⟩
    · rw [hwd]
      exact (readCycles_append _ _).trans ((congrArg (· ++ _) (readCycles_append _ _)).trans (List.append_assoc _ _ _))
    · exact (writeFrames_append _ _).trans ((List.append_nil _).trans ((writeFrames_append _ _).trans (List.append_nil _)))

theorem pollIteration_starts {s : State} {m : Instance} (hi : Idle s m) : exec .pollIteration s = .next { s with
    cont := iterationSteps m.cfg ++ [.giveFlag], caller := .internalOp, ret := .nothing } :=
  enter_idle hi .internalOp (fun _ => none) (fun m => iterationSteps m.cfg ++ [Act.giveFlag]) rfl

/-- Settles O33: the cycles are `Live.iterationSteps`, and `Live.giveFlag` returns the flag. -/
theorem pollIterationReturnsTheBusyFlag : Obligations.PollIterationReturnsTheBusyFlag := by
  unfold Obligations.PollIterationReturnsTheBusyFlag
  intro s m r x y rest hi ha he hw hd hr hg hs hx
  obtain ⟨t1, s1, r1, L1, b1, a1, I1⟩ :=
    (hi.live ha .internalOp (iterationSteps m.cfg ++ [.giveFlag])).iterationSteps he hw hd hr hg hs hx
  obtain ⟨t2, r2, L2, ret2, a2⟩ := L1.giveFlag
  rw [b1] at L2 ret2
  refine ⟨_, t2, _, pollIteration_starts hi, r1.trans r2, L2.cont, L2.inst, ret2, ?_, a2.trans a1, ?_⟩
  · split <;> exact I1.reads
  · split
    · exact ⟨I1.writes, L1.good, I1.e, I1.rw, I1.rs, I1.dir, I1.lastBF, rfl, I1.phase⟩
    · exact ⟨I1.writes, L1.good, I1.e, I1.rw, I1.rs, I1.dir, I1.lastBF, I1.settle, I1.phase⟩

/-! ### Bus words (R81 to R85) -/

/-- The tag of a word that is no init frame is that of a transfer's frame (R85). -/
theorem wordTag_of_initTag_none {m : Instance} {k : Kind} (p : Pattern)
    (h : k = .data ∨ initTag m.cfg.width (writeCount m.st.trace) = none) : wordTag m k p = transferTag m.st k p := by
  obtain rfl | hnone := h
  · rfl
  · simp only [wordTag, hnone]

/-- Under FourBit the four init frames come first (R85). -/
theorem initTag_fourBit_none {n : Nat} (h : 4 ≤ n) : initTag .fourBit n = none := by
  obtain ⟨k, rfl⟩ := Nat.exists_eq_add_of_le' h
  rfl

/-- A nibble where no upper one is pending is an upper one. -/
theorem transferTag_upper {s : St} (k : Kind) (n : Nibble) (hh : s.halfByte = false) :
    transferTag s k (.nibble n) = .innerNibble := by
  simp [transferTag, hh]

/-- A nibble where an upper one is pending ends the byte of the two. -/
theorem transferTag_lower {s : St} {r : Bit} {h : Nibble} (k : Kind) (n : Nibble) (hh : s.halfByte = true)
    (hl : (writeFrames s.trace).getLast? = some (r, .nibble h)) :
    transferTag s k (.nibble n) = .final k (joinNibbles h n) := by
  simp [transferTag, hh, lastNibble_eq hl]

/-- The write word of this kind and data (R81, R82). -/
def writeWordOf : Kind → Pattern → Instr
  | .instruction, .byte b => .iw8 b
  | .data, .byte b => .dw8 b
  | .instruction, .nibble n => .iw4 n
  | .data, .nibble n => .dw4 n

/-- The read word of this data (R83). -/
def readWordOf : Pattern → Instr
  | .byte b => .br8 b
  | .nibble n => .br4 n

theorem exec_writeWordOf (k : Kind) (p : Pattern) (s : State) : exec (writeWordOf k p) s = s.writeWord k p := by
  cases k <;> cases p <;> rfl

theorem exec_readWordOf (p : Pattern) (s : State) : exec (readWordOf p) s = s.readWord p := by
  cases p <;> rfl

section Words

variable {s : State} {m : Instance} {p : Pattern}

theorem writeWord_starts (hi : Idle s m) (k : Kind) (hp : p.width = m.cfg.width) :
    s.writeWord k p = .next { s with cont := writeWordSteps m k p, caller := .internalOp, ret := .nothing } :=
  (fitting_ok hi.1 (by simpa using hp) _).trans (enter_idle hi _ _ _ rfl)

theorem readWord_starts (hi : Idle s m) (hp : p.width = m.cfg.width) :
    s.readWord p = .next { s with cont := readWordSteps m.cfg p, caller := .internalOp, ret := .nothing } :=
  (fitting_ok hi.1 (by simpa using hp) _).trans (enter_idle hi _ _ _ rfl)

/-- A pattern of another width is refused (R92). -/
theorem fitting_refused (hm : s.inst = some m) {ps : List Pattern} (hp : p ∈ ps) (hw : p.width ≠ m.cfg.width) (go : Res) :
    s.fitting ps go = .refused .wrongWidth := by
  have hall : ¬ (ps.all fun q => q.width == m.cfg.width) = true := fun h => hw (beq_iff_eq.1 (List.all_eq_true.1 h p hp))
  simp only [State.fitting, hm]
  exact if_neg hall

end Words

/-- Settles O42: the levels are `Live.selectLines`, and the frame is `Live.sendFrame`; the word's tag says what `halfByte` becomes. -/
theorem writeWordPutsItselfOnTheBus : Obligations.WriteWordPutsItselfOnTheBus := by
  unfold Obligations.WriteWordPutsItselfOnTheBus
  intro s m k p i hi ha hp hword he hw hd hr hh hg hq
  have start : exec i s = _ := (congrArg (exec · s) hword).trans ((exec_writeWordOf k p s).trans (writeWord_starts hi k hp))
  rw [← kindLevel_eq] at hh ⊢
  obtain ⟨t1, n1, n2, r1, L1, S1, b1, b2⟩ := (hi.live ha .internalOp (writeWordSteps m k p)).selectLines he hw hr hh
  have hn : m.st.now ≤ n2 := b1.trans b2
  obtain ⟨t2, s2, τ, r2, L2, S2, F⟩ := L1.sendFrame (r := kindLevel k) he rfl hd rfl (hg.later rfl rfl hn) (hq.later rfl hn)
  refine ⟨_, t2, _, τ, start, r1.trans r2, L2.cont, L2.inst, F.sent.trace, rfl, L2.good, F.e, F.rs, F.rw, F.data, F.sent.phase,
    F.sent.result, fun hwd hpos => ?_⟩
  have hinit : k = .data ∨ initTag m.cfg.width (writeCount m.st.trace) = none := hpos.imp_right fun h4 => by
    rw [hwd, writeCount_eq]
    exact initTag_fourBit_none h4
  have hhalf : s2.halfByte = halfAfter m.st.halfByte (transferTag m.st k p) := wordTag_of_initTag_none p hinit ▸ F.half
  cases p with
  | byte b => cases hp.trans hwd
  | nibble n =>
    refine ⟨fun hlow => ?_, fun r h hpend hlast => ?_⟩
    · rw [hhalf, transferTag_upper k n hlow, halfAfter]
    · rw [hhalf, transferTag_lower k n hpend hlast, halfAfter]

/-- Settles O43: RS and RW are written, the setup is waited, and the cycle is `Live.readCycle` with the word as the device's answer. -/
theorem readWordPutsItselfOnTheBus : Obligations.ReadWordPutsItselfOnTheBus := by
  unfold Obligations.ReadWordPutsItselfOnTheBus
  intro s m p i hi ha hp hword he hw hr hd hh hg
  have start : exec i s = _ := (congrArg (exec · s) hword).trans ((exec_readWordOf p s).trans (readWord_starts hi hp))
  obtain ⟨t1, n1, r1, L1, S1, b1⟩ := (hi.live ha .internalOp (readWordSteps m.cfg p)).select (select_ok hr he hh)
  obtain ⟨t2, n2, r2, L2, S2, b2⟩ := L1.select (read_ok hw he hd)
  obtain ⟨t3, n3, r3, L3, S3, b3⟩ := L2.delay
  rw [St.setNow_setNow] at L3
  simp only [St.setNow_now] at b2 b3
  have hn : m.st.now ≤ n3 := by omega
  obtain ⟨t4, q, τ, τ', n, r4, L4, S4, -, -, -⟩ :=
    Live.readCycle (device := some p) (keep := false) (r := false) (rest := []) L3 he rfl hd rfl (hg.later rfl rfl hn)
      (by show m.cfg.tSetup ≤ n3 - n1; omega)
  obtain ⟨rfl, ha4⟩ := S4.given p rfl
  exact ⟨_, t4, _, τ, start, r1.trans (r2.trans (r3.trans r4)), L4.cont, L4.inst, S4.ret,
    ha4.trans (S3.answers.trans (S2.answers.trans S1.answers)), rfl, rfl, L4.good, he, rfl, rfl, rfl, rfl, rfl, rfl⟩

end Sys2Proof.Machine
end

section
/-! PROOFS. Encoding (30_encoding.md), the operations: the codec, how composites, bus words and command bytes expand and which faults they
raise, and how a call reaches `exec`. -/

namespace Sys2Proof.Machine

/-! ### Words (R81 to R87) -/

/-- Settles O3: each word is decoded by computation. -/
theorem wordsOfTheSpecDecode : Obligations.WordsOfTheSpecDecode := by
  unfold Obligations.WordsOfTheSpecDecode
  decide

theorem classify_iff (rs rw : Bit) :
    (classify rs rw = .iw ↔ rs = false ∧ rw = false) ∧ (classify rs rw = .dw ↔ rs = true ∧ rw = false)
      ∧ (classify rs rw = .br ↔ rs = false ∧ rw = true) ∧ (classify rs rw = .reserved ↔ rs = true ∧ rw = true) := by
  revert rs rw
  decide

theorem busWord_byte (rs rw : Bit) (b : Byte) : busWord rs rw (.byte b) = 0x200 * rs.toNat + 0x100 * rw.toNat + b.toNat := by
  cases rs <;> cases rw <;> rfl

theorem busWord_nibble (rs rw : Bit) (n : Nibble) : busWord rs rw (.nibble n) = 0x20 * rs.toNat + 0x10 * rw.toNat + n.toNat := by
  cases rs <;> cases rw <;> rfl

/-- Settles O4: the data are below the bit of RW, which is below that of RS. -/
theorem busWordHoldsItsFields : Obligations.BusWordHoldsItsFields := by
  unfold Obligations.BusWordHoldsItsFields
  intro rs rw
  have hrs := rs.toNat_lt
  have hrw := rw.toNat_lt
  refine ⟨fun b => ?_, fun n => ?_, classify_iff rs rw⟩
  · have hb := b.isLt
    rw [busWord_byte]
    omega
  · have hn := n.isLt
    rw [busWord_nibble]
    omega

/-- Settles O7: `pack` and `unpack` at the configured width. -/
theorem codecResults : Obligations.CodecResults := by
  unfold Obligations.CodecResults
  intro s m hm
  refine ⟨fun b => ?_, fun p hw => ?_, fun h l hw => ?_⟩
  · simp only [exec, execEncode, hm]
    cases m.cfg.width <;> rfl
  · simp only [exec, execDecode, hm, hw]
    rfl
  · simp only [exec, execDecode, hm, hw]
    rfl

/-- Settles O9: the width, the rows and the font each give one bit. -/
theorem functionSetByteTable : Obligations.FunctionSetByteTable := by
  unfold Obligations.FunctionSetByteTable
  intro c hrows
  obtain hr | hr := hrows <;> cases hw : c.width <;> cases hf : c.font <;> simp [fsByte, hr, hw, hf]

/-! ### Refusals (R92) -/

/-- Settles O44: no state is read. -/
theorem reservedWordRefused : Obligations.ReservedWordRefused := by
  unfold Obligations.ReservedWordRefused
  exact fun s => ⟨fun b => rfl, fun n => rfl⟩

/-- Settles O45: `fitting_refused`, and the same test in `decode`. -/
theorem wrongWidthRefused : Obligations.WrongWidthRefused := by
  unfold Obligations.WrongWidthRefused
  intro s m p tag hm hw
  have here : p ∈ [p] := List.mem_singleton_self p
  refine ⟨fitting_refused hm here hw _, fitting_refused hm here hw _, fun fs hp => ?_⟩
  have hall : ¬ (fs.all fun q => q.width == m.cfg.width) = true := fun h => hw (beq_iff_eq.1 (List.all_eq_true.1 h p hp))
  simp only [exec, execDecode, hm]
  exact if_neg hall

/-! ### Composite operations (R94) -/

/-- An operation whose guards find nothing starts its steps, however they are written. -/
theorem enter_starts {s : State} {m : Instance} {caller : Caller} {fault : Instance → Option ModelFault}
    {steps : Instance → List Act} {cont : List Act} (hi : Idle s m) (hf : fault m = none) (hs : steps m = cont) :
    s.enter caller fault steps = .next { s with cont := cont, caller := caller, ret := .nothing } :=
  hs ▸ enter_idle hi caller fault steps hf

section Pulse

variable {s : St}

/-- A line that a pulse reads and nothing has written is F6 (R115). -/
theorem pulseFault_unwritten (h : s.e = none ∨ s.rw = none ∨ s.dir = none) : ∃ l, pulseFault s = some (.unconfiguredLine l) := by
  unfold pulseFault
  split
  · exact ⟨_, rfl⟩
  split
  · exact ⟨_, rfl⟩
  split
  · exact ⟨_, rfl⟩
  · simp_all

/-- With its lines written, a pulse is F7 while Enable is high, and else F8 while a read is selected (R115). -/
theorem pulseFault_written (he : s.e ≠ none) (hw : s.rw ≠ none) (hd : s.dir ≠ none) : pulseFault s =
    if s.e = some true then some .enableNotLowAtFrameStart else if s.rw = some true then some .pulseInReadMode else none := by
  simp [pulseFault, he, hw, hd]

end Pulse

/-- Settles O25: `pulseFault` finds each fault where no earlier one applies. -/
theorem pulseEnableGuards : Obligations.PulseEnableGuards := by
  unfold Obligations.PulseEnableGuards
  intro s m t tag hi
  refine ⟨fun h => ?_, fun he hw hd => ?_, fun he hw hd => ?_, fun he hw hd => ?_⟩
  · obtain ⟨l, hl⟩ := pulseFault_unwritten h
    exact ⟨l, enter_raises hi _ _ _ hl⟩
  · exact enter_raises hi _ _ _ (by simp [pulseFault_written, he, hw, hd])
  · exact enter_raises hi _ _ _ (by simp [pulseFault_written, he, hw, hd])
  · exact enter_idle hi _ _ _ (by simp [pulseFault_written, he, hw, hd])

/-- Settles O28: neither operation has a guard, and each starts its expansion. -/
theorem transferAndSettleExpand : Obligations.TransferAndSettleExpand := by
  unfold Obligations.TransferAndSettleExpand
  intro s m k b hi
  refine ⟨enter_starts (fault := fun _ => none) hi rfl ?_, enter_starts (fault := fun _ => none) hi rfl ?_⟩
  · simp only [transferSteps, transferFrames]
    cases k <;> cases m.cfg.width <;> rfl
  · cases hs : m.cfg.strategy <;> simp [settleSteps, hs, tSettle_eq]

section Initialise

variable {s : St}

theorem initialiseFault_dead (h : s.phase.dead = true) : initialiseFault s = some .instanceDead := by
  simp [initialiseFault, h]

theorem initialiseFault_twice (hd : s.phase.dead = false) (hp : s.phase ≠ .poweringUp) :
    initialiseFault s = some .initializeTwice := by
  simp [initialiseFault, hd, hp]

theorem initialiseFault_poweringUp (hp : s.phase = .poweringUp) : initialiseFault s = none := by
  simp [initialiseFault, hp, Phase.dead]

end Initialise

/-- Settles O37: the guards of R160, and its sequence at each width. -/
theorem initialiseGuards : Obligations.InitialiseGuards := by
  unfold Obligations.InitialiseGuards
  intro s m hi
  refine ⟨fun hd => ?_, fun hf ha hp => ?_, fun hp => ?_⟩
  · exact enter_raises hi _ _ _ (initialiseFault_dead ((Phase.dead_iff _).2 hd))
  · exact enter_raises hi _ _ _ (initialiseFault_twice (Phase.not_dead hf ha) hp)
  · refine enter_starts hi (initialiseFault_poweringUp hp) ?_
    simp only [initialiseSteps, blindSteps, modeSteps, initPattern]
    cases m.cfg.width <;> rfl

/-! ### Bus words (R81 to R85) -/

/-- Under EightBit the first three instruction words are the blind attempts, and every later one is a transfer's (R85). -/
theorem wordTag_instruction_byte {m : Instance} (hw : m.cfg.width = .eightBit) (b : Byte) : wordTag m .instruction (.byte b) =
    (match (writeFrames m.st.trace).length with
    | 0 => .blind .first
    | 1 => .blind .second
    | 2 => .blind .third
    | _ => .final .instruction b) := by
  simp only [wordTag, hw, writeCount_eq]
  rcases (writeFrames m.st.trace).length with _ | _ | _ | _ | n <;> rfl

/-- Under FourBit the tag of an init frame by its position (R85). -/
theorem wordTag_instruction_init {m : Instance} {n : Nat} {tag : FallTag} (p : Pattern) (hn : (writeFrames m.st.trace).length = n)
    (ht : initTag m.cfg.width n = some tag) : wordTag m .instruction p = tag := by
  simp only [wordTag, writeCount_eq, hn, ht]

/-- The words of one width start their cycle. -/
theorem wordOf_starts {s : State} {m : Instance} {p : Pattern} (hi : Idle s m) (hp : p.width = m.cfg.width) :
    (∀ k, exec (writeWordOf k p) s = .next { s with cont := writeWordSteps m k p, caller := .internalOp, ret := .nothing })
      ∧ exec (readWordOf p) s = .next { s with cont := readWordSteps m.cfg p, caller := .internalOp, ret := .nothing } :=
  ⟨fun k => (exec_writeWordOf k p s).trans (writeWord_starts hi k hp), (exec_readWordOf p s).trans (readWord_starts hi hp)⟩

/-- The words of the other width are refused. -/
theorem wordOf_refused {s : State} {m : Instance} {p : Pattern} (hi : Idle s m) (hp : p.width ≠ m.cfg.width) :
    (∀ k, exec (writeWordOf k p) s = .refused .wrongWidth) ∧ exec (readWordOf p) s = .refused .wrongWidth :=
  have here : p ∈ [p] := List.mem_singleton_self p
  ⟨fun k => (exec_writeWordOf k p s).trans (fitting_refused hi.1 here hp _),
    (exec_readWordOf p s).trans (fitting_refused hi.1 here hp _)⟩

/-- Settles O41: the words start their cycle or are refused by their width, and R85's position gives the tag. -/
theorem busWordsStartTheirCycle : Obligations.BusWordsStartTheirCycle := by
  unfold Obligations.BusWordsStartTheirCycle
  intro s m hi
  refine ⟨fun hw b => ?_, fun hw n => ?_, fun hw b => ?_, fun hw n => ?_⟩
  · obtain ⟨hwrite, hread⟩ := wordOf_starts (p := .byte b) hi hw.symm
    refine ⟨(hwrite .instruction).trans ?_, (hwrite .data).trans ?_, hread⟩
    · rw [writeWordSteps, wordTag_instruction_byte hw]
      rfl
    · rw [writeWordSteps, wordTag_of_initTag_none _ (.inl rfl)]
      rfl
  · obtain ⟨hwrite, hread⟩ := wordOf_starts (p := .nibble n) hi hw.symm
    refine ⟨⟨_, hwrite .instruction, fun h0 => ?_, fun h1 => ?_, fun h2 => ?_, fun h3 => ?_, fun h4 => ?_⟩, ⟨_, hwrite .data, ?_⟩,
      hread⟩
    · exact wordTag_instruction_init _ h0 rfl
    · exact wordTag_instruction_init _ h1 rfl
    · exact wordTag_instruction_init _ h2 rfl
    · exact wordTag_instruction_init _ h3 (by rw [hw]; rfl)
    · have hnone : initTag m.cfg.width (writeCount m.st.trace) = none := by
        rw [hw, writeCount_eq]
        exact initTag_fourBit_none h4
      rw [wordTag_of_initTag_none _ (.inr hnone)]
      exact ⟨transferTag_upper _ n, fun r h => transferTag_lower _ n⟩
    · rw [wordTag_of_initTag_none _ (.inl rfl)]
      exact ⟨transferTag_upper _ n, fun r h => transferTag_lower _ n⟩
  · obtain ⟨hwrite, hread⟩ := wordOf_refused (p := .byte b) hi (by rw [hw]; nofun)
    exact ⟨hwrite .instruction, hwrite .data, hread⟩
  · obtain ⟨hwrite, hread⟩ := wordOf_refused (p := .nibble n) hi (by rw [hw]; nofun)
    exact ⟨hwrite .instruction, hwrite .data, hread⟩

/-! ### Command bytes (R89, R137) -/

section Command

variable {s : State} {m : Instance} {here : Instance → Bool} {steps : Instance → List Act} {b : Instance → Byte}

/-- In the phase whose step sends it, a command byte starts that step. -/
theorem command_here {cont : List Act} (hi : Idle s m) (hh : here m = true) (hs : steps m = cont) :
    s.command here steps b = .next { s with cont := cont, caller := .publicOp, ret := .nothing } :=
  enter_starts hi (if_pos hh) ((if_pos hh).trans hs)

/-- Elsewhere it is sent, where the guards of `sendInstruction` let it pass. -/
theorem command_sent (hi : Idle s m) (hh : here m = false) (hf : sendInstructionFault m.cfg (b m) m.st = none) :
    s.command here steps b
      = .next { s with cont := [.transfer .instruction (b m), .finish .ok], caller := .publicOp, ret := .nothing } :=
  enter_starts hi (by simp [hh, hf]) (by simp [hh, sendSteps])

/-- Elsewhere it raises what the guards of `sendInstruction` find. -/
theorem command_raises {f : ModelFault} (hi : Idle s m) (hh : here m = false)
    (hf : sendInstructionFault m.cfg (b m) m.st = some f) : s.command here steps b = .next (s.raise m f) :=
  enter_raises hi _ _ _ (by simp [hh, hf])

end Command

/-- Settles O46: each byte in its phase is `command_here`. -/
theorem commandByteRunsItsInitStep : Obligations.CommandByteRunsItsInitStep := by
  unfold Obligations.CommandByteRunsItsInitStep
  intro s m hi
  refine ⟨fun k hp => command_here hi ?_ ?_, fun hp hw => command_here hi ?_ ?_, fun dl n f x hp hb => command_here hi ?_ rfl,
    fun hp => command_here hi ?_ rfl, fun hp => command_here hi ?_ rfl, fun hp => command_here hi ?_ rfl⟩
  · simp [hp, Phase.attempt]
  · simp only [hp, Phase.attempt, blindSteps, initPattern]
    cases m.cfg.width <;> cases k <;> rfl
  · simp [hp, hw]
  · simp only [modeSteps, hw]
    rfl
  · simp [hp, hb]
  · simp [hp]
  · simp [hp]
  · simp [hp]

/-- The instruction answers as `sendInstruction` of the byte does (R137): the guards in Ready, in another phase, and in a dead one. -/
structure SentAsInstruction (s : State) (m : Instance) (i : Instr) (b : Byte) : Prop where
  sent : m.st.phase = .ready → widthChange m.cfg b ≠ true →
    exec i s = .next { s with cont := [.transfer .instruction b, .finish .ok], caller := .publicOp, ret := .nothing }
  guarded : m.st.phase = .ready → widthChange m.cfg b = true → exec i s = .next (s.raise m .widthChangeRefused)
  notReady : m.st.phase.dead = false → m.st.phase ≠ .ready → exec i s = .next (s.raise m .notReady)
  dead : m.st.phase.dead = true → exec i s = .next (s.raise m .instanceDead)

theorem attempt_isSome_eq_false {p : Phase} (h : ∀ k, p ≠ .blindInit k) : p.attempt.isSome = false := by
  cases p with
  | blindInit k => exact absurd rfl (h k)
  | _ => rfl

section Elsewhere

variable {s : State} {m : Instance} (hi : Idle s m)
include hi

/-- A command byte whose own step does not run here. -/
theorem command_elsewhere {i : Instr} {here : Instance → Bool} {steps : Instance → List Act} {b : Instance → Byte} {byte : Byte}
    (hx : exec i s = s.command here steps b) (hh : here m = false) (hb : b m = byte) : SentAsInstruction s m i byte := by
  subst hb
  exact {
    sent := fun hr hw => hx.trans (command_sent hi hh ((sendInstructionFault_ready hr).trans (if_neg hw)))
    guarded := fun hr hw => hx.trans (command_raises hi hh ((sendInstructionFault_ready hr).trans (if_pos hw)))
    notReady := fun hd hr => hx.trans (command_raises hi hh (sendInstructionFault_notReady hd hr))
    dead := fun hd => hx.trans (command_raises hi hh (sendInstructionFault_dead hd)) }

theorem init8Bit_elsewhere (h : ∀ k, m.st.phase ≠ .blindInit k) : SentAsInstruction s m .init8Bit init8BitByte :=
  command_elsewhere hi rfl (attempt_isSome_eq_false h) rfl

theorem mode4Bit_elsewhere (h : ¬ (m.st.phase = .modeSelecting ∧ m.cfg.width = .fourBit)) :
    SentAsInstruction s m .mode4Bit mode4BitByte :=
  command_elsewhere hi rfl (by simpa using h) rfl

theorem functionSet_elsewhere {dl n f : Bit} {x : BitVec 2}
    (h : ¬ (m.st.phase = .functionSetting ∧ functionSetByte dl n f x = fsByte m.cfg)) :
    SentAsInstruction s m (.functionSet dl n f x) (functionSetByte dl n f x) :=
  command_elsewhere hi rfl (by simpa using h) rfl

theorem clear_elsewhere (h : m.st.phase ≠ .clearing) : SentAsInstruction s m .clear clearByte :=
  command_elsewhere hi rfl (by simpa using h) rfl

theorem returnHome_elsewhere (x : Bit) : SentAsInstruction s m (.returnHome x) (returnHomeByte x) :=
  command_elsewhere hi rfl rfl rfl

theorem displayOffByte_elsewhere (h : m.st.phase ≠ .displayConfiguring) :
    SentAsInstruction s m .displayOffByte m.cfg.displayOffByte :=
  command_elsewhere hi rfl (by simpa using h) rfl

theorem entryModeByte_elsewhere (h : m.st.phase ≠ .entryModeSetting) :
    SentAsInstruction s m .entryModeByte m.cfg.entryModeByte :=
  command_elsewhere hi rfl (by simpa using h) rfl

end Elsewhere

/-- A function-set command changes the width where its DL is not the configured one (R139). -/
theorem widthChange_functionSetByte (c : Cfg) (dl n f : Bit) (x : BitVec 2) :
    widthChange c (functionSetByte dl n f x) = true ↔ dl ≠ decide (c.width = .eightBit) := by
  obtain ⟨hclass, hdl, -⟩ := functionSetByte_fields dl n f x
  rw [widthChange_iff, hclass, hdl]
  simp

/-- `INIT_8BIT` changes the width under FourBit, and `MODE_4BIT` under EightBit (R89, R139). -/
theorem widthChange_initBytes (c : Cfg) :
    (widthChange c init8BitByte = true ↔ c.width = .fourBit) ∧ (widthChange c mode4BitByte = true ↔ c.width = .eightBit) := by
  cases hw : c.width <;> simp only [widthChange, hw] <;> decide

/-- The clear and return-home bytes are no function sets (R89). -/
theorem widthChange_plainBytes (c : Cfg) (x : Bit) : widthChange c clearByte = false ∧ widthChange c (returnHomeByte x) = false := by
  cases x <;> exact ⟨rfl, rfl⟩

/-- Settles O47: outside the phase of its own step each byte is sent as an instruction, and the width guard is that of its byte. -/
theorem commandByteInReadyIsSent : Obligations.CommandByteInReadyIsSent := by
  unfold Obligations.CommandByteInReadyIsSent
  intro s m hi
  refine ⟨fun hr => ?_, fun hf ha hr => ?_, fun hdead i hmem => ?_⟩
  · have other : ∀ {p : Phase}, Phase.ready ≠ p → m.st.phase ≠ p := fun h => hr ▸ h
    have hinit := init8Bit_elsewhere hi fun k => other nofun
    have hmode := mode4Bit_elsewhere hi fun h => other (p := .modeSelecting) nofun h.1
    have hset : ∀ dl n f x, SentAsInstruction s m (.functionSet dl n f x) (functionSetByte dl n f x) :=
      fun _ _ _ _ => functionSet_elsewhere hi fun h => other (p := .functionSetting) nofun h.1
    obtain ⟨hwinit, hwmode⟩ := widthChange_initBytes m.cfg
    refine ⟨fun i b h => ?_, ?_, fun x => ?_, fun dl n f x hdl => ?_, fun dl n f x hdl => ?_, fun hw => ?_, fun hw => ?_, fun hw => ?_,
      fun hw => ?_⟩
    · have hib : SentAsInstruction s m i b := by
        obtain ⟨rfl, rfl⟩ | ⟨rfl, rfl⟩ := h
        · exact displayOffByte_elsewhere hi (other nofun)
        · exact entryModeByte_elsewhere hi (other nofun)
      rw [← widthChange_iff]
      exact ⟨hib.sent hr, hib.guarded hr⟩
    · exact (clear_elsewhere hi (other nofun)).sent hr (by simp [widthChange_plainBytes m.cfg true])
    · exact (returnHome_elsewhere hi x).sent hr (by simp [widthChange_plainBytes m.cfg x])
    · exact (hset dl n f x).sent hr ((widthChange_functionSetByte _ _ _ _ _).not.2 (not_not.2 hdl))
    · exact (hset dl n f x).guarded hr ((widthChange_functionSetByte _ _ _ _ _).2 hdl)
    · exact hinit.sent hr (hwinit.not.2 (by rw [hw]; nofun))
    · exact hinit.guarded hr (hwinit.2 hw)
    · exact hmode.sent hr (hwmode.not.2 (by rw [hw]; nofun))
    · exact hmode.guarded hr (hwmode.2 hw)
  · have hd := Phase.not_dead hf ha
    exact ⟨fun h => (init8Bit_elsewhere hi h).notReady hd hr, fun h => (mode4Bit_elsewhere hi h).notReady hd hr,
      fun _ _ _ _ h => (functionSet_elsewhere hi h).notReady hd hr, fun h => (clear_elsewhere hi h).notReady hd hr,
      fun x => (returnHome_elsewhere hi x).notReady hd hr, fun h => (displayOffByte_elsewhere hi h).notReady hd hr,
      fun h => (entryModeByte_elsewhere hi h).notReady hd hr⟩
  · have hd : m.st.phase.dead = true := (Phase.dead_iff _).2 hdead
    have other : ∀ {p : Phase}, p.dead = false → m.st.phase ≠ p := fun hp h => by rw [h, hp] at hd; cases hd
    obtain hmem | ⟨x, rfl⟩ | ⟨dl, n, f, x, rfl⟩ := hmem
    · simp only [List.mem_cons, List.not_mem_nil, or_false] at hmem
      obtain rfl | rfl | rfl | rfl | rfl := hmem
      · exact (init8Bit_elsewhere hi fun k => other rfl).dead hd
      · exact (mode4Bit_elsewhere hi fun h => other rfl h.1).dead hd
      · exact (clear_elsewhere hi (other rfl)).dead hd
      · exact (displayOffByte_elsewhere hi (other rfl)).dead hd
      · exact (entryModeByte_elsewhere hi (other rfl)).dead hd
    · exact (returnHome_elsewhere hi x).dead hd
    · exact (functionSet_elsewhere hi fun h => other rfl h.1).dead hd

/-! ### Calls -/

/-- Settles O51: a call that decodes is `step_call`, and one that does not is refused by the same fetch. -/
theorem stepRunsTheDecodedCall : Obligations.StepRunsTheDecodedCall := by
  unfold Obligations.StepRunsTheDecodedCall
  intro s c rest ha hc hk
  refine ⟨fun i hd => step_call ha hc hk hd, fun e hd => ?_⟩
  simp [step, State.abortNow, ha, State.nextAct, hc, State.fetch, hk, hd]

theorem decode_tableCall {nbits w : Nat} {i : Instr} (h : decodeTableWord nbits w = some i) :
    decode (tableCall nbits w) = .ok i := by
  unfold decodeTableWord at h
  split at h <;> cases h
  assumption

/-- Settles O52: the word's call is the host's first, so `step_call` makes it. -/
theorem fetchWordRunsNext : Obligations.FetchWordRunsNext := by
  unfold Obligations.FetchWordRunsNext
  intro s nbits w i h
  have ha : (s.withFetchWord nbits w).abortIn ≠ some 0 := by
    simp only [State.withFetchWord, State.withCall]
    split
    · nofun
    · assumption
  exact step_call ha rfl rfl (decode_tableCall h)

end Sys2Proof.Machine
end

section
/-! PROOFS. BusTransport (40_bus_transport.md): each micro-step has its effect or raises the first of its faults; `configureLines`,
`pulseEnable` and `writeFrame` run to their end. -/

namespace Sys2Proof.Machine

/-! ### Micro-steps called by themselves -/

/-- A free driver has made one micro-step that leaves `st`, and time has passed (R10). -/
def State.taken (s : State) (m : Instance) (st : St) : State :=
  { s with
    inst := some { m with st := st.setNow (st.now + s.nextDelay) }
    ret := .nothing
    delays := s.delays.tail
    draws := s.draws + 1 }

/-- What `State.once` runs, without a fault. -/
theorem micro_takes (s : State) (m : Instance) (eff : St) :
    State.micro { s with ret := .nothing } m none eff = .next (s.taken m eff) := by
  simp only [State.micro, State.commit, Nat.zero_add]
  rfl

/-- What `State.once` runs, with a fault (R220). -/
theorem micro_raises (s : State) (m : Instance) (f : ModelFault) (eff : St) :
    State.micro { s with ret := .nothing } m (some f) eff = .next (s.raise m f) := rfl

theorem setControlLine_takes {s : State} {m : Instance} {l : CtrlLine} {v : Bit} {eff : St} (hi : Idle s m)
    (hf : lineFault m.cfg l v m.st = none) (he : lineEffect m.cfg l v m.st = eff) :
    exec (.setControlLine l v) s = .next (s.taken m eff) := by
  simp only [exec, execSetControlLine, once_idle hi, hf, he, micro_takes]

theorem selectRegister_eq (k : Kind) (s : State) :
    exec (.selectRegister k) s = exec (.setControlLine .rs (kindLevel k)) s := rfl

/-- Settles O13: where R112 finds no fault, the line is written; `selectRegister` is `setControlLine` of RS. -/
theorem controlLineGetsItsLevel : Obligations.ControlLineGetsItsLevel := by
  unfold Obligations.ControlLineGetsItsLevel
  intro s m v hi he
  refine ⟨fun i hreg hr hh => ?_, fun hw hd => ?_, fun k => ?_⟩
  · have hf : lineFault m.cfg .rs v m.st = none := by simpa [lineFault_rs _ _ _ hr, he] using hh
    have h := setControlLine_takes hi hf rfl
    obtain rfl | ⟨rfl, rfl⟩ | ⟨rfl, rfl⟩ := hreg
    · exact h
    · exact (selectRegister_eq .data s).trans h
    · exact (selectRegister_eq .instruction s).trans h
  · have hf : lineFault m.cfg .rw v m.st = none := by
      cases v with
      | false => simp [lineFault_rw _ _ _ hw, he]
      | true => simp [lineFault_rw _ _ _ hw, he, hd rfl]
    exact (setControlLine_takes hi hf rfl :)
  · rw [selectRegister_eq]
    cases k <;> rfl

section Enable

variable (c : Cfg) {v : Bit} {s : St}

/-- Writing Enable at its level is no edge: no fault, and nothing is recorded (R112). -/
theorem lineFault_enableAt (h : s.e = some v) : lineFault c .e v s = none := by
  cases v <;> simp [lineFault, unwrittenLine, St.line, h]

theorem lineEffect_enableAt (h : s.e = some v) : lineEffect c .e v s = s := by
  have hsame : ({ s with e := some v } : St) = s := by rw [← h]
  cases v <;> simpa [lineEffect, h] using hsame

/-- A rise records its cycle's kind (R243), and that of a write cycle resets the settle obligation (R251). -/
theorem rise_of_cycleKind {k : CycleKind} (hk : s.cycleKind = k) : s.rise = { s with
    e := some true
    mon := { s.mon with
      riseAt := some s.now, riseKind := some k, anyRise := true
      settle := if k = .write then .noSettle else s.mon.settle } } := by
  subst hk
  rfl

/-- A write pulse's fall leaves what R112 and R253 give. -/
theorem fall_write {r : Bit} {p : Pattern} (hk : s.mon.riseKind = some .write) (hr : s.rs = some r) (hp : s.data = some p) :
    s.fall c = { s with
      e := some false, trace := s.trace ++ [.wFrame r p s.now], halfByte := s.halfAfterPulse
      mon := { s.mon with
        riseAt := none, riseKind := none, lastFall := some (s.now, s.mon.curTag), settle := s.settleAfterFall c } } := by
  simp only [St.fall, hk, if_true, St.pulseEvent, hr, hp]

theorem fall_read (hk : s.mon.riseKind = some .read) :
    s.fall c = { s with
      e := some false, mon := { s.mon with riseAt := none, riseKind := none, lastFall := some (s.now, .read) } } := by
  simp [St.fall, hk]

theorem settleAfterFall_eq (s : St) : s.settleAfterFall c =
    (match s.mon.curTag, c.strategy with
    | .final k b, .fixedDelay => .untilTime (s.now +
        (if k = .instruction ∧ (b = 0x01#8 ∨ b = 0x02#8 ∨ b = 0x03#8) then c.tSettleLong else c.tSettleCmd))
    | .final _ _, .busyPoll => .untilBusyClear
    | _, _ => s.mon.settle) := by
  unfold St.settleAfterFall
  cases s.mon.curTag <;> cases c.strategy <;> simp [tSettle_eq]

end Enable

/-- Settles O14: an Enable write without an edge has no fault and no effect. -/
theorem enableAtItsLevelHasNoEdge : Obligations.EnableAtItsLevelHasNoEdge := by
  unfold Obligations.EnableAtItsLevelHasNoEdge
  intro s m v hi he
  exact (setControlLine_takes hi (lineFault_enableAt _ he) (lineEffect_enableAt _ he) :)

/-- Settles O15: the monitor finds no fault (`riseFault_none`), and RW gives the cycle's kind. -/
theorem enableRises : Obligations.EnableRises := by
  unfold Obligations.EnableRises
  intro s m hi he hg hs
  refine ⟨fun hw => ?_, fun hw hd hq => ?_⟩
  · have hk : m.st.cycleKind = .read := by simp [St.cycleKind, hw]
    have hf : lineFault m.cfg .e true m.st = none := rise_ok he (.inl hw) (riseFault_none hg hs (.inl hk))
    exact (setControlLine_takes hi hf ((lineEffect_rise he).trans (rise_of_cycleKind hk)) :)
  · have hk : m.st.cycleKind = .write := by simp [St.cycleKind, hw]
    have hf : lineFault m.cfg .e true m.st = none := rise_ok he (.inr ⟨hw, hd⟩) (riseFault_none hg hs (.inr hq))
    exact (setControlLine_takes hi hf ((lineEffect_rise he).trans (rise_of_cycleKind hk)) :)

/-- Settles O16: the pulse is long enough (`fall_ok`), and its fall is `fall_write`. -/
theorem writePulseFallEmitsItsFrame : Obligations.WritePulseFallEmitsItsFrame := by
  unfold Obligations.WritePulseFallEmitsItsFrame
  intro s m r p tr hi he hk hr hp ht hw
  have heff := (lineEffect_fall (c := m.cfg) he).trans (fall_write _ hk hr hp)
  rw [settleAfterFall_eq] at heff
  exact (setControlLine_takes hi (fall_ok he hk hr hp ht hw) heff :)

/-- Settles O17: the fall of a read cycle is `fall_read`. -/
theorem readPulseFallIsRecorded : Obligations.ReadPulseFallIsRecorded := by
  unfold Obligations.ReadPulseFallIsRecorded
  intro s m hi he hk
  exact (setControlLine_takes hi (read_fall_ok he hk) ((lineEffect_fall he).trans (fall_read _ hk)) :)

section DataLines

variable {s : State} {m : Instance} {p : Pattern}

/-- `setDataLines` of a pattern that fits is one micro-step. -/
theorem setDataLines_micro (hi : Idle s m) (hp : p.width = m.cfg.width) :
    exec (.setDataLines p) s = State.micro { s with ret := .nothing } m (dataFault m.st) (dataEffect p m.st) :=
  (fitting_ok hi.1 (by simpa using hp) _).trans (once_idle hi _)

theorem setDataLines_takes (hi : Idle s m) (hp : p.width = m.cfg.width) (hf : dataFault m.st = none) :
    exec (.setDataLines p) s = .next (s.taken m (dataEffect p m.st)) := by
  rw [setDataLines_micro hi hp, hf, micro_takes]

theorem setDataLines_raises (hi : Idle s m) (hp : p.width = m.cfg.width) {f : ModelFault} (hf : dataFault m.st = some f) :
    exec (.setDataLines p) s = .next (s.raise m f) := by
  rw [setDataLines_micro hi hp, hf, micro_raises]

end DataLines

/-- Settles O20: `dataFault` finds F6, F9 and F11 in this order. -/
theorem dataLinesGetTheirPattern : Obligations.DataLinesGetTheirPattern := by
  unfold Obligations.DataLinesGetTheirPattern
  intro s m p hi hp
  refine ⟨fun hd he => ?_, fun hd => ?_, fun hd he => ?_, fun hd he => ?_⟩
  · exact setDataLines_takes hi hp (by simp [dataFault, hd, he])
  · exact setDataLines_raises hi hp (by simp [dataFault, hd])
  · exact setDataLines_raises hi hp (by simp [dataFault, hd, he])
  · exact setDataLines_raises hi hp (by simp [dataFault, hd, he])

section Direction

variable {s : State} {m : Instance} {d : Dir}

theorem setDataDirection_direct (hi : Idle s m) (d : Dir) :
    exec (.setDataDirection d) s = State.direct { s with ret := .nothing } m d :=
  once_idle hi fun m t => t.direct m d

/-- Without a change to Output no draw of the latch is taken. -/
theorem setDataDirection_undrawn (hi : Idle s m) (hc : ¬ (directionFault d m.st = none ∧ d = .output ∧ m.st.dir ≠ some d)) :
    exec (.setDataDirection d) s = State.micro { s with ret := .nothing } m (directionFault d m.st)
      (directionEffect d (wiredPart m.cfg.width s.nextLatch) m.st) := by
  rw [setDataDirection_direct hi, State.direct, if_neg hc]
  rfl

theorem setDataDirection_raises (hi : Idle s m) {f : ModelFault} (hf : directionFault d m.st = some f) :
    exec (.setDataDirection d) s = .next (s.raise m f) := by
  rw [setDataDirection_undrawn hi (by simp [hf]), hf, micro_raises]

theorem setDataDirection_takes {eff : St} (hi : Idle s m) (hf : directionFault d m.st = none)
    (hd : ¬ (d = .output ∧ m.st.dir ≠ some d))
    (he : directionEffect d (wiredPart m.cfg.width s.nextLatch) m.st = eff) :
    exec (.setDataDirection d) s = .next (s.taken m eff) := by
  rw [setDataDirection_undrawn hi fun h => hd h.2, hf, he, micro_takes]

/-- A change to Output takes a draw of the latch. -/
theorem setDataDirection_latches {eff : St} (hi : Idle s m) (hf : directionFault .output m.st = none)
    (hd : m.st.dir ≠ some .output) (he : directionEffect .output (wiredPart m.cfg.width s.nextLatch) m.st = eff) :
    exec (.setDataDirection .output) s = .next (s.latchUsed.taken m eff) := by
  rw [setDataDirection_direct hi, State.direct, if_pos ⟨hf, rfl, hd⟩, hf, ← he]
  exact micro_takes s.latchUsed m _

theorem directionEffect_same (x : Pattern) {st : St} (h : st.dir = some d) : directionEffect d x st = st := if_pos h

theorem directionEffect_change (x : Pattern) {st : St} (h : st.dir ≠ some d) : directionEffect d x st =
    { st with
      data := if d = .output then some x else st.data
      dir := some d
      trace := st.trace ++ [.dirChange d st.now] } := if_neg h

end Direction

/-- Settles O21: `directionFault` finds F6, F9 and F12 in this order; only a change to Output takes a draw of the latch. -/
theorem dataDirectionChanges : Obligations.DataDirectionChanges := by
  unfold Obligations.DataDirectionChanges
  intro s m d hi
  refine ⟨fun hdir he hw => ?_, fun hdir => ?_, fun hdir he => ?_, fun hdir he hw => ?_⟩
  · have hf : directionFault d m.st = none := by simpa [directionFault, hdir, he] using hw
    refine ⟨fun hd => ?_, fun hd hin => ?_, fun hd hout => ?_⟩
    · exact (setDataDirection_takes hi hf (fun h => h.2 hd) (directionEffect_same _ hd) :)
    · subst hin
      exact (setDataDirection_takes hi hf (fun h => nomatch h.1) (directionEffect_change _ hd) :)
    · subst hout
      have h := setDataDirection_latches hi hf hd (directionEffect_change _ hd)
      exact ⟨_, _, _, h, wiredPart_width _ _, rfl, hi.2.1, rfl, rfl, rfl, rfl, rfl, rfl⟩
  · exact setDataDirection_raises hi (by simp [directionFault, hdir])
  · exact setDataDirection_raises hi (by simp [directionFault, hdir, he])
  · exact setDataDirection_raises hi (by simp [directionFault, hdir, he, hw])

/-- Settles O23: the wait is committed with its argument and the next draw. -/
theorem waitLastsAtLeastItsArgument : Obligations.WaitLastsAtLeastItsArgument := by
  unfold Obligations.WaitLastsAtLeastItsArgument
  intro s m d hi
  have h : exec (.wait d) s = .next (State.commit { s with ret := .nothing } m m.st d) :=
    once_idle hi fun m t => .next (t.commit m m.st d)
  refine ⟨_, d + s.nextDelay, h, Nat.le_add_right _ _, rfl, hi.2.1, rfl, rfl, rfl, rfl, fun x rest hx => ⟨?_, ?_⟩⟩
  · rw [State.nextDelay, hx]
  · simp [hx]

/-! ### Runs of a composite called by itself -/

/-- A run that goes on from `s` goes on from the state one step after it. -/
theorem Runs.tail {s t u : State} (h : Runs s t) (hu : step s = .next u) (hne : s ≠ t) : Runs u t := by
  obtain ⟨n, hn⟩ := h
  cases n with
  | zero =>
    cases hn
    exact absurd rfl hne
  | succ n =>
    have hu' : core.step s = .next u := hu
    refine ⟨n, ?_⟩
    simpa only [Host.Core.run, hu'] using hn

/-- What a run does with a composite at the head of the continuation, it does with the composite's steps (R94). -/
theorem Live.runs_expanded {s t : State} {c : Cfg} {st : St} {a : Act} {steps : List Act} (h : Live s c st [a])
    (ha : ∀ u : State, act a ⟨c, st⟩ u = .next (u.push steps)) (hr : Runs s t) (ht : t.cont = []) :
    Runs { s with cont := steps } t := by
  have hstep : Machine.step s = .next { s with cont := steps } := by
    simpa [State.push] using h.step.trans (ha _)
  refine hr.tail hstep fun heq => ?_
  rw [← heq, h.cont] at ht
  cases ht

/-- The micro-steps of `configureLines` (R111): Enable is not high before the first, so none finds a fault. -/
theorem Live.configure {s : State} {c : Cfg} {st : St} {rest : List Act} (h : Live s c st (configureSteps ++ rest))
    (he : st.e ≠ some true) :
    ∃ t lc n, Runs s t
      ∧ Live t c ((configDataEffect c.width { st with e := some false, rs := some false, rw := some false, now := lc }).setNow n) rest
      ∧ Same s t ∧ st.now ≤ lc ∧ lc ≤ n := by
  obtain ⟨t1, n1, r1, L1, S1, b1⟩ := Live.micro (a := .configE) h (fun _ => rfl) (if_neg he) (by exact h.good)
  obtain ⟨t2, n2, r2, L2, S2, b2⟩ := L1.micro (fun _ => rfl) rfl (by exact h.good)
  obtain ⟨t3, n3, r3, L3, S3, b3⟩ := L2.micro (fun _ => rfl) rfl (by exact h.good)
  obtain ⟨t4, n4, r4, L4, S4, b4⟩ := L3.micro (fun _ => rfl) rfl (by exact h.good)
  exact ⟨t4, n3, n4, r1.trans (r2.trans (r3.trans r4)), L4, S1.trans (S2.trans (S3.trans S4)),
    Nat.le_trans b1 (Nat.le_trans b2 b3), b4⟩

/-- Settles O24: `Live.configure`; only the guard of F9 comes before it. -/
theorem configureLinesDrivesAllLow : Obligations.ConfigureLinesDrivesAllLow := by
  unfold Obligations.ConfigureLinesDrivesAllLow
  intro s m hi ha
  refine ⟨fun he => ?_, fun he => enter_raises hi _ _ _ (if_pos he)⟩
  obtain ⟨t, lc, n, r, L, -, b1, b2⟩ := (hi.live ha .internalOp configureSteps).configure (rest := []) he
  exact ⟨_, t, n, lc, enter_idle hi _ _ _ (if_neg he), r, L.cont, b1, b2, L.inst⟩

/-- Settles O26: the run is `Live.pulse`, from the steps on that the pulse expands to. -/
theorem pulseEnableReturnsEnableLow : Obligations.PulseEnableReturnsEnableLow := by
  unfold Obligations.PulseEnableReturnsEnableLow
  intro s m d tag r p hi ha he hw hd hr hp hg hs hq hpw
  have hf : pulseFault m.st = none := by simp [pulseFault_written, he, hw, hd]
  have hlive := hi.live ha .internalOp [.pulse d tag]
  obtain ⟨t, τ, n, R, L, -, b1, b2⟩ := hlive.pulse he hw hd hr hp hg hs hq hpw
  have hrun := hlive.runs_expanded (steps := pulseSteps d tag) (fun u => by simp only [act, State.expand, hf]) R L.cont
  exact ⟨_, t, _, τ, enter_idle hi _ _ _ hf, hrun, L.cont, L.inst, he, L.good, rfl, b1, b2, rfl, rfl, rfl, rfl, rfl, rfl⟩

/-- Settles O27: the run is `Live.frame`, from the steps on that the frame expands to. -/
theorem writeFrameStrobesItsPattern : Obligations.WriteFrameStrobesItsPattern := by
  unfold Obligations.WriteFrameStrobesItsPattern
  intro s m p tag r hi ha hp he hw hd hr hg hq
  have hlive := hi.live ha .internalOp [.frame p tag]
  obtain ⟨t, τ, n, R, L, S, b1, b2⟩ := hlive.frame he hw hd hr hg hq
  have hrun := hlive.runs_expanded (steps := frameSteps m.cfg p tag) (fun _ => rfl) R L.cont
  exact ⟨_, t, _, τ, (fitting_ok hi.1 (by simpa using hp) _).trans (enter_idle hi _ _ _ rfl), hrun, L.cont, L.inst, rfl, b1, b2,
    rfl, he, rfl, rfl, rfl, rfl, rfl, rfl, rfl, rfl, L.good, rfl, rfl, S.calls, S.answers⟩

end Sys2Proof.Machine
end

section
/-! PROOFS. InstructionCodec (41_instruction_codec.md): `decode` reads exactly what `encode` gives, and the guards of the public transfers. -/

namespace Sys2Proof.Machine

/-! ### The codec (R86, R130 to R132) -/

theorem upperNibble_joinNibbles (h l : Nibble) : upperNibble (joinNibbles h l) = h :=
  BitVec.extractLsb'_append_eq_left

theorem lowerNibble_joinNibbles (h l : Nibble) : lowerNibble (joinNibbles h l) = l :=
  BitVec.extractLsb'_append_eq_right

theorem unpack_pack (b : Byte) (w : Width) : unpack (pack b w) w = some b := by
  cases w with
  | eightBit => rfl
  | fourBit => exact congrArg some (joinNibbles_upper_lower b)

/-- Only the frames of a byte are read as that byte (R131). -/
theorem eq_pack_of_unpack {fs : List Pattern} {w : Width} {b : Byte} (h : unpack fs w = some b) : fs = pack b w := by
  unfold unpack at h
  split at h
  · cases h
    rfl
  · cases h
    simp only [pack, upperNibble_joinNibbles, lowerNibble_joinNibbles]
  · cases h

section Codec

variable {s : State} {m : Instance} (hm : s.inst = some m)
include hm

theorem exec_encode (b : Byte) : exec (.encode b) s = .next { s with ret := .frames (pack b m.cfg.width) } := by
  simp only [exec, execEncode, hm]

/-- Patterns of the instance's width are read as `unpack` reads them, and refused where it reads none. -/
theorem exec_decode_of_width {fs : List Pattern} (hw : ∀ p ∈ fs, p.width = m.cfg.width) : exec (.decode fs) s =
    ((unpack fs m.cfg.width).elim (.refused .decodeDomain) fun b => .next { s with ret := .byte b }) := by
  have hall : (fs.all fun p => p.width == m.cfg.width) = true := by simpa using hw
  simp only [exec, execDecode, hm, if_pos hall]
  cases unpack fs m.cfg.width <;> rfl

theorem exec_decode_pack (b : Byte) : exec (.decode (pack b m.cfg.width)) s = .next { s with ret := .byte b } := by
  rw [exec_decode_of_width hm (pack_width b _), unpack_pack]
  rfl

/-- Where `decode` answers, its operand is the frames of the byte it returns. -/
theorem exec_decode_next {fs : List Pattern} {t : State} (h : exec (.decode fs) s = .next t) :
    ∃ b, fs = pack b m.cfg.width ∧ t = { s with ret := .byte b } := by
  by_cases hw : ∀ p ∈ fs, p.width = m.cfg.width
  · rw [exec_decode_of_width hm hw] at h
    cases hu : unpack fs m.cfg.width with
    | none =>
      rw [hu] at h
      cases h
    | some b =>
      rw [hu] at h
      cases h
      exact ⟨b, eq_pack_of_unpack hu, rfl⟩
  · obtain ⟨p, hp, hne⟩ : ∃ p ∈ fs, p.width ≠ m.cfg.width := by simpa using hw
    obtain ⟨-, -, hrefused⟩ := wrongWidthRefused s m p .read hm hne
    rw [hrefused fs hp] at h
    cases h

end Codec

/-- Settles O6: `decode` answers on the frames of a byte (`exec_decode_pack`), and on no others (`exec_decode_next`). -/
theorem codecRoundTrip : Obligations.CodecRoundTrip := by
  unfold Obligations.CodecRoundTrip
  intro s m hm
  refine ⟨fun b => ⟨_, _, _, exec_encode hm b, rfl, exec_decode_pack hm b, rfl⟩, fun fs t h => ?_⟩
  obtain ⟨b, rfl, rfl⟩ := exec_decode_next hm h
  exact ⟨b, _, rfl, exec_encode hm b, rfl⟩

/-- Settles O8: a list that `unpack` reads is the frames of a byte, so it has their number. -/
theorem decodeRefusedOutsideItsDomain : Obligations.DecodeRefusedOutsideItsDomain := by
  unfold Obligations.DecodeRefusedOutsideItsDomain
  intro s m fs hm hw hlen
  have hnone : unpack fs m.cfg.width = none := by
    refine Option.eq_none_iff_forall_ne_some.2 fun b hu => hlen ?_
    rw [eq_pack_of_unpack hu]
    cases m.cfg.width <;> rfl
  rw [exec_decode_of_width hm hw, hnone]
  rfl

/-! ### The guards of the public transfers (R137 to R139) -/

section PublicTransfer

variable {s : State} {m : Instance} (hi : Idle s m)
include hi

/-- A public transfer on a dead instance is F1. -/
theorem send_dead (k : Kind) (b : Byte) (hd : m.st.phase.dead = true) :
    exec (publicTransfer b k) s = .next (s.raise m .instanceDead) := by
  cases k with
  | instruction => exact enter_raises hi _ _ _ (sendInstructionFault_dead hd)
  | data => exact enter_raises hi _ _ _ (if_pos hd)

/-- A public transfer on a live instance that is not in Ready is F3. -/
theorem send_notReady (k : Kind) (b : Byte) (hd : m.st.phase.dead = false) (hr : m.st.phase ≠ .ready) :
    exec (publicTransfer b k) s = .next (s.raise m .notReady) := by
  cases k with
  | instruction => exact enter_raises hi _ _ _ (sendInstructionFault_notReady hd hr)
  | data => exact enter_raises hi _ _ _ (by simp [sendDataFault, hd, hr])

/-- In Ready a function set of the other width is F5 (R139). -/
theorem send_widthChange {b : Byte} (hr : m.st.phase = .ready)
    (hb : b.extractLsb' 5 3 = 0b001#3 ∧ b.getLsbD 4 ≠ decide (m.cfg.width = .eightBit)) :
    exec (.sendInstruction b) s = .next (s.raise m .widthChangeRefused) :=
  enter_raises hi _ _ _ ((sendInstructionFault_ready hr).trans (if_pos ((widthChange_iff _ _).2 hb)))

end PublicTransfer

/-- Settles O29: both kinds have the guards F1 and F3, and an instruction in Ready that of its width. -/
theorem publicTransferGuards : Obligations.PublicTransferGuards := by
  unfold Obligations.PublicTransferGuards
  intro s m b hi
  refine ⟨fun hr => ⟨send_ready (k := .data) hi hr nofun, send_widthChange hi hr, fun hb => ?_⟩, fun hdead => ?_, fun hf ha hr => ?_⟩
  · exact send_ready (k := .instruction) hi hr fun _ => hb
  · have hd := (Phase.dead_iff _).2 hdead
    exact ⟨send_dead hi .data b hd, send_dead hi .instruction b hd⟩
  · have hd := Phase.not_dead hf ha
    exact ⟨send_notReady hi .data b hd hr, send_notReady hi .instruction b hd hr⟩

end Sys2Proof.Machine
end

section
/-! PROOFS. InitSequencer (42_init_sequencer.md): `initialise` runs to its end under either strategy, and a bounded poll that times out ends the
public operation it runs in. The settled transfers of R168 to R172 are taken together, as a list of bytes. -/

namespace Sys2Proof.Machine

/-! ### The init frames (R176) -/

/-- The bytes of the settled transfers (R168 to R172). -/
def settledBytes (c : Cfg) : List Byte := [fsByte c, c.displayOffByte, clearByte, c.entryModeByte]

/-- The write frames of instruction bytes, in order (R86). -/
def instructionFrames (w : Width) (bs : List Byte) : List (Bit × Pattern) := (bs.flatMap fun b => pack b w).map fun p => (false, p)

section Frames

variable (w : Width) (b : Byte) (bs more : List Byte)

theorem instructionFrames_cons : instructionFrames w (b :: bs) = (pack b w).map (fun p => (false, p)) ++ instructionFrames w bs :=
  List.map_append

theorem instructionFrames_append : instructionFrames w (bs ++ more) = instructionFrames w bs ++ instructionFrames w more := by
  simp [instructionFrames]

theorem length_instructionFrames :
    (instructionFrames w bs).length = bs.length * (match w with | .eightBit => 1 | .fourBit => 2) := by
  induction bs with
  | nil => exact (Nat.zero_mul _).symm
  | cons b bs ih =>
    rw [instructionFrames_cons, List.length_append, ih, List.length_cons, Nat.succ_mul, Nat.add_comm]
    cases w <;> rfl

end Frames

theorem initFrames_eq (c : Cfg) : initFrames c = firstFrames c ++ instructionFrames c.width (settledBytes c) := by
  unfold initFrames firstFrames
  cases c.width <;> rfl

/-- The init frames up to those of a settled transfer. -/
theorem take_initFrames {c : Cfg} {bs more : List Byte} {b : Byte} (h : settledBytes c = bs ++ b :: more) :
    (initFrames c).take (match c.width with
      | .eightBit => 4 + bs.length
      | .fourBit => 6 + 2 * bs.length) = firstFrames c ++ instructionFrames c.width bs ++ (pack b c.width).map fun p => (false, p) := by
  rw [initFrames_eq, h, instructionFrames_append, instructionFrames_cons, ← List.append_assoc, ← List.append_assoc]
  refine List.take_left' ?_
  rw [List.length_append, List.length_append, length_instructionFrames]
  unfold firstFrames
  cases c.width <;> simp [pack] <;> omega

/-- The settled bytes before one of the four, it, and those after. -/
theorem settledBytes_split (c : Cfg) {k : Nat} (hk : k < 4) : ∃ bs b more, settledBytes c = bs ++ b :: more ∧ bs.length = k := by
  have hlen : k < (settledBytes c).length := hk
  refine ⟨(settledBytes c).take k, (settledBytes c)[k], (settledBytes c).drop (k + 1), ?_, List.length_take_of_le hlen.le⟩
  rw [← List.drop_eq_getElem_cons hlen, List.take_append_drop]

theorem initialiseSteps_settled (c : Cfg) : configSteps (fsByte c) ++ (configSteps c.displayOffByte ++ (configSteps clearByte
    ++ (configSteps c.entryModeByte ++ [.finish .ok]))) = (settledBytes c).flatMap configSteps ++ [.finish .ok] := rfl

/-! ### How `initialise` starts, and where a poll may (R160, R190, R191) -/

/-- `initialise` starts after construction (R160). -/
theorem initialise_starts {s : State} {m : Instance} {t0 : Nat} (hi : Idle s m) (hm : m.st = { St.init with now := t0 }) :
    exec .initialise s = .next { s with cont := initialiseSteps m.cfg, caller := .publicOp, ret := .nothing } :=
  enter_idle hi _ _ _ (initialiseFault_poweringUp (by rw [hm]; rfl))

theorem pollFault_dead {s : St} (h : s.phase.dead = true) : pollFault s = some .instanceDead := by
  simp [pollFault, h]

theorem pollFault_usable {s : St} (hu : s.phase.pollUsable = true) (hd : s.phase.dead = false) : pollFault s = none := by
  simp [pollFault, hu, hd]

/-- From a phase in which the block polls, the next one is such a phase too (R28, R175). -/
theorem Phase.next_polls {p : Phase} (hu : p.pollUsable = true) (hd : p.dead = false) :
    p.next.pollUsable = true ∧ p.next.dead = false := by
  cases p with
  | poweringUp | blindInit _ | modeSelecting => cases hu
  | failed _ | aborted => cases hd
  | functionSetting | displayConfiguring | clearing | entryModeSetting | ready => exact ⟨rfl, rfl⟩

theorem Phase.iterate_next_polls {p : Phase} (hu : p.pollUsable = true) (hd : p.dead = false) (k : Nat) :
    (Phase.next^[k] p).pollUsable = true ∧ (Phase.next^[k] p).dead = false := by
  induction k with
  | zero => exact ⟨hu, hd⟩
  | succ k ih =>
    rw [Function.iterate_succ_apply']
    exact Phase.next_polls ih.1 ih.2

/-! ### The settled transfers under BusyPoll (R168 to R172) -/

/-- What settled transfers of the bytes `bs`, each followed by the next phase, leave: `iterations` poll iterations were read. -/
structure Configured (c : Cfg) (s t : St) (bs : List Byte) (iterations : Nat) : Prop where
  free : BusFree c t
  phase : t.phase = Phase.next^[bs.length] s.phase
  writes : writeFrames t.trace = writeFrames s.trace ++ instructionFrames c.width bs
  reads : (readCycles t.trace).length = (readCycles s.trace).length + iterations * cyclesOf c.width
  time : s.now ≤ t.now

/-- Settled transfers of any bytes, with a device that is busy in each for as many iterations as `ks` says and then ready. -/
theorem Live.configsPoll {c : Cfg} {rest : List Act} {more : List Byte} (hc : c.strategy = .busyPoll) {ks : List Nat}
    {ls : List (List Byte)} (hl : List.Forall₂ (BusyThenReady c.width) ks ls) : ∀ {bs : List Byte} {s : State} {st : St},
    bs.length = ks.length → Live s c st (bs.flatMap configSteps ++ rest) → BusFree c st → st.phase.pollUsable = true →
    st.phase.dead = false → (∀ k ∈ ks, ∀ n, c.pollBound = some n → k < n) → s.answers = ls.flatten ++ more →
    ∃ t st', Runs s t ∧ Live t c st' rest ∧ t.answers = more ∧ t.caller = s.caller
      ∧ Configured c st st' bs (ks.map (· + 1)).sum := by
  induction hl with
  | nil =>
    intro bs s st hlen h hb _ _ _ hx
    obtain rfl := List.length_eq_zero_iff.1 hlen
    exact ⟨s, st, Runs.refl _, h, hx, rfl, ⟨hb, rfl, (List.append_nil _).symm, by simp, Nat.le_refl _⟩⟩
  | @cons k l ks ls hkl _ ih =>
    intro bs s st hlen h hb hu hd hks hx
    obtain ⟨b, bs, rfl⟩ := List.exists_cons_of_length_eq_add_one hlen
    obtain ⟨hk, hks⟩ := List.forall_mem_cons.1 hks
    rw [List.flatMap_cons, List.append_assoc] at h
    rw [List.flatten_cons, List.append_assoc] at hx
    obtain ⟨t1, s1, r1, L1, a1, c1, B1, -, p1, -, -, -, w1, d1, n1⟩ := h.configPolls k hc hb hu hd hk hkl hx
    obtain ⟨hu1, hd1⟩ := Phase.next_polls hu hd
    obtain ⟨t2, s2, r2, L2, a2, c2, C2⟩ :=
      ih (Nat.succ.inj hlen) L1 B1 (by rw [p1]; exact hu1) (by rw [p1]; exact hd1) hks a1
    refine ⟨t2, s2, r1.trans r2, L2, a2, c2.trans c1, ⟨C2.free, ?_, ?_, ?_, n1.trans C2.time⟩⟩
    · rw [C2.phase, p1]
      rfl
    · rw [C2.writes, w1, instructionFrames_cons, List.append_assoc]
    · rw [C2.reads, d1, List.map_cons, List.sum_cons]
      ring

/-! ### Whole runs of `initialise` -/

/-- `initialise` under FixedDelay, up to its end (R160 to R176). -/
theorem Live.initFixed {s : State} {c : Cfg} {t0 : Nat} (h : Live s c { St.init with now := t0 } (initialiseSteps c))
    (hc : c.strategy = .fixedDelay) :
    ∃ t st, Runs s t ∧ Live t c st [.finish .ok] ∧ Same s t ∧ writeFrames st.trace = initFrames c
      ∧ st.trace.length = (initFrames c).length ∧ BusFree c st ∧ st.rs = some false ∧ st.phase = .ready
      ∧ t0 + c.tPower + c.tBlind1 + c.tBlind2 + c.tBlind3 ≤ st.now := by
  obtain ⟨t1, s1, -, r1, L1, S1, rfl, f1, -, l1, B1, p1, n1⟩ := h.initStart
  obtain ⟨t2, s2, w2, r2, L2, S2, T2, f2, l2, B2, -, p2, n2⟩ := L1.configFixed hc B1
  obtain ⟨t3, s3, w3, r3, L3, S3, T3, f3, l3, B3, -, p3, n3⟩ := L2.configFixed hc B2
  obtain ⟨t4, s4, w4, r4, L4, S4, T4, f4, l4, B4, -, p4, n4⟩ := L3.configFixed hc B3
  obtain ⟨t5, s5, w5, r5, L5, S5, T5, f5, l5, B5, q5, p5, n5⟩ := L4.configFixed hc B4
  refine ⟨t5, s5, r1.trans (r2.trans (r3.trans (r4.trans r5))), L5, S1.trans (S2.trans (S3.trans (S4.trans S5))), ?_, ?_, B5, q5, ?_,
    by omega⟩
  · rw [T5, T4, T3, T2]
    simp [writeFrames_append, f1, f2, f3, f4, f5, initFrames_eq, instructionFrames, settledBytes]
  · rw [T5, T4, T3, T2]
    simp [l1, l2, l3, l4, l5, initFrames_eq, instructionFrames, settledBytes]
  · rw [p5, p4, p3, p2, p1]
    rfl

/-- `initialise` under BusyPoll up to one of its settled transfers, the earlier ones answered busy as `ks` says and then ready. -/
theorem Live.initPolls {s : State} {c : Cfg} {t0 : Nat} {bs bs' more : List Byte} {ks : List Nat} {ls : List (List Byte)}
    (h : Live s c { St.init with now := t0 } (initialiseSteps c)) (hc : c.strategy = .busyPoll) (hs : settledBytes c = bs ++ bs')
    (hlen : bs.length = ks.length) (hk : ∀ k ∈ ks, ∀ n, c.pollBound = some n → k < n)
    (hl : List.Forall₂ (BusyThenReady c.width) ks ls) (hx : s.answers = ls.flatten ++ more) :
    ∃ t st, Runs s t ∧ Live t c st (bs'.flatMap configSteps ++ [.finish .ok]) ∧ t.answers = more ∧ t.caller = s.caller ∧ BusFree c st
      ∧ st.phase = Phase.next^[ks.length] .functionSetting ∧ writeFrames st.trace = firstFrames c ++ instructionFrames c.width bs
      ∧ (readCycles st.trace).length = (ks.map (· + 1)).sum * cyclesOf c.width
      ∧ t0 + c.tPower + c.tBlind1 + c.tBlind2 + c.tBlind3 ≤ st.now := by
  obtain ⟨t1, s1, -, r1, L1, S1, rfl, f1, g1, -, B1, p1, n1⟩ := h.initStart
  rw [initialiseSteps_settled, hs, List.flatMap_append, List.append_assoc] at L1
  obtain ⟨t2, s2, r2, L2, a2, c2, C2⟩ :=
    L1.configsPoll hc hl hlen B1 (by rw [p1]; rfl) (by rw [p1]; rfl) hk (S1.answers.trans hx)
  refine ⟨t2, s2, r1.trans r2, L2, a2, c2.trans S1.caller, C2.free, ?_, ?_, ?_, n1.trans C2.time⟩
  · rw [C2.phase, p1, hlen]
  · rw [C2.writes, f1]
  · rw [C2.reads, g1]
    simp

/-- `initialise` under BusyPoll, up to its end: the fourth transfer is busy for `k` iterations, the first three as `ks` says. -/
theorem Live.initPolled {s : State} {c : Cfg} {t0 k : Nat} {ks : List Nat} {l more : List Byte} {ls : List (List Byte)}
    (h : Live s c { St.init with now := t0 } (initialiseSteps c)) (hc : c.strategy = .busyPoll) (hlen : ks.length = 3)
    (hks : ∀ j ∈ ks, ∀ n, c.pollBound = some n → j < n) (hk : ∀ n, c.pollBound = some n → k < n)
    (hls : List.Forall₂ (BusyThenReady c.width) ks ls) (hl : BusyThenReady c.width k l) (hx : s.answers = ls.flatten ++ (l ++ more)) :
    ∃ t st, Runs s t ∧ Live t c st [.finish .ok] ∧ t.answers = more ∧ t.caller = s.caller ∧ BusFree c st ∧ st.rs = some false
      ∧ st.phase = .ready ∧ st.pollIter = k ∧ st.lastBF = some false ∧ st.mon.settle = .noSettle
      ∧ writeFrames st.trace = initFrames c
      ∧ (readCycles st.trace).length = ((ks.map (· + 1)).sum + (k + 1)) * cyclesOf c.width
      ∧ t0 + c.tPower + c.tBlind1 + c.tBlind2 + c.tBlind3 ≤ st.now := by
  have hs : settledBytes c = [fsByte c, c.displayOffByte, clearByte] ++ [c.entryModeByte] := rfl
  obtain ⟨t1, s1, r1, L1, a1, c1, B1, p1, f1, d1, n1⟩ := h.initPolls hc hs hlen.symm hks hls hx
  rw [hlen] at p1
  obtain ⟨t2, s2, r2, L2, a2, c2, B2, q2, p2, i2, b2, m2, f2, d2, n2⟩ :=
    Live.configPolls k L1 hc B1 (by rw [p1]; rfl) (by rw [p1]; rfl) hk hl a1
  refine ⟨t2, s2, r1.trans r2, L2, a2, c2.trans c1, B2, q2, ?_, i2, b2, m2, ?_, ?_, n1.trans n2⟩
  · rw [p2, p1]
    rfl
  · rw [f2, f1, initFrames_eq, hs, instructionFrames_append, List.append_assoc]
    simp [instructionFrames]
  · rw [d2, d1, ← Nat.add_mul]

/-- An outcome's event is neither a write frame nor a read cycle (R35). -/
theorem writeFrames_outcome (w : List Event) (o : OpOutcome) (τ : Nat) : writeFrames (w ++ [.outcome o τ]) = writeFrames w :=
  (writeFrames_append _ _).trans (List.append_nil _)

/-- Settles O38: the runs are `Live.initFixed` and `Live.initPolls` with the last transfer, and `Live.finish` records the outcome. -/
theorem initialiseCompletes : Obligations.InitialiseCompletes := by
  unfold Obligations.InitialiseCompletes
  intro s m t0 hi ha hm
  have hstart := initialise_starts hi hm
  have h0 := hi.live ha .publicOp (initialiseSteps m.cfg)
  rw [hm] at h0
  refine ⟨fun hc => ?_, fun hc k1 k2 k3 k4 ls rest hk hl hx => ?_⟩
  · obtain ⟨t1, s1, r1, L1, S1, f1, l1, B1, q1, p1, n1⟩ := h0.initFixed hc
    obtain ⟨t2, n, r2, n2, ret2, calls2, answers2, L2⟩ := L1.finish S1.caller
    refine ⟨_, t2, _, s1.trace, s1.now, hstart, r1.trans r2, L2.cont, L2.inst, ret2, rfl, calls2.trans S1.calls,
      answers2.trans S1.answers, p1, rfl, L2.good, rfl, f1, ?_, B1.rest, q1, B1.gap.later rfl rfl n2, B1.settled.later rfl n2,
      n1.trans n2⟩
    rw [l1, initFrames]
    cases m.cfg.width <;> rfl
  · obtain _ | ⟨h1, _ | ⟨h2, _ | ⟨h3, _ | ⟨h4, _ | _⟩⟩⟩⟩ := hl
    have hks : ∀ k ∈ [k1, k2, k3], ∀ n, m.cfg.pollBound = some n → k < n := by
      intro k hmem n hn
      obtain ⟨hk1, hk2, hk3, -⟩ := hk n hn
      simp only [List.mem_cons, List.not_mem_nil, or_false] at hmem
      omega
    obtain ⟨t1, s1, r1, L1, a1, c1, B1, q1, p1, i1, b1, m1, f1, d1, n1⟩ := h0.initPolled (more := rest) hc rfl hks
      (fun n hn => (hk n hn).2.2.2) (.cons h1 (.cons h2 (.cons h3 .nil))) h4 (by simpa using hx)
    obtain ⟨t2, n, r2, n2, ret2, -, answers2, L2⟩ := L1.finish c1
    refine ⟨_, t2, _, s1.trace, s1.now, hstart, r1.trans r2, L2.cont, L2.inst, ret2, rfl, answers2.trans a1, p1, rfl, L2.good,
      rfl, f1, ?_, B1.rest, q1, B1.gap.later rfl rfl n2, m1, i1, b1, n1.trans n2⟩
    have hsum : ([k1, k2, k3].map (· + 1)).sum + (k4 + 1) = k1 + k2 + k3 + k4 + 4 := by
      simp only [List.map_cons, List.map_nil, List.sum_cons, List.sum_nil]
      omega
    rw [d1, hsum]
    cases m.cfg.width <;> rfl

/-! ### A bounded poll that times out (R196, R213) -/

/-- A run ends the public operation in `BusyFlagTimeout` after `n` busy iterations: `more` is left of the device's answers, and `frames` are
the write frames of the trace. -/
def EndsTimedOut (s : State) (n : Nat) (more : List Byte) (frames : List (Bit × Pattern)) : Prop :=
  ∃ t m τ, Runs s t ∧ TimedOut t m n ∧ t.answers = more ∧ m.st.trace.getLast? = some (.outcome .busyFlagTimeout τ)
    ∧ writeFrames m.st.trace = frames

theorem EndsTimedOut.head {s t : State} {n : Nat} {more : List Byte} {frames : List (Bit × Pattern)} (h : EndsTimedOut t n more frames)
    (hr : Runs s t) : EndsTimedOut s n more frames := by
  obtain ⟨u, m, τ, r, hu⟩ := h
  exact ⟨u, m, τ, hr.trans r, hu⟩

section TimesOut

variable {s : State} {c : Cfg} {st : St} {n : Nat} {l more : List Byte} {rest : List Act}

/-- The end of a public operation in `BusyFlagTimeout` (R213). -/
theorem Live.finishTimedOut (h : Live s c st [.finish .busyFlagTimeout]) (hp : s.caller = .publicOp) (hr : Resting st)
    (hrs : st.rs = some false) (hd : st.phase.dead = false) (hi : st.pollIter = n) (hb : st.lastBF = some true) :
    EndsTimedOut s n s.answers (writeFrames st.trace) := by
  obtain ⟨t, k, r, -, ret, -, answers, L⟩ := h.finish hp
  have hf : st.phase.endIn (.failed .busyFlagTimeout) = .failed .busyFlagTimeout := by simp [Phase.endIn, hd]
  exact ⟨t, _, st.now, r, ⟨⟨L.inst, L.cont, L.good⟩, ret, hf, rfl, hi, hb, hr, hrs⟩, answers, List.getLast?_concat,
    writeFrames_outcome _ _ _⟩

/-- A public operation ends in `BusyFlagTimeout` where it polls and the device stays busy up to the bound. -/
theorem Live.pollEndsTimedOut (h : Live s c st (enterReadSteps c ++ .pollReset :: .pollIteration :: .pollTest :: rest))
    (hp : s.caller = .publicOp) (hr : Resting st) (hrs : st.rs ≠ none) (hg : GapOver c st) (hd : st.phase.dead = false)
    (hb : c.pollBound = some n) (hn : 0 < n) (hl : BusyAnswers c.width n l) (hx : s.answers = l ++ more) :
    EndsTimedOut s n more (writeFrames st.trace) := by
  obtain ⟨t, st', r, L, rfl, c1, P, -⟩ := h.pollTimesOut hr hrs hg hb hn hl hx
  rw [← P.writes]
  exact (L.finishTimedOut (c1.trans hp) P.rest P.rs (by rw [P.phase]; exact hd) P.pollIter P.lastBF).head r

/-- The same of a transfer under BusyPoll, after the frames of its byte. -/
theorem Live.transferEndsTimedOut {k : Kind} {b : Byte} (h : Live s c st (.transfer k b :: rest)) (hp : s.caller = .publicOp)
    (hc : c.strategy = .busyPoll) (hb : BusFree c st) (hu : st.phase.pollUsable = true) (hd : st.phase.dead = false)
    (hn : c.pollBound = some n) (h0 : 0 < n) (hl : BusyAnswers c.width n l) (hx : s.answers = l ++ more) :
    EndsTimedOut s n more (writeFrames st.trace ++ (pack b c.width).map fun p => (kindLevel k, p)) := by
  obtain ⟨t, st', r, L, rfl, c1, hr, hrs, p1, i1, b1, f1⟩ := h.transferTimesOut hc hb hu hd hn h0 hl hx
  rw [← f1]
  exact (L.finishTimedOut (c1.trans hp) hr hrs (by rw [p1]; exact hd) i1 b1).head r

/-- The same of `initialise` in one of its settled transfers, the earlier ones answered busy as `ks` says and then ready. -/
theorem Live.initEndsTimedOut {t0 : Nat} {ks : List Nat} {ls : List (List Byte)}
    (h : Live s c { St.init with now := t0 } (initialiseSteps c)) (hp : s.caller = .publicOp) (hc : c.strategy = .busyPoll)
    (hlen : ks.length < 4) (hn : c.pollBound = some n) (hk : ∀ k ∈ ks, k < n) (hls : List.Forall₂ (BusyThenReady c.width) ks ls)
    (h0 : 0 < n) (hl : BusyAnswers c.width n l) (hx : s.answers = ls.flatten ++ l ++ more) :
    EndsTimedOut s n more ((initFrames c).take (match c.width with
      | .eightBit => 4 + ks.length
      | .fourBit => 6 + 2 * ks.length)) := by
  obtain ⟨bs, b, bs', hs, hbs⟩ := settledBytes_split c hlen
  have hbound : ∀ k ∈ ks, ∀ j, c.pollBound = some j → k < j := fun k hmem j hj => by
    rw [hn] at hj
    cases hj
    exact hk k hmem
  obtain ⟨t, st, r, L, a, c1, B, p, f, -, -⟩ := h.initPolls hc hs hbs hbound hls (by rw [hx, List.append_assoc])
  obtain ⟨hu, hd⟩ := Phase.iterate_next_polls (p := .functionSetting) rfl rfl ks.length
  rw [← p] at hu hd
  rw [← hbs, take_initFrames hs, ← f]
  exact (Live.transferEndsTimedOut (k := .instruction) L (c1.trans hp) hc B hu hd hn h0 hl a).head r

end TimesOut

/-- Settles O35: each operation's run is one of the `EndsTimedOut` lemmas, and every operation after it finds a dead controller. -/
theorem boundedPollTimesOut : Obligations.BoundedPollTimesOut := by
  unfold Obligations.BoundedPollTimesOut
  intro n s m l rest hi ha hn h0 hl
  refine ⟨fun hu hd hr hrs hg hx => ?_, fun k b hp hc hr hrs hg hq hb hx => ?_, fun t0 ks ls hm hc hlen hk hls hx => ?_,
    fun t m' ht b => ?_⟩
  · have hsteps : pollSteps m.cfg ++ [.finish .ok] = enterReadSteps m.cfg ++ [.pollReset, .pollIteration, .pollTest, .finish .ok] := by
      simp [pollSteps]
    obtain ⟨t, m', τ, hrun, ht⟩ := (hi.live ha .publicOp _).pollEndsTimedOut rfl hr hrs hg hd hn h0 hl hx
    exact ⟨_, t, m', τ, enter_starts hi (pollFault_usable hu hd) hsteps, hrun, ht⟩
  · obtain ⟨t, m', τ, hrun, ht⟩ := (hi.live ha .publicOp (sendSteps k b)).transferEndsTimedOut rfl hc ⟨hr, hrs, hg, hq⟩ (by rw [hp]; rfl)
      (by rw [hp]; rfl) hn h0 hl hx
    rw [pack_frames] at ht
    exact ⟨_, t, m', τ, send_ready hi hp hb, hrun, ht⟩
  · have hlive := hi.live ha .publicOp (initialiseSteps m.cfg)
    rw [hm] at hlive
    obtain ⟨t, m', τ, hrun, ht⟩ := hlive.initEndsTimedOut rfl hc hlen hn hk hls h0 hl hx
    exact ⟨_, t, m', τ, initialise_starts hi hm, hrun, ht⟩
  · obtain ⟨hi, -, hp, -⟩ := ht
    have hd : m'.st.phase.dead = true := by rw [hp]; rfl
    exact ⟨send_dead hi .data b hd, send_dead hi .instruction b hd, enter_raises hi _ _ _ (pollFault_dead hd),
      enter_raises hi _ _ _ (initialiseFault_dead hd)⟩

end Sys2Proof.Machine
end

section
/-! PROOFS. BusyFlagPoller (43_busy_flag_poller.md): where a poll starts and which faults its guards raise, that it ends once the device is
ready, and that without a bound it goes on while the device is busy. -/

namespace Sys2Proof.Machine

/-! ### How a poll starts (R190, R191) -/

section PollGuard

variable {s : St}

/-- Before the mode select is done, a poll is F4 (R191). -/
theorem pollFault_early (h : s.phase = .poweringUp ∨ (∃ k, s.phase = .blindInit k) ∨ s.phase = .modeSelecting) :
    pollFault s = some .pollBeforeModeSelect := by
  obtain hp | ⟨k, hp⟩ | hp := h <;> simp [pollFault, hp, Phase.dead, Phase.pollUsable]

/-- From FunctionSetting to Ready the guards of a poll find nothing (R190, R191). -/
theorem pollFault_configuring (h : s.phase = .functionSetting ∨ s.phase = .displayConfiguring ∨ s.phase = .clearing
    ∨ s.phase = .entryModeSetting ∨ s.phase = .ready) : pollFault s = none := by
  obtain hp | hp | hp | hp | hp := h <;> simp [pollFault, hp, Phase.dead, Phase.pollUsable]

end PollGuard

/-- What `waitUntilReady` is to do on a free driver once its guards have found nothing (R190). -/
def waitSteps (c : Cfg) : List Act := enterReadSteps c ++ [.pollReset, .pollIteration, .pollTest, .finish .ok]

theorem waitUntilReady_starts {s : State} {m : Instance} (hi : Idle s m) (hf : pollFault m.st = none) :
    exec .waitUntilReady s = .next { s with cont := waitSteps m.cfg, caller := .publicOp, ret := .nothing } :=
  enter_starts hi hf (List.append_assoc _ _ _)

/-- Settles O32: `pollFault` finds F1 and F4 by the phase, and else the sequence starts. -/
theorem pollGuards : Obligations.PollGuards := by
  unfold Obligations.PollGuards
  intro s m hi
  refine ⟨fun hd => ?_, fun hp => ?_, fun hp => ?_⟩
  · exact enter_raises hi _ _ _ (pollFault_dead ((Phase.dead_iff _).2 hd))
  · exact enter_raises hi _ _ _ (pollFault_early hp)
  · exact waitUntilReady_starts hi (pollFault_configuring hp)

/-! ### Whole polls (R195, R199) -/

/-- An outcome's event is no read cycle (R35). -/
theorem readCycles_outcome (w : List Event) (o : OpOutcome) (τ : Nat) : readCycles (w ++ [.outcome o τ]) = readCycles w :=
  (readCycles_append _ _).trans (List.append_nil _)

/-- Settles O34: the run is `Live.pollEnds`, an induction on the busy iterations, and `Live.finish` records the outcome. -/
theorem pollEndsAfterTheBusyIterations : Obligations.PollEndsAfterTheBusyIterations := by
  unfold Obligations.PollEndsAfterTheBusyIterations
  intro k s m l rest hi ha hu hd hr hrs hg hk hl hx
  obtain ⟨t1, s1, r1, L1, a1, c1, P, hsettle⟩ := Live.pollEnds k (hi.live ha .publicOp (waitSteps m.cfg)) hr hrs hg hk hl hx
  obtain ⟨t2, n, r2, -, ret2, -, answers2, L2⟩ := L1.finish c1
  refine ⟨_, t2, _, waitUntilReady_starts hi (pollFault_usable hu hd), r1.trans r2, L2.cont, L2.inst, ret2, answers2.trans a1,
    P.pollIter, P.lastBF, rfl, L2.good, P.phase, hsettle, P.rest, P.rs, (writeFrames_outcome _ _ _).trans P.writes,
    (congrArg List.length (readCycles_outcome _ _ _)).trans P.reads⟩

/-- Settles O36: after the entry, `Live.busyLoop` turns the loop any number of times and comes back to its head. -/
theorem unboundedPollKeepsPolling : Obligations.UnboundedPollKeepsPolling := by
  unfold Obligations.UnboundedPollKeepsPolling
  intro k s m l rest hi ha hu hd hr hrs hg hb hl hx
  obtain ⟨t1, s1, r1, L1, S1, R1, p1, q1, i1, -, -, -, -, n1⟩ := (hi.live ha .publicOp (waitSteps m.cfg)).enterRead hr hrs hg
  have hbound : ∀ n, m.cfg.pollBound = some n → s1.pollIter + k < n := fun n hn => by
    rw [hb] at hn
    cases hn
  obtain ⟨t2, s2, r2, L2, a2, -, -, -, hbusy, T⟩ := L1.busyLoop k R1 hbound hl (S1.answers.trans hx)
  have hiter : s2.pollIter = k := by rw [T.pollIter, i1, Nat.zero_add]
  exact ⟨_, t2, _, waitUntilReady_starts hi (pollFault_usable hu hd), r1.trans r2, L2.inst, L2.cont, a2, hiter, hbusy,
    T.phase.trans p1, T.result.trans q1, L2.good, (Nat.add_le_add_right n1 _).trans T.time⟩

end Sys2Proof.Machine
end

section
/-! PROOFS. Abort (60_exceptions.md R214, R215): what each line of the abort path does to `St`, as one equation for every state of the lines, and
so what the whole path does from any state. -/

namespace Sys2Proof.Machine

section Lines

variable (s : St)

/-- The frame of a write pulse that an abort cuts short now (R215). -/
def St.cutFrame : List Event :=
  match s.e, s.mon.riseKind, s.rs, s.data with
  | some true, some .write, some r, some p => [.wFrame r p s.now]
  | _, _, _, _ => []

/-- `halfByte` after an abort that may cut a write pulse short now (R215). -/
def St.cutHalf : Bool :=
  match s.e, s.mon.riseKind, s.mon.curTag with
  | some true, some .write, .innerNibble => true
  | some true, some .write, .final _ _ => false
  | _, _, _ => s.halfByte

/-- The monitor after an abort that may cut a pulse short now: the pulse ends as a fall, and no check runs (R215). -/
def St.cutMon : Monitor :=
  if s.e = some true then
    { s.mon with
      lastFall := some (s.now, if s.mon.riseKind = some .write then s.mon.curTag else .read), riseAt := none, riseKind := none }
  else s.mon

variable {s}

theorem cutFrame_write (he : s.e = some true) (hk : s.mon.riseKind = some .write) : s.cutFrame = s.pulseEvent := by
  unfold St.cutFrame St.pulseEvent
  rw [he, hk]
  cases s.rs <;> cases s.data <;> rfl

theorem cutFrame_other (h : ¬ (s.e = some true ∧ s.mon.riseKind = some .write)) : s.cutFrame = [] := by
  unfold St.cutFrame
  split
  · exact absurd ⟨‹_›, ‹_›⟩ h
  · rfl

theorem cutHalf_write (he : s.e = some true) (hk : s.mon.riseKind = some .write) : s.cutHalf = s.halfAfterPulse := by
  unfold St.cutHalf St.halfAfterPulse
  rw [he, hk]
  cases s.mon.curTag <;> rfl

theorem cutHalf_other (h : ¬ (s.e = some true ∧ s.mon.riseKind = some .write)) : s.cutHalf = s.halfByte := by
  unfold St.cutHalf
  split
  · exact absurd ⟨‹_›, ‹_›⟩ h
  · exact absurd ⟨‹_›, ‹_›⟩ h
  · rfl

theorem cutMon_high (he : s.e = some true) : s.cutMon.riseAt = none ∧ s.cutMon.riseKind = none
    ∧ s.cutMon.lastFall = some (s.now, if s.mon.riseKind = some .write then s.mon.curTag else .read) := by
  simp [St.cutMon, he]

theorem cutMon_low (he : s.e ≠ some true) : s.cutMon = s.mon := if_neg he

variable (s)

theorem cutMon_keeps : s.cutMon.curTag = s.mon.curTag ∧ s.cutMon.lastChange = s.mon.lastChange ∧ s.cutMon.anyRise = s.mon.anyRise := by
  unfold St.cutMon
  split <;> exact ⟨rfl, rfl, rfl⟩

/-- The first line of the abort path (R215): Enable low, by cases on the pulse that is in progress. -/
theorem abortEnable_eq : s.abortEnable =
    { s with e := s.e.map fun _ => false, halfByte := s.cutHalf, trace := s.trace ++ s.cutFrame, mon := s.cutMon } := by
  unfold St.abortEnable St.cutMon
  by_cases he : s.e = some true
  · by_cases hk : s.mon.riseKind = some .write
    · simp only [he, hk, if_true, cutFrame_write, cutHalf_write, Option.map_some]
    · have h : ¬ (s.e = some true ∧ s.mon.riseKind = some .write) := fun h => hk h.2
      simp only [he, hk, if_true, if_false, cutFrame_other h, cutHalf_other h, List.append_nil, Option.map_some]
  · have h : ¬ (s.e = some true ∧ s.mon.riseKind = some .write) := fun h => he h.1
    have hlow : s.e.map (fun _ => false) = s.e := by
      rcases hs : s.e with _ | _ | _
      · rfl
      · rfl
      · exact absurd hs he
    simp only [he, if_false, cutFrame_other h, cutHalf_other h, List.append_nil, hlow]

/-- The second line (R215): RW low where it is written. -/
theorem abortReadWrite_eq : s.abortReadWrite = { s with rw := s.rw.map fun _ => false } := by
  obtain ⟨phase, e, rs, rw, data, dir, half, iter, bf, now, mon, trace, faults, result⟩ := s
  obtain _ | _ | _ := rw <;> rfl

/-- The third line (R215): the data lines outputs where they are configured; the latch is drawn where they were inputs. -/
theorem abortDirection_eq (x : Pattern) : s.abortDirection x =
    { s with
      data := if s.dir = some .inputWithPullup then some x else s.data
      dir := s.dir.map fun _ => .output
      trace := s.trace ++ if s.dir = some .inputWithPullup then [.dirChange .output s.now] else [] } := by
  obtain ⟨phase, e, rs, rw, data, dir, half, iter, bf, now, mon, trace, faults, result⟩ := s
  obtain _ | _ | _ := dir <;> simp [St.abortDirection]

/-- The whole path (R215). -/
theorem afterAbort_eq (x : Pattern) (n1 n2 n3 n4 : Nat) : s.afterAbort x n1 n2 n3 n4 =
    { s with
      phase := s.phase.endIn .aborted
      e := s.e.map fun _ => false
      rw := s.rw.map fun _ => false
      data := if s.dir = some .inputWithPullup then some x else s.data
      dir := s.dir.map fun _ => .output
      halfByte := s.cutHalf
      now := n4
      mon := { s.cutMon with settle := .noSettle }
      trace := s.trace ++ s.cutFrame ++ (if s.dir = some .inputWithPullup then [.dirChange .output n2] else []) ++ [.outcome .aborted n3]
      result := some .aborted } := by
  simp only [St.afterAbort, abortEnable_eq, abortReadWrite_eq, abortDirection_eq]
  rfl

end Lines

/-- A due abort puts its path in the place of whatever a live instance's driver was doing, but of an abort path (R214, R215). -/
theorem step_aborts {s : State} {m : Instance} (hm : s.inst = some m) (ha : s.abortIn = some 0) (hf : m.st.faults = [])
    (hd : m.st.phase.dead = false) (hc : s.caller = .abortPath → s.cont = []) :
    step s = .next { s with abortIn := none, cont := abortSteps, caller := .abortPath, ret := .nothing } := by
  have hfree : ¬ (s.caller = .abortPath ∧ s.cont ≠ []) := fun ⟨h, hne⟩ => hne (hc h)
  rw [(stepTakesTheNextAction s m hm hf).1 ha]
  simp only [exec, execAbort, State.abort, hm, hd, hf, hfree, ne_eq, not_true_eq_false, Bool.false_eq_true, if_false]

/-- Settles O40: the abort starts its path, `Live.abortPath` runs it, and `afterAbort_eq` says what it leaves. -/
theorem abortRestoresTheBus : Obligations.AbortRestoresTheBus := by
  unfold Obligations.AbortRestoresTheBus
  intro s m hm ha hf hd hc
  have hlive : Live { s with abortIn := none, cont := abortSteps, caller := .abortPath, ret := .nothing } m.cfg m.st abortSteps :=
    ⟨hm, hf, rfl, rfl⟩
  obtain ⟨t, x, n1, n2, n3, n4, r, L, ret, calls, b1, b2, b3, b4, hx⟩ := hlive.abortPath
  rw [afterAbort_eq] at L
  have hphase : m.st.phase.endIn .aborted = .aborted := if_neg (by simp [hd])
  refine ⟨t, _, Runs.head (step_aborts hm ha hf hd hc) r, L.cont, L.inst, ret, calls, rfl, rfl, rfl, rfl, rfl, fun hin => if_neg hin,
    hphase, rfl, hf, rfl, rfl, rfl, ⟨n2, n3, rfl, b1.trans b2, b3, b4⟩, fun hin => ⟨x, if_pos hin, hx⟩, rfl, cutMon_high,
    fun he => ?_, cutMon_keeps _⟩
  rw [cutMon_low he]
  exact ⟨rfl, rfl, rfl⟩

end Sys2Proof.Machine
end

section
/-! PROOFS. Exceptions (60_exceptions.md): a configuration that fails a check (R212), what a raised fault leaves possible (R218), how an abort
starts its path (R214, R215), and an operation called while another is in progress (R219). -/

namespace Sys2Proof.Machine

/-! ### The checks of a configuration (R212) -/

theorem configOk_iff {c : Cfg} : configOk c = true ↔ (c.rows = 1 ∨ c.rows = 2) ∧ c.pollBound ≠ some 0
    ∧ (c.pins.length = (signals c.width).length ∧ ∀ x ∈ signals c.width, x ∈ c.pins.map (·.1)) ∧ (c.pins.map (·.2)).Nodup := by
  simp only [configOk, Bool.and_eq_true, Bool.or_eq_true, beq_iff_eq, bne_iff_ne, decide_eq_true_eq, List.all_eq_true,
    List.contains_iff_mem, and_assoc]

/-- A configuration that passes the checks maps no signal outside the width's: it has as many pins as these are. -/
theorem mem_signals_of_configOk {c : Cfg} (hok : configOk c = true) {x : Signal} (hx : x ∈ c.pins.map (·.1)) : x ∈ signals c.width := by
  obtain ⟨-, -, ⟨hlen, hall⟩, -⟩ := configOk_iff.1 hok
  have hsub : (signals c.width).Subperm (c.pins.map (·.1)) := (signals_nodup _).subperm hall
  exact (hsub.perm_of_length_le (by simp [hlen])).mem_iff.2 hx

theorem construct_fails {c : Cfg} {s : State} (hcont : s.cont = []) (hc : configOk c = false) :
    exec (.construct c) s = .next { s with inst := none, ret := .outcome .configurationError } := by
  simp [exec, execConstruct, hcont, hc]

/-- Settles O12: a configuration that passed would satisfy `configOk_iff`, and map no other signal (`mem_signals_of_configOk`). -/
theorem constructRejectsBadConfiguration : Obligations.ConstructRejectsBadConfiguration := by
  unfold Obligations.ConstructRejectsBadConfiguration
  intro s c hcont hbad
  refine construct_fails hcont (Bool.eq_false_iff.2 fun hok => ?_)
  obtain ⟨hrows, hbound, ⟨-, hall⟩, hinj⟩ := configOk_iff.1 hok
  obtain ⟨h1, h2⟩ | h0 | ⟨x, hx, hno⟩ | ⟨-, x, hx, hno⟩ | hdup := hbad
  · exact hrows.elim h1 h2
  · exact hbound h0
  · exact hno (hall x hx)
  · exact hno (mem_signals_of_configOk hok hx)
  · exact hdup hinj

/-! ### An abort (R214, R215) -/

section Abort

variable {s : State} {m : Instance}

theorem abort_dead (hm : s.inst = some m) (hd : m.st.phase.dead = true) : exec .abort s = .next s := by
  simp only [exec, execAbort, State.abort, hm, if_pos hd]

theorem abort_live (hm : s.inst = some m) (hd : m.st.phase.dead = false) (hf : m.st.faults = []) : exec .abort s =
    if s.caller = .abortPath ∧ s.cont ≠ [] then .next s
    else .next { s with cont := abortSteps, caller := .abortPath, ret := .nothing } := by
  simp only [exec, execAbort, State.abort, hm, hd, hf, ne_eq, not_true_eq_false, Bool.false_eq_true, if_false]

theorem abort_faulted (hm : s.inst = some m) (hd : m.st.phase.dead = false) (hf : m.st.faults ≠ []) :
    exec .abort s = .fault .driverStopped := by
  simp only [exec, execAbort, State.abort, hm, hd, if_pos hf, Bool.false_eq_true, if_false]

end Abort

/-- Settles O39: a dead instance keeps its state (`abort_dead`), and of a live one only a running abort path does (`abort_live`). -/
theorem abortStartsItsPath : Obligations.AbortStartsItsPath := by
  unfold Obligations.AbortStartsItsPath
  intro s m hm
  refine ⟨fun hd => abort_dead hm ((Phase.dead_iff _).2 hd), fun hfailed haborted hf => ?_⟩
  rw [abort_live hm (Phase.not_dead hfailed haborted) hf]
  exact ⟨fun h => if_neg fun ⟨hpath, hbusy⟩ => h.elim (· hpath) hbusy, fun hpath hbusy => if_pos ⟨hpath, hbusy⟩⟩

/-! ### A driver that is not free (R218, R219) -/

/-- The instructions that act through the driver: all but the codec, construction, an abort, and the words the block never produces. -/
def needsDriver : Instr → Bool
  | .construct _ | .encode _ | .decode _ | .abort | .rsv8 _ | .rsv4 _ => false
  | _ => true

/-- The patterns an instruction puts on the wired lines, which must have the instance's width (R92). -/
def wiredOperands : Instr → List Pattern
  | .setDataLines p | .writeFrame p _ => [p]
  | .iw8 b | .dw8 b | .br8 b => [.byte b]
  | .iw4 n | .dw4 n | .br4 n => [.nibble n]
  | _ => []

theorem needsDriver_or (i : Instr) : needsDriver i = true ∨ (∃ c, i = .construct c) ∨ (∃ b, i = .encode b) ∨ (∃ fs, i = .decode fs)
    ∨ i = .abort ∨ (∃ b, i = .rsv8 b) ∨ ∃ n, i = .rsv4 n := by
  cases i <;> simp [needsDriver]

/-- What a driver that is not free answers: an operation is in progress (R219), or a fault has stopped it (R218). -/
def State.notFree (s : State) : Res := if s.cont ≠ [] then .refused .reentrantCall else .fault .driverStopped

section NotFree

variable {s : State} {m : Instance} (hm : s.inst = some m) (hb : ¬ Idle s m)

include hm hb

theorem faults_ne_nil_of_notFree (hc : s.cont = []) : m.st.faults ≠ [] := fun hf => hb ⟨hm, hc, hf⟩

theorem enter_notFree (caller : Caller) (fault : Instance → Option ModelFault) (steps : Instance → List Act) :
    s.enter caller fault steps = s.notFree := by
  by_cases hc : s.cont = []
  · simp [State.enter, State.notFree, hm, hc, faults_ne_nil_of_notFree hm hb hc]
  · simp [State.enter, State.notFree, hm, hc]

theorem once_notFree (body : Instance → State → Res) : s.once body = s.notFree := by
  by_cases hc : s.cont = []
  · simp [State.once, State.notFree, hm, hc, faults_ne_nil_of_notFree hm hb hc]
  · simp [State.once, State.notFree, hm, hc]

/-- An instruction that acts through the driver tests its operands' width, and then whether the driver is free: every one of them is
`State.enter`, or `State.once` where it is one micro-step. -/
theorem exec_notFree {i : Instr} (hi : needsDriver i = true) : exec i s = s.fitting (wiredOperands i) s.notFree := by
  have hnil (go : Res) : s.fitting [] go = go := fitting_ok hm (List.forall_mem_nil _) go
  have henter := enter_notFree hm hb
  have honce := once_notFree hm hb
  cases i with
  | construct | encode | decode | abort | rsv8 | rsv4 => cases hi
  | setDataLines p => exact congrArg (s.fitting [p]) (honce _)
  | writeFrame p tag => exact congrArg (s.fitting [p]) (henter _ _ _)
  | iw8 b | dw8 b | br8 b => exact congrArg (s.fitting [.byte b]) (henter _ _ _)
  | iw4 n | dw4 n | br4 n => exact congrArg (s.fitting [.nibble n]) (henter _ _ _)
  | setControlLine | setDataDirection | sample | wait | selectRegister =>
    simp only [exec, wiredOperands, hnil]
    exact honce _
  | _ =>
    simp only [exec, wiredOperands, hnil]
    exact henter _ _ _

end NotFree

/-- Settles O19: the fault stays recorded, so the driver is not free, and what needs it is refused or stops (`exec_notFree`). -/
theorem raiseRecordsAndStops : Obligations.RaiseRecordsAndStops := by
  unfold Obligations.RaiseRecordsAndStops
  intro s m f _
  have hfaults : m.st.faults ++ [f] ≠ [] := by simp
  have hidle : ¬ Idle (s.raise m f) { m with st := { m.st with faults := m.st.faults ++ [f] } } := fun hi => hfaults hi.2.2
  refine ⟨_, rfl, rfl, rfl, rfl, rfl, rfl, rfl, rfl, rfl, rfl, rfl, rfl, fun hd => abort_faulted rfl hd hfaults, ?_⟩
  intro i hconstruct hencode hdecode habort u hu
  obtain hi | ⟨c, rfl⟩ | ⟨b, rfl⟩ | ⟨fs, rfl⟩ | rfl | ⟨b, rfl⟩ | ⟨n, rfl⟩ := needsDriver_or i
  · obtain ⟨-, -, -, hstopped⟩ := fitting_next ((exec_notFree rfl hidle hi).symm.trans hu)
    cases hstopped
  · exact hconstruct c rfl
  · exact hencode b rfl
  · exact hdecode fs rfl
  · exact habort rfl
  -- the two words of the class (1, 1) are refused in every state
  · cases hu
  · cases hu

/-- `construct` asks only that no operation be in progress. -/
theorem construct_refused {c : Cfg} {s : State} (hcont : s.cont ≠ []) : exec (.construct c) s = .refused .reentrantCall := if_pos hcont

/-- Settles O60: a driver in the middle of an operation is not free, and each of the operations but `construct` needs it (`exec_notFree`). -/
theorem reentrantCallRefused : Obligations.ReentrantCallRefused := by
  unfold Obligations.ReentrantCallRefused
  intro s m i hm hcont hi
  have hcases : (∃ c, i = .construct c) ∨ (needsDriver i = true ∧ ∀ p ∈ wiredOperands i, p.width = m.cfg.width) := by
    obtain hmem | ⟨l, v, rfl⟩ | ⟨d, rfl⟩ | ⟨n, tag, rfl⟩ | ⟨d, rfl⟩ | ⟨k, rfl⟩ | ⟨k, b, rfl⟩ | ⟨k, b, rfl⟩ | ⟨b, rfl⟩ | ⟨b, rfl⟩ | ⟨c, rfl⟩
      | ⟨dl, n, f, x, rfl⟩ | ⟨x, rfl⟩ | ⟨p, hw, rfl | ⟨tag, rfl⟩⟩ := hi
    · fin_cases hmem <;> simp [needsDriver, wiredOperands]
    all_goals simp [needsDriver, wiredOperands, *]
  obtain ⟨c, rfl⟩ | ⟨hneeds, hfit⟩ := hcases
  · exact construct_refused hcont
  · rw [exec_notFree hm (fun hidle => hcont hidle.2.1) hneeds, fitting_ok hm hfit]
    exact if_pos hcont

end Sys2Proof.Machine
end

section
/-! PROOFS. The timing monitor (70_reset_and_hazards.md R243 to R252): each check of a rising edge says what it finds, and is reached where
the checks before it find nothing; a write pulse that is too short (R247). -/

namespace Sys2Proof.Machine

/-! ### The gap that a rising edge measures (R245, R246, R248) -/

section RiseChecks

variable {c : Cfg} {s : St} {k : Attempt}

theorem blindShort_eq_some : blindShort c s = some k ↔ ∃ tf, s.mon.lastFall = some (tf, .blind k) ∧ s.now - tf < tBlind c k := by
  unfold blindShort
  split
  next tf k' hl =>
    simp only [hl, Option.ite_none_right_eq_some, Option.some.injEq, Prod.mk.injEq, FallTag.blind.injEq]
    constructor
    · rintro ⟨hshort, rfl⟩
      exact ⟨tf, ⟨rfl, rfl⟩, hshort⟩
    · rintro ⟨_, ⟨rfl, rfl⟩, hshort⟩
      exact ⟨hshort, rfl⟩
  next hne => exact ⟨fun h => (by cases h), fun ⟨tf, hl, _⟩ => absurd hl (hne tf k)⟩

theorem modeShort_iff : modeShort c s = true ↔ ∃ tf, s.mon.lastFall = some (tf, .modeSel) ∧ s.now - tf < c.tMode := by
  unfold modeShort
  split
  next tf hl => simp [hl]
  next hne => exact ⟨fun h => (by cases h), fun ⟨tf, hl, _⟩ => absurd hl (hne tf)⟩

theorem lowShort_iff : lowShort c s = true ↔ ∃ tf tag, s.mon.lastFall = some (tf, tag) ∧ s.now - tf < tLow c tag := by
  rcases hl : s.mon.lastFall with _ | ⟨tf, tag⟩ <;> simp [lowShort, hl]

theorem blindShort_eq_none (h : ∀ tf k, s.mon.lastFall = some (tf, .blind k) → tBlind c k ≤ s.now - tf) : blindShort c s = none := by
  refine Option.eq_none_iff_forall_ne_some.mpr fun k hk => ?_
  obtain ⟨tf, hl, hshort⟩ := blindShort_eq_some.mp hk
  exact absurd hshort (h tf k hl).not_gt

theorem modeShort_eq_false (h : ∀ tf, s.mon.lastFall = some (tf, .modeSel) → c.tMode ≤ s.now - tf) : modeShort c s = false := by
  refine Bool.eq_false_iff.mpr fun hm => ?_
  obtain ⟨tf, hl, hshort⟩ := modeShort_iff.mp hm
  exact absurd hshort (h tf hl).not_gt

theorem lowShort_eq_false (h : ∀ tf tag, s.mon.lastFall = some (tf, tag) → tLow c tag ≤ s.now - tf) : lowShort c s = false := by
  refine Bool.eq_false_iff.mpr fun hlow => ?_
  obtain ⟨tf, tag, hl, hshort⟩ := lowShort_iff.mp hlow
  exact absurd hshort (h tf tag hl).not_gt

/-- `gap` covers the low time after every fall. -/
theorem tLow_le_gap (c : Cfg) (tag : FallTag) : tLow c tag ≤ gap c tag := by
  cases tag <;> simp [tLow, gap]

/-! ### The checks of a rising edge, in the order of R243 -/

theorem riseFault_power (ha : s.mon.anyRise = false) (ht : s.now < c.tPower) : riseFault c s = some (.timingViolation .power) := by
  simp [riseFault, ha, ht]

theorem not_power (hp : s.mon.anyRise = true ∨ c.tPower ≤ s.now) : ¬ (¬ s.mon.anyRise = true ∧ s.now < c.tPower) :=
  fun ⟨ha, ht⟩ => hp.elim ha ht.not_ge

theorem riseFault_blind (hp : s.mon.anyRise = true ∨ c.tPower ≤ s.now) {tf : Nat} (hl : s.mon.lastFall = some (tf, .blind k))
    (ht : s.now - tf < tBlind c k) : riseFault c s = some (.timingViolation (.blind k)) := by
  simp only [riseFault, if_neg (not_power hp), blindShort_eq_some.mpr ⟨tf, hl, ht⟩]

/-- After the power check (R244) and with no attempt's gap short (R245), the checks from R246 on. -/
theorem riseFault_notBlind (hp : s.mon.anyRise = true ∨ c.tPower ≤ s.now) (hb : blindShort c s = none) : riseFault c s =
    if modeShort c s then some (.timingViolation .mode)
    else if lowShort c s then some (.timingViolation .low)
    else if s.now - s.mon.lastChange < c.tSetup then some (.timingViolation .setup)
    else if s.cycleKind = .write then settleFault s
    else none := by
  simp only [riseFault, if_neg (not_power hp), hb]

theorem riseFault_mode (hp : s.mon.anyRise = true ∨ c.tPower ≤ s.now) {tf : Nat} (hl : s.mon.lastFall = some (tf, .modeSel))
    (ht : s.now - tf < c.tMode) : riseFault c s = some (.timingViolation .mode) := by
  have hblind : blindShort c s = none := blindShort_eq_none fun _ _ hl' => by simp [hl] at hl'
  simp [riseFault_notBlind hp hblind, modeShort_iff.mpr ⟨tf, hl, ht⟩]

/-- TC-LOW comes after every fall whose own gap is over. -/
theorem riseFault_low (hp : s.mon.anyRise = true ∨ c.tPower ≤ s.now) {tf : Nat} {tag : FallTag} (hl : s.mon.lastFall = some (tf, tag))
    (hb : ∀ k, tag = .blind k → tBlind c k ≤ s.now - tf) (hm : tag = .modeSel → c.tMode ≤ s.now - tf)
    (ht : s.now - tf < tLow c tag) : riseFault c s = some (.timingViolation .low) := by
  have hblind : blindShort c s = none := blindShort_eq_none fun _ k hl' => by
    cases hl.symm.trans hl'
    exact hb k rfl
  have hmode : modeShort c s = false := modeShort_eq_false fun _ hl' => by
    cases hl.symm.trans hl'
    exact hm rfl
  simp [riseFault_notBlind hp hblind, hmode, lowShort_iff.mpr ⟨tf, tag, hl, ht⟩]

/-- With every gap over, the setup time (R250) is checked, and then a write rise's settle obligation (R251, R252). -/
theorem riseFault_gapOver (hg : GapOver c s) : riseFault c s =
    if s.now - s.mon.lastChange < c.tSetup then some (.timingViolation .setup)
    else if s.cycleKind = .write then settleFault s
    else none := by
  obtain ⟨hp, hgap⟩ := hg
  have hblind : blindShort c s = none := blindShort_eq_none fun tf k hl => (le_max_right _ _).trans (hgap tf _ hl)
  have hmode : modeShort c s = false := modeShort_eq_false fun tf hl => (le_max_right _ _).trans (hgap tf _ hl)
  have hlow : lowShort c s = false := lowShort_eq_false fun tf tag hl => (tLow_le_gap c tag).trans (hgap tf tag hl)
  simp [riseFault_notBlind hp hblind, hmode, hlow]

theorem riseFault_setup (hg : GapOver c s) (ht : s.now - s.mon.lastChange < c.tSetup) :
    riseFault c s = some (.timingViolation .setup) := by
  rw [riseFault_gapOver hg, if_pos ht]

theorem riseFault_settle (hg : GapOver c s) (hs : c.tSetup ≤ s.now - s.mon.lastChange) (hw : s.rw ≠ some true) :
    riseFault c s = settleFault s := by
  rw [riseFault_gapOver hg, if_neg hs.not_gt, if_pos (show s.cycleKind = .write from if_neg hw)]

/-- Where the lines let Enable rise, only the monitor can find a fault. -/
theorem lineFault_rise_monitor (he : s.e = some false) (hw : s.rw = some true ∨ (s.rw = some false ∧ s.dir = some .output)) :
    lineFault c .e true s = riseFault c s := by
  obtain hw | ⟨hw, hd⟩ := hw
  · simp [lineFault_rise c s he, hw]
  · simp [lineFault_rise c s he, hw, hd]

theorem settleFault_untilTime {t : Nat} (hq : s.mon.settle = .untilTime t) (ht : s.now < t) :
    settleFault s = some (.timingViolation .settleTime) := by
  simp [settleFault, hq, ht]

theorem settleFault_untilBusyClear (hq : s.mon.settle = .untilBusyClear) : settleFault s = some (.timingViolation .settleBusy) := by
  simp [settleFault, hq]

end RiseChecks

/-- Settles O49: what the monitor finds is raised, and each check is reached where those before it in R243 find nothing. -/
theorem riseChecksInOrder : Obligations.RiseChecksInOrder := by
  unfold Obligations.RiseChecksInOrder
  intro s m hi he hw
  have raises {f : ModelFault} (hf : riseFault m.cfg m.st = some f) : exec (.setControlLine .e true) s = .next (s.raise m f) :=
    setControlLine_raises hi ((lineFault_rise_monitor he hw).trans hf)
  refine ⟨fun ha ht => raises (riseFault_power ha ht), fun hp => ⟨?_, ?_, ?_, fun hgap => ⟨?_, fun hs hwrite => ⟨?_, ?_⟩⟩⟩⟩
  · exact fun tf k hl ht => raises (riseFault_blind hp hl ht)
  · exact fun tf hl ht => raises (riseFault_mode hp hl ht)
  · exact fun tf tag hl hb hm ht => raises (riseFault_low hp hl hb hm ht)
  · exact fun ht => raises (riseFault_setup ⟨hp, hgap⟩ ht)
  · exact fun t hq ht => raises ((riseFault_settle ⟨hp, hgap⟩ hs hwrite).trans (settleFault_untilTime hq ht))
  · exact fun hq => raises ((riseFault_settle ⟨hp, hgap⟩ hs hwrite).trans (settleFault_untilBusyClear hq))

/-! ### A write pulse (R247) -/

theorem writeFallFault_of_riseAt (c : Cfg) {s : St} {tr : Nat} (h : s.mon.riseAt = some tr) :
    writeFallFault c s = if s.now - tr < c.tPwEn then some (.timingViolation .pw) else none := by
  simp [writeFallFault, h]

/-- The fall of a write cycle with RS and the latch written: only the pulse's width can be wrong. -/
theorem fallFault_write (c : Cfg) {s : St} (hk : s.mon.riseKind = some .write) (hr : s.rs ≠ none) (hd : s.data ≠ none) :
    fallFault c s = writeFallFault c s := by
  simp [fallFault, hk, hr, hd]

/-- Settles O50: the fall's only check finds the width too short, and `setControlLine_raises` leaves all else as it is. -/
theorem shortPulseIsViolation : Obligations.ShortPulseIsViolation := by
  unfold Obligations.ShortPulseIsViolation
  intro s m tr hi he hk hr hd ht hshort
  have hfault : lineFault m.cfg .e false m.st = some (.timingViolation .pw) := by
    rw [lineFault_fall _ _ he, fallFault_write _ hk hr hd, writeFallFault_of_riseAt _ ht, if_pos hshort]
  exact setControlLine_raises hi hfault

end Sys2Proof.Machine
end
